-- ==== Sys2Proof/Word.lean ====
section
/-! DEFINITION. The word and the byte of P/F (R2, R6 of spec/00_scope.md; R51 of spec/20_memory.md). -/

namespace Sys2Proof

/-- A register, an address, a datum: 32 bits, "Verarbeitungsbreite: 32 Bits" (R2, R6). -/
abbrev Word := BitVec 32

/-- The addressable unit of memory, `ADDR_UNIT` (R51). -/
abbrev Byte := BitVec 8

end Sys2Proof
end

