-- ==== Sys2Proof/Machine/Bytes.lean ====
section
/-! DEFINITION. Byte order: the four bytes of a word, little endian (R8, R50, R52 of spec/20_memory.md). -/

namespace Sys2Proof.Machine

/-- Byte `i` of a word: Byte 0 = `v[7:0]`, ..., Byte 3 = `v[31:24]` (R8). -/
def byteOf (v : Word) (i : Nat) : Byte := v.extractLsb' (8 * i) 8

/-- The word whose bytes at A, A+1, A+2, A+3 are `b0`, `b1`, `b2`, `b3` (R52). -/
def wordOf (b0 b1 b2 b3 : Byte) : Word := b3 ++ b2 ++ b1 ++ b0

end Sys2Proof.Machine
end

