-- ==== Sys2Proof/Config.lean ====
section
/-! DEFINITION. What the spec fixes for the machine, what it leaves to a named parameter (R7 of
spec/00_scope.md), and the free values: what the environment answers and the spec does not say. -/

namespace Sys2Proof

/-! ## Parameters the spec fixes (R6, R7) -/

/-- `ILEN`: the distance from one instruction to the next, 8 bytes under the reference encoding (R84;
log entry 23). -/
def Config.ilen : Word := 8

/-- `WORD_BYTES`: the step of the stack and the size of every access (R56, R67; log entry 23). -/
def Config.wordBytes : Word := 4

/-- The entry point after reset: "Programmstart nach Rücksetzen: von Adresse 0 an" (R36). -/
def Config.resetVector : Word := 0

/-! ## Parameters the spec leaves open (R7): one record, carried in the state, that no step changes -/

/-- `SUBC_MODE` (R125): what SUBC adds to the difference. Log entry 5. -/
inductive SubcMode where
  /-- the printed formula: `Rx - Ry + CF` -/
  | literal
  /-- the formula that chains: `Rx - Ry - 1 + CF` -/
  | borrowChain
  deriving DecidableEq, Repr

/-- `JPP_JPN_SENSE` (R187, R188, conflict C1). Log entry 6. -/
inductive JppJpnSense where
  /-- the condition column: JPP on SF = 1, JPN on SF = 0 -/
  | asTabulated
  /-- the names: JPP on SF = 0, JPN on SF = 1 -/
  | asNamed
  deriving DecidableEq, Repr

/-- What executing PRAGMA does (R232). Log entry 18. -/
inductive PragmaMode where
  /-- the spec's decision D32: `Fault(Refused, pc)` -/
  | refuse
  /-- the premise R232 allows: "PRAGMA has no effect on the architectural state", so a display event only -/
  | noEffect
  deriving DecidableEq, Repr

/-- A range of word addresses that hold memory, `base .. base + size - 1` (R7, R57). -/
structure Region where
  base : Nat
  size : Nat
  deriving DecidableEq, Repr

/-- The open parameters of R7 (entries 4 to 8, 16 and 18 of the log). A claim about every state is a claim about
every value of them. -/
structure Config where
  /-- `SUBC_MODE` (R125) -/
  subcMode : SubcMode
  /-- `JPP_JPN_SENSE` (R187, R188) -/
  jppJpnSense : JppJpnSense
  /-- `SHIFT_COUNT_REG`: the bits of Rc that give the count of a register-count shift (R140) -/
  shiftCountMask : Word
  /-- `MEM_MAP`: the word addresses that hold memory (R57, R59) -/
  memMap : List Region
  /-- `MEM_INIT`: what memory holds after a reset; every byte it does not list holds no value (R36) -/
  memInit : List Host.Cell
  /-- `MESSAGES`: the message texts of the program, by message id (R94) -/
  messages : List (Word × String)
  /-- the premise on PRAGMA (R232) -/
  pragma : PragmaMode
  deriving DecidableEq, Repr

/-- The spec's own value of every parameter (R7, R232): the literal SUBC, the tabulated JPP and JPN, all 32 bits
of a count, all 2^32 addresses, PRAGMA refused; no program image and no message table. -/
def Config.standard : Config where
  subcMode := .literal
  jppJpnSense := .asTabulated
  shiftCountMask := 0xFFFFFFFF
  memMap := [⟨0, 4294967296⟩]
  memInit := []
  messages := []
  pragma := .refuse

/-- `RESET_VALUES`: what the registers the spec gives no reset value hold after a reset (R36, R37): R1..R6, SP
and ST[5:0] (its six flags, bit 5 first). -/
structure ResetValues where
  r1 : Word
  r2 : Word
  r3 : Word
  r4 : Word
  r5 : Word
  r6 : Word
  sp : Word
  st : BitVec 6
  deriving DecidableEq, Repr

/-- The values State.reset names: all zero. DESIGN CHOICE, unsafe (log entry 1): the spec gives none. -/
def ResetValues.zero : ResetValues where
  r1 := 0
  r2 := 0
  r3 := 0
  r4 := 0
  r5 := 0
  r6 := 0
  sp := 0
  st := 0

/-! ## What crosses the boundary to the environment and the host (R220, R252, R255) -/

/-- A port access, in program order (R220): what was written, or what the environment answered. -/
inductive PortEvent where
  | read (port answer : Word)
  | write (port value : Word)
  deriving DecidableEq, Repr

/-- An entry of the display log (R252). -/
inductive DisplayEvent where
  | halt (text : String)
  | checkpoint (text : String)
  /-- a model without source lines displays `pc` (R231; log entry 17) -/
  | breakpoint (pc : Word)
  | pragma (text : String)
  deriving DecidableEq, Repr

/-- What the host does before one step (R255, R256; log entry 13). -/
inductive HostEvent where
  /-- nothing: the processor steps -/
  | idle
  /-- the manual confirmation after a breakpoint (R231) -/
  | confirm
  /-- Reset; `values` are what the registers happen to hold after it (`RESET_VALUES`, R37) -/
  | reset (values : ResetValues)
  deriving DecidableEq, Repr

/-! ## Free values: no body, so nothing can be proved about what they are -/

/-- The environment's answer to a port read, from all the port events it has seen, those before a Reset among them
(R271), and the port (R220: "a 32-bit value chosen by the environment (a draw: the model must allow every value, and
two reads of the same port may differ)"; the open parameter `IO_DEVICES`). Log entry 14. -/
opaque Config.portAnswer : List PortEvent → Word → Word

/-- The text displayed for a message id that `MESSAGES` does not list: the spec states none (R94). Log
entry 16. -/
opaque Config.unlistedMessage : Word → String

end Sys2Proof
end

