-- ==== Sys2Proof/Syntax.lean ====
section
/-! DEFINITION. The statements of P/F: one constructor for each row of spec/opcode_table.json, in the table's order
(R81 of spec/30_encoding.md), the six alias rows of R82 among them (log entry 21). -/

namespace Sys2Proof

/-- A universal register; there is no R0 and no R7 (R20, R21). -/
inductive Reg where
  | r1 | r2 | r3 | r4 | r5 | r6
  deriving DecidableEq, Repr

/-- A special register named by LDSR and STSR: "zulässige Mnemonics: PC, SP, ST" (R31, R89). -/
inductive SR where
  | pc | sp | st
  deriving DecidableEq, Repr

/-- A P/F instruction with its operands in the order they are written (R80). -/
inductive Instr where
  -- Transportbefehle
  | ldi (n : Reg) (imm : Word)
  | ld (n : Reg) (daddr : Word)
  | ldr (n a : Reg)
  | st (n : Reg) (daddr : Word)
  | str (n a : Reg)
  | mov (d s : Reg)
  | ldsr (n : Reg) (sr : SR)
  | stsr (n : Reg) (sr : SR)
  -- Arithmetische und logische Befehle
  | add (x y : Reg)
  | sub (x y : Reg)
  | addc (x y : Reg)
  | subc (x y : Reg)
  | cpl (n : Reg)
  | inc (n : Reg) (imm : Word)
  | dec (n : Reg) (imm : Word)
  | cmp (x y : Reg)
  | inv (n : Reg)
  | and (x y : Reg)
  | or (x y : Reg)
  | xor (x y : Reg)
  -- Verschieben und Rotieren
  | shl (n : Reg) (count : Byte)
  | shr (n : Reg) (count : Byte)
  | rotl (n : Reg) (count : Byte)
  | rotr (n : Reg) (count : Byte)
  | shlr (n c : Reg)
  | shrr (n c : Reg)
  | rotlr (n c : Reg)
  | rotrr (n c : Reg)
  | sra (n : Reg) (count : Byte)
  | srar (n c : Reg)
  | rtlx (n : Reg)
  | rtrx (n : Reg)
  -- Allgemeine Programmsteuerbefehle
  | push (n : Reg)
  | pop (n : Reg)
  | pushsta
  | popsta
  | pusha
  | popa
  | call (daddr : Word)
  | sbra (a : Reg)
  | ret
  | jmp (daddr : Word)
  | bra (a : Reg)
  | nop
  | halt (message : Word)
  -- Bedingte Verzweigungen
  | jpz (daddr : Word)
  | jpe (daddr : Word)
  | jpnz (daddr : Word)
  | jpne (daddr : Word)
  | jpc (daddr : Word)
  | jpnc (daddr : Word)
  | jpo (daddr : Word)
  | jpno (daddr : Word)
  | jpp (daddr : Word)
  | jpn (daddr : Word)
  | jpbc (daddr : Word)
  | jpnbc (daddr : Word)
  | jpd (daddr : Word)
  | jpnd (daddr : Word)
  | jpb (daddr : Word)
  | jpa (daddr : Word)
  | jpbe (daddr : Word)
  | jpae (daddr : Word)
  | jpl (daddr : Word)
  | jpg (daddr : Word)
  | jpng (daddr : Word)
  | jple (daddr : Word)
  | jpnl (daddr : Word)
  | jpge (daddr : Word)
  -- Bitbefehle
  | bit (n : Reg) (k : Byte)
  | set (n : Reg) (k : Byte)
  | clr (n : Reg) (k : Byte)
  | bitr (n s : Reg)
  | setr (n s : Reg)
  | clrr (n s : Reg)
  | bzf (n : Reg) (k : Byte)
  | bzfr (n s : Reg)
  -- Ein- und Ausgabe
  | out (n : Reg) (port : Word)
  | inp (n : Reg) (port : Word)
  -- Fehlersuchen
  | checkpoint (message : Word)
  | chk (message : Word)
  | breakpoint
  | brk
  | pragma (message : Word)
  deriving DecidableEq, Repr

end Sys2Proof
end

