-- ==== Sys2Proof/Machine/State.lean ====
section
/-! DEFINITION. The machine's state as plain data: everything the spec gives P/F (R20 to R37 of spec/10_state.md), the
logs of the environment (R252, R257), the parameters (R7), and what the environment and the host are going to do. -/

namespace Sys2Proof.Machine

/-- The causes of a fault (R242 of spec/60_exceptions.md), each with its info. A meaning answers `.fault cause`; the
step then commits the transition of R256 to `Faulted(cause, pc)` (State.raise). All are safe: the spec stops the
model there "so that nothing can be proved about what happens next" (R241). -/
inductive Fault where
  /-- An instruction fetch, data access or stack access at an address that is no multiple of 4 (R55); raised by the
  fetch, LD, ST, LDR, STR and the stack instructions. Safe. -/
  | misaligned (addr : Word)
  /-- An access whose word address lies outside `MEM_MAP` (R57); raised by the same accesses. Safe. -/
  | busError (addr : Word)
  /-- The fetched 64 bits are no instruction (R91); raised by the fetch. Safe. -/
  | illegalInstruction (addr : Word)
  /-- The byte at `addr` is read and holds no value (R37, U17); raised by the fetch, by loads and pops. Safe. -/
  | unwritten (addr : Word)
  /-- The bit number of a bit instruction is greater than 31 (R210); raised by the eight bit instructions. Safe. -/
  | bitIndexRange (k : Nat)
  /-- A PRAGMA is executed at `addr` and no premise on its effect is taken (R232); raised by PRAGMA. Safe. -/
  | refused (addr : Word)
  deriving DecidableEq, Repr

/-- Why the model has no answer. No meaning and no step of this model answers a refusal. -/
inductive Refusal where
  /-- An instruction that has no meaning in the model; raised by no arm of exec, since every instruction has its
  meaning. Safe. -/
  | notModelled (mnemonic : String)
  deriving DecidableEq, Repr

/-- The run state (R34). -/
inductive RunState where
  | running
  | halted
  | breakStopped
  | faulted (cause : Fault) (pc : Word)
  deriving DecidableEq, Repr

/-- The universal registers R1..R6 (R20). -/
structure Regs where
  r1 : Word
  r2 : Word
  r3 : Word
  r4 : Word
  r5 : Word
  r6 : Word
  deriving DecidableEq, Repr

/-- The six flags of ST, bits 5..0 (R26); bits 31..6 are hardwired 0 and held nowhere (R27; log entry 22). -/
structure Flags where
  /-- Zero Flag, bit 5 -/
  zf : Bool
  /-- Carry Flag, bit 4 -/
  cf : Bool
  /-- Overflow Flag, bit 3 -/
  of : Bool
  /-- Sign Flag, bit 2 -/
  sf : Bool
  /-- BCD Carry Flag, bit 1 -/
  bf : Bool
  /-- Dummy Flag, bit 0 (R30) -/
  df : Bool
  deriving DecidableEq, Repr

/-- The memory (R32): the bytes that hold a value, by address. An address that is not listed holds no value (R37;
log entry 2). -/
abbrev Memory := List Host.Cell

/-- The canonical form: addresses strictly rising, each in the 2^32 bytes of the address space. (An unlisted address
holds no value, so no entry can equal what it reads as.) -/
abbrev Memory.wf (m : Memory) : Prop :=
  m.Pairwise (fun c d => c.1 < d.1) ∧ ∀ c ∈ m, c.1 < 4294967296

/-- The state of the machine. -/
structure State where
  /-- R1..R6 (R20) -/
  regs : Regs
  /-- the stack pointer (R22) -/
  sp : Word
  /-- the program counter (R23): between steps, the address of the next instruction -/
  pc : Word
  /-- the status register's flags (R26) -/
  st : Flags
  /-- the memory (R32) -/
  mem : Memory
  /-- the run state (R34) -/
  run : RunState
  /-- the display log, oldest first (R252) -/
  display : List DisplayEvent
  /-- the port events since the last Reset, oldest first (R220, R257, R271) -/
  portLog : List PortEvent
  /-- MODEL: every port event the environment has seen, oldest first. A Reset of the machine does not reset the
  environment (R271), so it keeps this history (log entries 14 and 26) -/
  portHistory : List PortEvent
  /-- MODEL: the answers the environment gives to the coming port reads; beyond them a free value (log entry 14) -/
  portInputs : List Word
  /-- MODEL: what the host does before each coming step; beyond them nothing (log entry 13) -/
  hostEvents : List HostEvent
  /-- the open parameters of R7, changed by no step (log entry 5) -/
  config : Config
  deriving DecidableEq, Repr

/-- The machine right after a Reset under the parameters `c`, the registers holding `v` (R36, R37, R270, R271): PC at
the reset vector, Running, memory as MEM_INIT, both logs empty; and an environment that has seen no port access yet. -/
def State.boot (c : Config) (v : ResetValues) : State where
  regs := { r1 := v.r1, r2 := v.r2, r3 := v.r3, r4 := v.r4, r5 := v.r5, r6 := v.r6 }
  sp := v.sp
  pc := Config.resetVector
  st :=
    { zf := v.st.getLsbD 5, cf := v.st.getLsbD 4, of := v.st.getLsbD 3,
      sf := v.st.getLsbD 2, bf := v.st.getLsbD 1, df := v.st.getLsbD 0 }
  mem := c.memInit
  run := .running
  display := []
  portLog := []
  portHistory := []
  portInputs := []
  hostEvents := []
  config := c

/-- The machine right after reset (R36, R270): the spec's own parameters, and zero in every register the spec gives no
value (DESIGN CHOICE, unsafe: log entry 1). -/
def State.reset : State := State.boot Config.standard ResetValues.zero

end Sys2Proof.Machine
end

