-- ==== Sys2Proof/Machine/Ops.lean ====
section
/-! DEFINITION. The named operations over registers, memory, the stack, the logs and the run state
(R10 of spec/00_scope.md, R52 to R68 of spec/20_memory.md, R160, R241, R252). -/

namespace Sys2Proof.Machine

/-! ## Registers -/

/-- `x[i]`: read a universal register (R10, R20). -/
def Regs.get (r : Regs) : Reg → Word
  | .r1 => r.r1
  | .r2 => r.r2
  | .r3 => r.r3
  | .r4 => r.r4
  | .r5 => r.r5
  | .r6 => r.r6

/-- `x[i] <- v`: write a universal register (R10, R20). -/
def Regs.set (r : Regs) (i : Reg) (v : Word) : Regs :=
  match i with
  | .r1 => { r with r1 := v }
  | .r2 => { r with r2 := v }
  | .r3 => { r with r3 := v }
  | .r4 => { r with r4 := v }
  | .r5 => { r with r5 := v }
  | .r6 => { r with r6 := v }

/-- `x[i]` (R10). -/
def State.reg (s : State) (i : Reg) : Word := s.regs.get i

/-- `x[i] <- v` (R10). -/
def State.setReg (s : State) (i : Reg) (v : Word) : State := { s with regs := s.regs.set i v }

/-- `SP <- v` (R22). -/
def State.setSp (s : State) (v : Word) : State := { s with sp := v }

/-- `pc <- target`: the next instruction is fetched from there; "nothing is added to it and no bit is cleared" (R175). -/
def State.setPc (s : State) (v : Word) : State := { s with pc := v }

/-- Writing flags; each instruction says which (R29). -/
def State.setSt (s : State) (f : Flags) : State := { s with st := f }

/-- `next_pc = (pc + ILEN) mod 2^32`: the address of the instruction that follows, and the value of the register PC
while the instruction at `s.pc` executes (R10, R24, R25, R68). -/
def State.nextPc (s : State) : Word := s.pc + Config.ilen

/-- The advance of PC to the following instruction (R25 step 3). -/
def State.advance (s : State) : State := s.setPc s.nextPc

/-! ## Memory -/

/-- The byte at an address, or none where it holds no value (R37, R58). -/
def Memory.byte? : Memory → Nat → Option Byte
  | [], _ => none
  | (b, v) :: m, a => if b = a then some v else Memory.byte? m a

/-- Write one byte, keeping the addresses in rising order (R62). -/
def Memory.setByte : Memory → Nat → Byte → Memory
  | [], a, v => [(a, v)]
  | (b, w) :: m, a, v =>
    if a < b then (a, v) :: (b, w) :: m
    else if a = b then (a, v) :: m
    else (b, w) :: Memory.setByte m a v

/-- The word at byte address `a`, little endian (R52); or the lowest of its four addresses whose byte holds no value
(log entry 20). -/
def Memory.word (m : Memory) (a : Nat) : Except Nat Word :=
  match m.byte? a with
  | none => .error a
  | some b0 =>
    match m.byte? (a + 1) with
    | none => .error (a + 1)
    | some b1 =>
      match m.byte? (a + 2) with
      | none => .error (a + 2)
      | some b2 =>
        match m.byte? (a + 3) with
        | none => .error (a + 3)
        | some b3 => .ok (wordOf b0 b1 b2 b3)

/-- Write the four bytes of a word at byte address `a`, little endian (R52). -/
def Memory.setWord (m : Memory) (a : Nat) (v : Word) : Memory :=
  (((m.setByte a (byteOf v 0)).setByte (a + 1) (byteOf v 1)).setByte (a + 2) (byteOf v 2)).setByte (a + 3) (byteOf v 3)

/-- `addr mod 4 = 0` (R54). -/
def aligned (a : Word) : Bool := a.toNat % 4 == 0

/-- Whether the word address `a` lies in `MEM_MAP` (R57, R59). -/
def mapped (c : Config) (a : Word) : Bool :=
  c.memMap.any fun r => decide (r.base ≤ a.toNat ∧ a.toNat < r.base + r.size)

/-- What the address alone makes of an access: Misaligned first, then BusError (R55, R57, R244). -/
def accessFault (c : Config) (a : Word) : Option Fault :=
  if aligned a = false then some (.misaligned a)
  else if mapped c a = false then some (.busError a)
  else none

/-- The word at `a` of a memory access whose address has been checked, or `Unwritten` (R37, R244). -/
def State.fetchWord (s : State) (a : Word) : Except Fault Word :=
  match s.mem.word a.toNat with
  | .ok v => .ok v
  | .error b => .error (.unwritten (BitVec.ofNat 32 b))

/-- `MemRead(a, 4)` (R10, R52, R55, R57). -/
def State.memRead (s : State) (a : Word) : Except Fault Word :=
  match accessFault s.config a with
  | some f => .error f
  | none => s.fetchWord a

/-- The memory write of an access whose address has been checked (R52). -/
def State.storeWord (s : State) (a v : Word) : State := { s with mem := s.mem.setWord a.toNat v }

/-- `MemWrite(a, 4, v)` (R10, R52, R55, R57). -/
def State.memWrite (s : State) (a v : Word) : Except Fault State :=
  match accessFault s.config a with
  | some f => .error f
  | none => .ok (s.storeWord a v)

/-! ## The stack (R67, R160) -/

/-- Push: `a = SP - 4; MemWrite(a, 4, v); SP <- a`; SP changes only if the access did not fault. -/
def State.push (s : State) (v : Word) : Except Fault State :=
  let a := s.sp - Config.wordBytes
  match s.memWrite a v with
  | .ok t => .ok (t.setSp a)
  | .error f => .error f

/-- Pop: `v = MemRead(SP, 4); SP <- SP + 4`: the word and the state with the new SP. -/
def State.pop (s : State) : Except Fault (Word × State) :=
  match s.memRead s.sp with
  | .ok v => .ok (v, s.setSp (s.sp + Config.wordBytes))
  | .error f => .error f

/-- The first fault among the addresses of several accesses, in access order: PUSHA and POPA check all seven before
the first access (R165, R166, R244). -/
def firstFault (c : Config) : List Word → Option Fault
  | [] => none
  | a :: as =>
    match accessFault c a with
    | some f => some f
    | none => firstFault c as

/-! ## The status register as a word (R26, R27) -/

/-- A read of ST: ZF, CF, OF, SF, BF, DF in bits 5..0, zero above (R26, R27). -/
def Flags.toWord (f : Flags) : Word :=
  (0 : BitVec 26) ++ BitVec.ofBool f.zf ++ BitVec.ofBool f.cf ++ BitVec.ofBool f.of ++ BitVec.ofBool f.sf
    ++ BitVec.ofBool f.bf ++ BitVec.ofBool f.df

/-- A write of ST: bits 5..0 are taken, bits 31..6 ignored (R27). -/
def Flags.ofWord (v : Word) : Flags where
  zf := v.getLsbD 5
  cf := v.getLsbD 4
  of := v.getLsbD 3
  sf := v.getLsbD 2
  bf := v.getLsbD 1
  df := v.getLsbD 0

/-! ## The environment (R220, R252) -/

/-- `Display(kind, payload)`: append to the display log (R252). -/
def State.displayed (s : State) (e : DisplayEvent) : State := { s with display := s.display ++ [e] }

/-- What the environment answers to the next port read (R220): its next prepared answer, and where none is prepared the
free value of all that it has seen of the ports, over every Reset (R271; log entries 14 and 26). -/
def State.portAnswer (s : State) (port : Word) : Word :=
  match s.portInputs with
  | v :: _ => v
  | [] => Config.portAnswer s.portHistory port

/-- A port event, recorded in the log of the run and in what the environment has seen (R220, R271). -/
def State.recorded (s : State) (e : PortEvent) : State :=
  { s with portLog := s.portLog ++ [e], portHistory := s.portHistory ++ [e] }

/-- `PortRead(port)`: the state after the read; its value is `s.portAnswer port` (R220). -/
def State.portRead (s : State) (port : Word) : State :=
  { s.recorded (.read port (s.portAnswer port)) with portInputs := s.portInputs.tail }

/-- `PortWrite(port, v)`: the event "the program wrote v to port" (R220). -/
def State.portWrite (s : State) (port v : Word) : State :=
  s.recorded (.write port v)

/-! ## The run state, faults and the way back -/

/-- A change of the run state (R34, R256). -/
def State.setRun (s : State) (r : RunState) : State := { s with run := r }

/-- `raise Fault(cause, info)`, the one way an exception is taken: the run state becomes `Faulted(cause, pc)`; no
register, flag, memory byte, port or display changes, and PC is left at the faulting instruction (R241). There is no
vector, no saved state and no handler (R245). -/
def State.raise (s : State) (cause : Fault) : State := s.setRun (.faulted cause s.pc)

/-- The host's `Reset`, the only way out of Faulted and Halted (R241, R254, R270): the machine of State.boot under the
same parameters, the registers holding `v`. The environment is not reset: what it has seen and what it is about to
answer stay (R271; log entry 26), as does what the host is about to do. -/
def State.hostReset (s : State) (v : ResetValues) : State :=
  { State.boot s.config v with
    portHistory := s.portHistory, portInputs := s.portInputs, hostEvents := s.hostEvents }

/-- The host's `Confirm`: from BreakStopped to Running with no other change; in any other run state no effect (R231,
R255, R256). -/
def State.hostConfirm (s : State) : State :=
  match s.run with
  | .breakStopped => s.setRun .running
  | _ => s

/-! ## How a meaning ends -/

/-- An instruction that does not write `pc`: PC = next_pc, or the fault that its accesses raise (R10, R25, R241). -/
def finish : Except Fault State → Host.Outcome State Fault Refusal
  | .ok t => .next t.advance
  | .error f => .fault f

/-- An instruction that loads PC with `target` (R10, R175), unless its accesses raise a fault. -/
def finishAt (target : Word) : Except Fault State → Host.Outcome State Fault Refusal
  | .ok t => .next (t.setPc target)
  | .error f => .fault f

end Sys2Proof.Machine
end

