-- ==== Sys2Proof/Machine/Flags.lean ====
section
/-! DEFINITION. Every flag computation: the adder and subtraction (R120, R121), SUBC (R125), the logic rule (R130), the shift
rule (R141), the bit test (R211) and the conditions of the jumps (R203). -/

namespace Sys2Proof.Machine

/-! ## The adder (R120, R121, R125) -/

/-- A result with the five flags an arithmetic instruction writes. -/
structure AluOut where
  r : Word
  zf : Bool
  cf : Bool
  of : Bool
  sf : Bool
  bf : Bool
  deriving DecidableEq, Repr

/-- `AddC(a, b, c)`, the adder with carry-in, on unbounded integers (R120). -/
def addC (a b : Word) (c : Bool) : AluOut :=
  let u := a.toNat + b.toNat + c.toNat
  let r := BitVec.ofNat 32 u
  let cout := u / 2 ^ 32
  let c31 := (a.toNat % 2 ^ 31 + b.toNat % 2 ^ 31 + c.toNat) / 2 ^ 31
  let c4 := (a.toNat % 16 + b.toNat % 16 + c.toNat) / 16
  { r := r
    zf := r == 0
    cf := cout == 1
    of := (cout == 1) ^^ (c31 == 1)
    sf := r.getLsbD 31
    bf := c4 == 1 }

/-- A subtraction `a - b` on the adder: `AddC(a, ~b, 1)` (R121). -/
def subC (a b : Word) : AluOut := addC a (~~~b) true

/-- The third term `k` of SUBC (R125): CF in the literal mode, CF - 1 in the chaining mode. -/
def subcTerm (mode : SubcMode) (cf : Bool) : Int :=
  match mode with
  | .literal => (cf.toNat : Int)
  | .borrowChain => (cf.toNat : Int) - 1

/-- SUBC with third term `k`, on unbounded integers (R125). -/
def subK (a b : Word) (k : Int) : AluOut :=
  let u : Int := (a.toNat : Int) - (b.toNat : Int) + k
  let v : Int := a.toInt - b.toInt + k
  let r := BitVec.ofInt 32 u
  { r := r
    zf := r == 0
    cf := decide (0 ≤ u)
    of := decide (v < -(2 ^ 31) ∨ 2 ^ 31 - 1 < v)
    sf := r.getLsbD 31
    bf := decide (0 ≤ ((a.toNat % 16 : Nat) : Int) - ((b.toNat % 16 : Nat) : Int) + k) }

/-- The flags after an arithmetic instruction: ZF, CF, OF, SF, BF from the result, DF as it was (R12, R29). -/
def Flags.arith (f : Flags) (o : AluOut) : Flags :=
  { zf := o.zf, cf := o.cf, of := o.of, sf := o.sf, bf := o.bf, df := f.df }

/-! ## Logic, shifts, bit test -/

/-- "SF = r[31] and ZF = (r == 0)", the other flags as they were (R130). -/
def Flags.logic (f : Flags) (r : Word) : Flags := { f with zf := r == 0, sf := r.getLsbD 31 }

/-- The flags after a shift or rotate with result `r`: ZF and SF from it, CF the bit shifted out last, left as it was
where none was shifted out (R141). -/
def Flags.shift (f : Flags) (r : Word) (out : Option Bool) : Flags :=
  { f with zf := r == 0, sf := r.getLsbD 31, cf := out.getD f.cf }

/-- BIT and BITR: `ST.ZF <- NOT bit`, the other flags as they were (R211). -/
def Flags.bitTest (f : Flags) (bit : Bool) : Flags := { f with zf := !bit }

/-! ## The conditions of the jumps (R203) -/

/-- The twenty conditions, each named as its jump. -/
inductive Cond where
  | z | nz | c | nc | o | no | p | n | bc | nbc | d | nd | b | a | be | ae | l | g | ng | nl
  deriving DecidableEq, Repr

/-- The truth table of R203; JPP and JPN under the parameter `JPP_JPN_SENSE` (R187, R188; log entry 6). -/
def Cond.holds (sense : JppJpnSense) (f : Flags) : Cond → Bool
  | .z => f.zf
  | .nz => !f.zf
  | .c => f.cf
  | .nc => !f.cf
  | .o => f.of
  | .no => !f.of
  | .p =>
    match sense with
    | .asTabulated => f.sf
    | .asNamed => !f.sf
  | .n =>
    match sense with
    | .asTabulated => !f.sf
    | .asNamed => f.sf
  | .bc => f.bf
  | .nbc => !f.bf
  | .d => f.df
  | .nd => !f.df
  | .b => !f.zf && !f.cf
  | .a => !f.zf && f.cf
  | .be => f.zf || !f.cf
  | .ae => f.zf || f.cf
  | .l => f.of ^^ f.sf
  | .g => !(f.of ^^ f.sf)
  | .ng => f.zf || (f.of ^^ f.sf)
  | .nl => f.zf || !(f.of ^^ f.sf)

end Sys2Proof.Machine
end

