-- ==== Sys2Proof/Machine/Operands.lean ====
section
/-! DEFINITION. The operand forms: special registers (R31, R89), memory addresses (R118), shift counts (R140), bit numbers
(R210), port addresses (R220) and messages (R94). -/

namespace Sys2Proof.Machine

/-- A read of a special register by LDSR: PC yields `next_pc` (R24), ST its six flags zero-extended (R27, R116). -/
def State.readSR (s : State) : SR → Word
  | .pc => s.nextPc
  | .sp => s.sp
  | .st => s.st.toWord

/-- The two addressing modes of a load or store (R118). -/
inductive MemOperand where
  /-- the 32-bit address `Daddr` written in the instruction (LD, ST) -/
  | absolute (daddr : Word)
  /-- the content of a universal register (LDR, STR) -/
  | indirect (a : Reg)
  deriving DecidableEq, Repr

/-- The address of a memory operand: no displacement, no index, no scaling (R118). -/
def State.effAddr (s : State) : MemOperand → Word
  | .absolute d => d
  | .indirect a => s.reg a

/-- The second operand of a shift, a rotate or a bit instruction (R140, R210). -/
inductive NumOperand where
  /-- an Imm8, unsigned 0..255 -/
  | imm (k : Byte)
  /-- the content of a universal register, unsigned -/
  | reg (r : Reg)
  deriving DecidableEq, Repr

/-- The count of a shift or rotate: an Imm8 as it stands, a register through the parameter `SHIFT_COUNT_REG`, by default
all 32 bits (R140; log entry 7). -/
def State.shiftCount (s : State) : NumOperand → Nat
  | .imm k => k.toNat
  | .reg r => (s.reg r &&& s.config.shiftCountMask).toNat

/-- The bit number of a bit instruction: an Imm8, or the whole content of a register (R210). -/
def State.bitNumber (s : State) : NumOperand → Nat
  | .imm k => k.toNat
  | .reg r => (s.reg r).toNat

/-- The text of a message id in a message table; a free value where the table does not list it (R94; log entry 16). -/
def lookupMessage : List (Word × String) → Word → String
  | [], id => Config.unlistedMessage id
  | (k, text) :: rest, id => if k = id then text else lookupMessage rest id

/-- `MESSAGES[id]` (R94, R173, R230, R232). -/
def State.message (s : State) (id : Word) : String := lookupMessage s.config.messages id

end Sys2Proof.Machine
end

