-- ==== Sys2Proof/Machine/Arith.lean ====
section
/-! DEFINITION. Arithmetic and logic instructions (R120 to R135 of spec/41_arithmetic_logic.md). None accesses memory; none
faults; DF never changes. -/

namespace Sys2Proof.Machine

/-- Write an arithmetic result to Rn and its five flags to ST (R29). -/
def arith (n : Reg) (o : AluOut) (s : State) : Host.Outcome State Fault Refusal :=
  finish (.ok ((s.setReg n o.r).setSt (s.st.arith o)))

/-- Write a logic result to Rn and ZF, SF to ST (R130). -/
def logic (n : Reg) (r : Word) (s : State) : Host.Outcome State Fault Refusal :=
  finish (.ok ((s.setReg n r).setSt (s.st.logic r)))

/-- ADD Rx,Ry: `AddC(x[x], x[y], 0)` (R122). -/
def execAdd (x y : Reg) (s : State) : Host.Outcome State Fault Refusal :=
  arith x (addC (s.reg x) (s.reg y) false) s

/-- SUB Rx,Ry: `AddC(x[x], ~x[y], 1)` (R123). -/
def execSub (x y : Reg) (s : State) : Host.Outcome State Fault Refusal :=
  arith x (subC (s.reg x) (s.reg y)) s

/-- ADDC Rx,Ry: `AddC(x[x], x[y], ST.CF)` (R124). -/
def execAddc (x y : Reg) (s : State) : Host.Outcome State Fault Refusal :=
  arith x (addC (s.reg x) (s.reg y) s.st.cf) s

/-- SUBC Rx,Ry in the mode of `SUBC_MODE` (R125; log entry 5). -/
def execSubc (x y : Reg) (s : State) : Host.Outcome State Fault Refusal :=
  arith x (subK (s.reg x) (s.reg y) (subcTerm s.config.subcMode s.st.cf)) s

/-- CPL Rn: `AddC(0, ~x[n], 1)`, that is `0 - x[n]` (R126). -/
def execCpl (n : Reg) (s : State) : Host.Outcome State Fault Refusal :=
  arith n (subC 0 (s.reg n)) s

/-- INC Rn,Imm32: `AddC(x[n], imm32, 0)` (R127). -/
def execInc (n : Reg) (imm : Word) (s : State) : Host.Outcome State Fault Refusal :=
  arith n (addC (s.reg n) imm false) s

/-- DEC Rn,Imm32: `AddC(x[n], ~imm32, 1)` (R128). -/
def execDec (n : Reg) (imm : Word) (s : State) : Host.Outcome State Fault Refusal :=
  arith n (subC (s.reg n) imm) s

/-- CMP Rx,Ry: the flags of SUB, no result (R129). -/
def execCmp (x y : Reg) (s : State) : Host.Outcome State Fault Refusal :=
  finish (.ok (s.setSt (s.st.arith (subC (s.reg x) (s.reg y)))))

/-- INV Rn: the one's complement (R131). -/
def execInv (n : Reg) (s : State) : Host.Outcome State Fault Refusal :=
  logic n (~~~(s.reg n)) s

/-- AND Rx,Ry (R132). -/
def execAnd (x y : Reg) (s : State) : Host.Outcome State Fault Refusal :=
  logic x (s.reg x &&& s.reg y) s

/-- OR Rx,Ry (R133). -/
def execOr (x y : Reg) (s : State) : Host.Outcome State Fault Refusal :=
  logic x (s.reg x ||| s.reg y) s

/-- XOR Rx,Ry (R134). -/
def execXor (x y : Reg) (s : State) : Host.Outcome State Fault Refusal :=
  logic x (s.reg x ^^^ s.reg y) s

end Sys2Proof.Machine
end

