-- ==== Sys2Proof/Machine/Bit.lean ====
section
/-! DEFINITION. Bit instructions (R210 to R218 of spec/45_bit.md). Only BIT and BITR write a flag, and only ZF (R210). -/

namespace Sys2Proof.Machine

/-- `1 << k` for a bit number of a register. -/
def bitMask (k : Nat) : Word := (1 : Word) <<< k

/-- `v` with bit `k` set to `b`: `(v & ~(1 << k)) | (b << k)` (R212, R213, R217). -/
def withBit (v : Word) (k : Nat) (b : Bool) : Word :=
  if b then v ||| bitMask k else v &&& ~~~(bitMask k)

/-- The bit number of the second operand, read before Rn is written; "if k > 31 the instruction `raise
Fault(BitIndexRange, k)` and changes nothing" (R210). -/
def onBit (k : NumOperand) (s : State) (body : Nat → State) : Host.Outcome State Fault Refusal :=
  if 31 < s.bitNumber k then finish (.error (.bitIndexRange (s.bitNumber k)))
  else finish (.ok (body (s.bitNumber k)))

/-- Test a bit: ZF is its inverse, Rn is not changed (R211). -/
def testBit (n : Reg) (k : NumOperand) (s : State) : Host.Outcome State Fault Refusal :=
  onBit k s fun i => s.setSt (s.st.bitTest ((s.reg n).getLsbD i))

/-- Set a bit (R212). -/
def setBit (n : Reg) (k : NumOperand) (s : State) : Host.Outcome State Fault Refusal :=
  onBit k s fun i => s.setReg n (withBit (s.reg n) i true)

/-- Clear a bit (R213). -/
def clearBit (n : Reg) (k : NumOperand) (s : State) : Host.Outcome State Fault Refusal :=
  onBit k s fun i => s.setReg n (withBit (s.reg n) i false)

/-- Copy the inverted ZF to a bit (R217). -/
def copyInvertedZf (n : Reg) (k : NumOperand) (s : State) : Host.Outcome State Fault Refusal :=
  onBit k s fun i => s.setReg n (withBit (s.reg n) i (!s.st.zf))

/-- BIT Rn,Imm8: `ST.ZF <- NOT x[n][k]` (R211). -/
def execBit (n : Reg) (k : Byte) (s : State) : Host.Outcome State Fault Refusal :=
  testBit n (.imm k) s

/-- SET Rn,Imm8 (R212). -/
def execSet (n : Reg) (k : Byte) (s : State) : Host.Outcome State Fault Refusal :=
  setBit n (.imm k) s

/-- CLR Rn,Imm8 (R213). -/
def execClr (n : Reg) (k : Byte) (s : State) : Host.Outcome State Fault Refusal :=
  clearBit n (.imm k) s

/-- BITR Rn,Rs (R214). -/
def execBitr (n r : Reg) (s : State) : Host.Outcome State Fault Refusal :=
  testBit n (.reg r) s

/-- SETR Rn,Rs (R215). -/
def execSetr (n r : Reg) (s : State) : Host.Outcome State Fault Refusal :=
  setBit n (.reg r) s

/-- CLRR Rn,Rs (R216). -/
def execClrr (n r : Reg) (s : State) : Host.Outcome State Fault Refusal :=
  clearBit n (.reg r) s

/-- BZF Rn,Imm8 (R217). -/
def execBzf (n : Reg) (k : Byte) (s : State) : Host.Outcome State Fault Refusal :=
  copyInvertedZf n (.imm k) s

/-- BZFR Rn,Rs (R218). -/
def execBzfr (n r : Reg) (s : State) : Host.Outcome State Fault Refusal :=
  copyInvertedZf n (.reg r) s

end Sys2Proof.Machine
end

