-- ==== Sys2Proof/Machine/Branch.lean ====
section
/-! DEFINITION. Conditional jumps (R180 to R203 of spec/44_conditional_branches.md). -/

namespace Sys2Proof.Machine

/-- `if cond then pc <- imm32`, otherwise PC = next_pc; nothing else changes, and a bad target faults at the next fetch
only (R180, R175). -/
def condJump (cond : Cond) (daddr : Word) (s : State) : Host.Outcome State Fault Refusal :=
  if cond.holds s.config.jppJpnSense s.st then finishAt daddr (.ok s) else finish (.ok s)

/-- JPZ Daddr: ZF = 1 (R181). -/
def execJpz (daddr : Word) (s : State) : Host.Outcome State Fault Refusal :=
  condJump .z daddr s

/-- JPE, the alias of JPZ (R181, R82). -/
def execJpe (daddr : Word) (s : State) : Host.Outcome State Fault Refusal :=
  condJump .z daddr s

/-- JPNZ Daddr: ZF = 0 (R182). -/
def execJpnz (daddr : Word) (s : State) : Host.Outcome State Fault Refusal :=
  condJump .nz daddr s

/-- JPNE, the alias of JPNZ (R182, R82). -/
def execJpne (daddr : Word) (s : State) : Host.Outcome State Fault Refusal :=
  condJump .nz daddr s

/-- JPC Daddr: CF = 1 (R183). -/
def execJpc (daddr : Word) (s : State) : Host.Outcome State Fault Refusal :=
  condJump .c daddr s

/-- JPNC Daddr: CF = 0 (R184). -/
def execJpnc (daddr : Word) (s : State) : Host.Outcome State Fault Refusal :=
  condJump .nc daddr s

/-- JPO Daddr: OF = 1 (R185). -/
def execJpo (daddr : Word) (s : State) : Host.Outcome State Fault Refusal :=
  condJump .o daddr s

/-- JPNO Daddr: OF = 0 (R186). -/
def execJpno (daddr : Word) (s : State) : Host.Outcome State Fault Refusal :=
  condJump .no daddr s

/-- JPP Daddr: SF = 1 by the condition column, SF = 0 by the name, as `JPP_JPN_SENSE` says (R187; log entry 6). -/
def execJpp (daddr : Word) (s : State) : Host.Outcome State Fault Refusal :=
  condJump .p daddr s

/-- JPN Daddr: SF = 0 by the condition column, SF = 1 by the name (R188; log entry 6). -/
def execJpn (daddr : Word) (s : State) : Host.Outcome State Fault Refusal :=
  condJump .n daddr s

/-- JPBC Daddr: BF = 1 (R189). -/
def execJpbc (daddr : Word) (s : State) : Host.Outcome State Fault Refusal :=
  condJump .bc daddr s

/-- JPNBC Daddr: BF = 0 (R190). -/
def execJpnbc (daddr : Word) (s : State) : Host.Outcome State Fault Refusal :=
  condJump .nbc daddr s

/-- JPD Daddr: DF = 1 (R191). -/
def execJpd (daddr : Word) (s : State) : Host.Outcome State Fault Refusal :=
  condJump .d daddr s

/-- JPND Daddr: DF = 0 (R192). -/
def execJpnd (daddr : Word) (s : State) : Host.Outcome State Fault Refusal :=
  condJump .nd daddr s

/-- JPB Daddr: ZF = 0 and CF = 0 (R193). -/
def execJpb (daddr : Word) (s : State) : Host.Outcome State Fault Refusal :=
  condJump .b daddr s

/-- JPA Daddr: ZF = 0 and CF = 1 (R194). -/
def execJpa (daddr : Word) (s : State) : Host.Outcome State Fault Refusal :=
  condJump .a daddr s

/-- JPBE Daddr: ZF = 1 or CF = 0 (R195). -/
def execJpbe (daddr : Word) (s : State) : Host.Outcome State Fault Refusal :=
  condJump .be daddr s

/-- JPAE Daddr: ZF = 1 or CF = 1 (R196). -/
def execJpae (daddr : Word) (s : State) : Host.Outcome State Fault Refusal :=
  condJump .ae daddr s

/-- JPL Daddr: OF xor SF = 1 (R197). -/
def execJpl (daddr : Word) (s : State) : Host.Outcome State Fault Refusal :=
  condJump .l daddr s

/-- JPG Daddr: OF xor SF = 0, also on equality (R198, conflict C2). -/
def execJpg (daddr : Word) (s : State) : Host.Outcome State Fault Refusal :=
  condJump .g daddr s

/-- JPNG Daddr: ZF or (OF xor SF) = 1 (R199). -/
def execJpng (daddr : Word) (s : State) : Host.Outcome State Fault Refusal :=
  condJump .ng daddr s

/-- JPLE, the alias of JPNG (R199, R82). -/
def execJple (daddr : Word) (s : State) : Host.Outcome State Fault Refusal :=
  condJump .ng daddr s

/-- JPNL Daddr: ZF = 1 or (OF xor SF) = 0 (R200). -/
def execJpnl (daddr : Word) (s : State) : Host.Outcome State Fault Refusal :=
  condJump .nl daddr s

/-- JPGE, the alias of JPNL (R200, R82). -/
def execJpge (daddr : Word) (s : State) : Host.Outcome State Fault Refusal :=
  condJump .nl daddr s

end Sys2Proof.Machine
end

