-- ==== Sys2Proof/Machine/Control.lean ====
section
/-! DEFINITION. General program control (R160 to R175 of spec/43_program_control.md): the stack, calls and jumps, NOP and HALT.
No flag changes, but for POPSTA and POPA, which load all six (R160). -/

namespace Sys2Proof.Machine

/-- The addresses of PUSHA in access order, S - 4 down to S - 28, modulo 2^32 (R165, R68). -/
def pushAddrs (sp : Word) : List Word :=
  [sp - 4, sp - 8, sp - 12, sp - 16, sp - 20, sp - 24, sp - 28]

/-- The addresses of POPA in access order, S up to S + 24, modulo 2^32 (R166, R68). -/
def popAddrs (sp : Word) : List Word :=
  [sp, sp + 4, sp + 8, sp + 12, sp + 16, sp + 20, sp + 24]

/-- The seven writes of PUSHA, whose addresses have been checked: ST first, then R6 down to R1 (R165). -/
def State.storeAll (s : State) : State :=
  let m0 := s.mem.setWord (s.sp - 4).toNat s.st.toWord
  let m1 := m0.setWord (s.sp - 8).toNat (s.reg .r6)
  let m2 := m1.setWord (s.sp - 12).toNat (s.reg .r5)
  let m3 := m2.setWord (s.sp - 16).toNat (s.reg .r4)
  let m4 := m3.setWord (s.sp - 20).toNat (s.reg .r3)
  let m5 := m4.setWord (s.sp - 24).toNat (s.reg .r2)
  { s with mem := m5.setWord (s.sp - 28).toNat (s.reg .r1) }

/-- The seven reads of POPA, whose addresses have been checked: R1 up to R6, then ST through its mask (R166, R27). -/
def State.loadAll (s : State) : Except Fault State := do
  let v1 ← s.fetchWord s.sp
  let v2 ← s.fetchWord (s.sp + 4)
  let v3 ← s.fetchWord (s.sp + 8)
  let v4 ← s.fetchWord (s.sp + 12)
  let v5 ← s.fetchWord (s.sp + 16)
  let v6 ← s.fetchWord (s.sp + 20)
  let vs ← s.fetchWord (s.sp + 24)
  return { s with
    regs := { r1 := v1, r2 := v2, r3 := v3, r4 := v4, r5 := v5, r6 := v6 }
    st := Flags.ofWord vs }

/-- PUSH Rn (R161). -/
def execPush (n : Reg) (s : State) : Host.Outcome State Fault Refusal :=
  finish (s.push (s.reg n))

/-- POP Rn (R162). -/
def execPop (n : Reg) (s : State) : Host.Outcome State Fault Refusal :=
  match s.pop with
  | .ok (v, t) => finish (.ok (t.setReg n v))
  | .error f => finish (.error f)

/-- PUSHSTA: the word pushed is ST zero-extended (R163). -/
def execPushsta (s : State) : Host.Outcome State Fault Refusal :=
  finish (s.push s.st.toWord)

/-- POPSTA: all six flags from bits 5..0 of the popped word (R164). -/
def execPopsta (s : State) : Host.Outcome State Fault Refusal :=
  match s.pop with
  | .ok (v, t) => finish (.ok (t.setSt (Flags.ofWord v)))
  | .error f => finish (.error f)

/-- PUSHA: ST, R6, R5, ..., R1; all checks before the first write (R165). -/
def execPusha (s : State) : Host.Outcome State Fault Refusal :=
  match firstFault s.config (pushAddrs s.sp) with
  | some f => finish (.error f)
  | none => finish (.ok (s.storeAll.setSp (s.sp - 28)))

/-- POPA: R1, R2, ..., R6, ST; all checks before the first register write (R166; log entry 19). -/
def execPopa (s : State) : Host.Outcome State Fault Refusal :=
  match firstFault s.config (popAddrs s.sp) with
  | some f => finish (.error f)
  | none =>
    match s.loadAll with
    | .ok t => finish (.ok (t.setSp (s.sp + 28)))
    | .error f => finish (.error f)

/-- CALL Daddr: push `next_pc`, then jump (R167). -/
def execCall (daddr : Word) (s : State) : Host.Outcome State Fault Refusal :=
  finishAt daddr (s.push s.nextPc)

/-- SBRA Ra: push `next_pc`, then jump to the content of Ra, read before the push (R168). -/
def execSbra (a : Reg) (s : State) : Host.Outcome State Fault Refusal :=
  finishAt (s.reg a) (s.push s.nextPc)

/-- RET: pop PC and nothing else (R169, R246). -/
def execRet (s : State) : Host.Outcome State Fault Refusal :=
  match s.pop with
  | .ok (target, t) => finishAt target (.ok t)
  | .error f => finish (.error f)

/-- JMP Daddr (R170). -/
def execJmp (daddr : Word) (s : State) : Host.Outcome State Fault Refusal :=
  finishAt daddr (.ok s)

/-- BRA Ra (R171). -/
def execBra (a : Reg) (s : State) : Host.Outcome State Fault Refusal :=
  finishAt (s.reg a) (.ok s)

/-- NOP: "keine Wirkung" (R172). -/
def execNop (s : State) : Host.Outcome State Fault Refusal :=
  finish (.ok s)

/-- HALT Message: display the text, run state Halted, PC = next_pc (R173). -/
def execHalt (message : Word) (s : State) : Host.Outcome State Fault Refusal :=
  finish (.ok ((s.displayed (.halt (s.message message))).setRun .halted))

end Sys2Proof.Machine
end

