-- ==== Sys2Proof/Machine/Debug.lean ====
section
/-! DEFINITION. Debugging (R230 to R232 of spec/47_debug.md). No register, flag or memory byte changes. -/

namespace Sys2Proof.Machine

/-- Display a checkpoint's text and run on (R230). -/
def checkpointAt (message : Word) (s : State) : Host.Outcome State Fault Refusal :=
  finish (.ok (s.displayed (.checkpoint (s.message message))))

/-- Display `pc`, stop in BreakStopped with PC = next_pc (R231; log entry 17). -/
def breakAt (s : State) : Host.Outcome State Fault Refusal :=
  finish (.ok ((s.displayed (.breakpoint s.pc)).setRun .breakStopped))

/-- CHECKPOINT Message (R230). -/
def execCheckpoint (message : Word) (s : State) : Host.Outcome State Fault Refusal :=
  checkpointAt message s

/-- CHK Message, the alias of CHECKPOINT (R230, R82). -/
def execChk (message : Word) (s : State) : Host.Outcome State Fault Refusal :=
  checkpointAt message s

/-- BREAKPOINT (R231). -/
def execBreakpoint (s : State) : Host.Outcome State Fault Refusal :=
  breakAt s

/-- BRK, the alias of BREAKPOINT (R231, R82). -/
def execBrk (s : State) : Host.Outcome State Fault Refusal :=
  breakAt s

/-- PRAGMA Message (R232): the spec refuses it with `Fault(Refused, pc)`; under the premise "PRAGMA has no effect on
the architectural state" it displays its text and runs on (log entry 18). -/
def execPragma (message : Word) (s : State) : Host.Outcome State Fault Refusal :=
  match s.config.pragma with
  | .refuse => finish (.error (.refused s.pc))
  | .noEffect => finish (.ok (s.displayed (.pragma (s.message message))))

end Sys2Proof.Machine
end

