-- ==== Sys2Proof/Machine/Io.lean ====
section
/-! DEFINITION. Input and output (R220 to R223 of spec/46_io.md). No flag changes; no port address faults. -/

namespace Sys2Proof.Machine

/-- OUT Rn,Imm32: `PortWrite(imm32, x[n])` (R221). -/
def execOut (n : Reg) (port : Word) (s : State) : Host.Outcome State Fault Refusal :=
  finish (.ok (s.portWrite port (s.reg n)))

/-- IN Rn,Imm32: `x[n] <- PortRead(imm32)`, whatever the environment answers (R222; log entry 14). -/
def execIn (n : Reg) (port : Word) (s : State) : Host.Outcome State Fault Refusal :=
  finish (.ok ((s.portRead port).setReg n (s.portAnswer port)))

end Sys2Proof.Machine
end

