-- ==== Sys2Proof/Machine/Shifter.lean ====
section
/-! DEFINITION. Shifts and rotates: the one-bit steps and their repetition (R140 of spec/42_shift_rotate.md), and the closed
forms for every count (R142 to R145, R150) that the instructions use. -/

namespace Sys2Proof.Machine

/-- The five kinds of R140. -/
inductive ShiftKind where
  | shl | shr | sra | rotl | rotr
  deriving DecidableEq, Repr

/-- A shifted value, and the bit shifted out last where one was. -/
structure ShiftOut where
  r : Word
  out : Option Bool
  deriving DecidableEq, Repr

/-- The one-bit step of each kind: the value and the bit shifted out (R140). -/
def oneBit : ShiftKind → Word → Word × Bool
  | .shl, v => (v <<< 1, v.getLsbD 31)
  | .shr, v => (v >>> 1, v.getLsbD 0)
  | .sra, v => ((v >>> 1) ||| (v &&& 0x80000000), v.getLsbD 0)
  | .rotl, v => ((v <<< 1) ||| (v >>> 31), v.getLsbD 31)
  | .rotr, v => ((v >>> 1) ||| (v <<< 31), v.getLsbD 0)

/-- "Every shift or rotate by a count c is c repetitions of the one-bit step of its kind" (R140). -/
def repeated (k : ShiftKind) (v : Word) : Nat → ShiftOut
  | 0 => { r := v, out := none }
  | c + 1 =>
    let w := oneBit k (repeated k v c).r
    { r := w.1, out := some w.2 }

/-- SHL and SHLR (R142, R146). -/
def shiftLeft (v : Word) (c : Nat) : ShiftOut :=
  if c = 0 then { r := v, out := none }
  else if c ≤ 31 then { r := v <<< c, out := some (v.getLsbD (32 - c)) }
  else if c = 32 then { r := 0, out := some (v.getLsbD 0) }
  else { r := 0, out := some false }

/-- SHR and SHRR (R143, R147). -/
def shiftRight (v : Word) (c : Nat) : ShiftOut :=
  if c = 0 then { r := v, out := none }
  else if c ≤ 31 then { r := v >>> c, out := some (v.getLsbD (c - 1)) }
  else if c = 32 then { r := 0, out := some (v.getLsbD 31) }
  else { r := 0, out := some false }

/-- SRA and SRAR (R150, R151). -/
def shiftRightArith (v : Word) (c : Nat) : ShiftOut :=
  if c = 0 then { r := v, out := none }
  else if c ≤ 31 then { r := v.sshiftRight c, out := some (v.getLsbD (c - 1)) }
  else { r := if v.getLsbD 31 then 0xFFFFFFFF else 0, out := some (v.getLsbD 31) }

/-- The left rotation of R144 by `m` in 0..31. -/
def rotatedLeft (v : Word) (m : Nat) : Word := if m = 0 then v else (v <<< m) ||| (v >>> (32 - m))

/-- The right rotation of R145 by `m` in 0..31. -/
def rotatedRight (v : Word) (m : Nat) : Word := if m = 0 then v else (v >>> m) ||| (v <<< (32 - m))

/-- ROTL and ROTLR (R144, R148): the bit that last moved is bit 0 of the result. -/
def rotateLeft (v : Word) (c : Nat) : ShiftOut :=
  if c = 0 then { r := v, out := none }
  else { r := rotatedLeft v (c % 32), out := some ((rotatedLeft v (c % 32)).getLsbD 0) }

/-- ROTR and ROTRR (R145, R149): the bit that last moved is bit 31 of the result. -/
def rotateRight (v : Word) (c : Nat) : ShiftOut :=
  if c = 0 then { r := v, out := none }
  else { r := rotatedRight v (c % 32), out := some ((rotatedRight v (c % 32)).getLsbD 31) }

/-- The closed form of each kind. -/
def shifted : ShiftKind → Word → Nat → ShiftOut
  | .shl => shiftLeft
  | .shr => shiftRight
  | .sra => shiftRightArith
  | .rotl => rotateLeft
  | .rotr => rotateRight

/-- RTLX: the 33-bit rotation of CF ++ Rn left by one; the result and the bit that goes to CF (R152). -/
def rotateLeftThrough (v : Word) (cf : Bool) : Word × Bool :=
  ((v <<< 1) ||| (BitVec.ofBool cf).setWidth 32, v.getLsbD 31)

/-- RTRX: the 33-bit rotation of CF ++ Rn right by one; the result and the bit that goes to CF (R153). -/
def rotateRightThrough (v : Word) (cf : Bool) : Word × Bool :=
  ((v >>> 1) ||| ((BitVec.ofBool cf).setWidth 32 <<< 31), v.getLsbD 0)

end Sys2Proof.Machine
end

