-- ==== Sys2Proof/Machine/Shift.lean ====
section
/-! DEFINITION. Shift and rotate instructions (R140 to R153 of spec/42_shift_rotate.md). None accesses memory; none faults:
every count is defined. -/

namespace Sys2Proof.Machine

/-- Shift or rotate Rn by the count of the second operand; ZF and SF from the result, CF the bit shifted out last,
unchanged where the count is 0 (R140, R141). -/
def shiftBy (k : ShiftKind) (n : Reg) (c : NumOperand) (s : State) : Host.Outcome State Fault Refusal :=
  let o := shifted k (s.reg n) (s.shiftCount c)
  finish (.ok ((s.setReg n o.r).setSt (s.st.shift o.r o.out)))

/-- A rotation through CF by one: the result to Rn, the bit rotated out to CF, ZF and SF from the result (R152, R153). -/
def rotateThrough (n : Reg) (o : Word × Bool) (s : State) : Host.Outcome State Fault Refusal :=
  finish (.ok ((s.setReg n o.1).setSt (s.st.shift o.1 (some o.2))))

/-- SHL Rn,Imm8 (R142). -/
def execShl (n : Reg) (count : Byte) (s : State) : Host.Outcome State Fault Refusal :=
  shiftBy .shl n (.imm count) s

/-- SHR Rn,Imm8 (R143). -/
def execShr (n : Reg) (count : Byte) (s : State) : Host.Outcome State Fault Refusal :=
  shiftBy .shr n (.imm count) s

/-- ROTL Rn,Imm8 (R144). -/
def execRotl (n : Reg) (count : Byte) (s : State) : Host.Outcome State Fault Refusal :=
  shiftBy .rotl n (.imm count) s

/-- ROTR Rn,Imm8 (R145). -/
def execRotr (n : Reg) (count : Byte) (s : State) : Host.Outcome State Fault Refusal :=
  shiftBy .rotr n (.imm count) s

/-- SHLR Rn,Rc: SHL with the count of Rc, read before Rn is written (R146). -/
def execShlr (n c : Reg) (s : State) : Host.Outcome State Fault Refusal :=
  shiftBy .shl n (.reg c) s

/-- SHRR Rn,Rc (R147). -/
def execShrr (n c : Reg) (s : State) : Host.Outcome State Fault Refusal :=
  shiftBy .shr n (.reg c) s

/-- ROTLR Rn,Rc (R148). -/
def execRotlr (n c : Reg) (s : State) : Host.Outcome State Fault Refusal :=
  shiftBy .rotl n (.reg c) s

/-- ROTRR Rn,Rc (R149). -/
def execRotrr (n c : Reg) (s : State) : Host.Outcome State Fault Refusal :=
  shiftBy .rotr n (.reg c) s

/-- SRA Rn,Imm8 (R150). -/
def execSra (n : Reg) (count : Byte) (s : State) : Host.Outcome State Fault Refusal :=
  shiftBy .sra n (.imm count) s

/-- SRAR Rn,Rc (R151). -/
def execSrar (n c : Reg) (s : State) : Host.Outcome State Fault Refusal :=
  shiftBy .sra n (.reg c) s

/-- RTLX Rn (R152). -/
def execRtlx (n : Reg) (s : State) : Host.Outcome State Fault Refusal :=
  rotateThrough n (rotateLeftThrough (s.reg n) s.st.cf) s

/-- RTRX Rn (R153). -/
def execRtrx (n : Reg) (s : State) : Host.Outcome State Fault Refusal :=
  rotateThrough n (rotateRightThrough (s.reg n) s.st.cf) s

end Sys2Proof.Machine
end

