-- ==== Sys2Proof/Machine/Transport.lean ====
section
/-! DEFINITION. Transport instructions (R110 to R118 of spec/40_transport.md). No flag changes, but for STSR Rn,ST (R118,
conflict C4). A meaning is given the state before the instruction: `s.pc` is the instruction's own address. -/

namespace Sys2Proof.Machine

/-- `x[n] <- MemRead(addr, 4)` for both addressing modes (R111, R112). -/
def load (n : Reg) (m : MemOperand) (s : State) : Host.Outcome State Fault Refusal :=
  match s.memRead (s.effAddr m) with
  | .ok v => finish (.ok (s.setReg n v))
  | .error f => finish (.error f)

/-- `MemWrite(addr, 4, x[n])` for both addressing modes (R113, R114). -/
def store (n : Reg) (m : MemOperand) (s : State) : Host.Outcome State Fault Refusal :=
  finish (s.memWrite (s.effAddr m) (s.reg n))

/-- LDI Rn,Imm32: `x[n] <- imm32` (R110). -/
def execLdi (n : Reg) (imm : Word) (s : State) : Host.Outcome State Fault Refusal :=
  finish (.ok (s.setReg n imm))

/-- LD Rn,Daddr (R111). -/
def execLd (n : Reg) (daddr : Word) (s : State) : Host.Outcome State Fault Refusal :=
  load n (.absolute daddr) s

/-- LDR Rn,Ra: the address is read before Rn is written (R112). -/
def execLdr (n a : Reg) (s : State) : Host.Outcome State Fault Refusal :=
  load n (.indirect a) s

/-- ST Rn,Daddr (R113). -/
def execSt (n : Reg) (daddr : Word) (s : State) : Host.Outcome State Fault Refusal :=
  store n (.absolute daddr) s

/-- STR Rn,Ra (R114). -/
def execStr (n a : Reg) (s : State) : Host.Outcome State Fault Refusal :=
  store n (.indirect a) s

/-- MOV Rd,Rs: `x[d] <- x[s]` (R115). -/
def execMov (d r : Reg) (s : State) : Host.Outcome State Fault Refusal :=
  finish (.ok (s.setReg d (s.reg r)))

/-- LDSR Rn,SR (R116). -/
def execLdsr (n : Reg) (sr : SR) (s : State) : Host.Outcome State Fault Refusal :=
  finish (.ok (s.setReg n (s.readSR sr)))

/-- STSR Rn,SR: to PC it is a jump; to ST only bits 5..0 are taken (R117). -/
def execStsr (n : Reg) (sr : SR) (s : State) : Host.Outcome State Fault Refusal :=
  match sr with
  | .pc => finishAt (s.reg n) (.ok s)
  | .sp => finish (.ok (s.setSp (s.reg n)))
  | .st => finish (.ok (s.setSt (Flags.ofWord (s.reg n))))

end Sys2Proof.Machine
end

