-- ==== Sys2Proof/Machine/Dispatch.lean ====
section
/-! DEFINITION. The dispatch: one arm for each constructor of Instr. -/

namespace Sys2Proof.Machine

/-- The meaning of an instruction, given the state before it: `s.pc` is the instruction's own address (R25). -/
def exec (i : Instr) (s : State) : Host.Outcome State Fault Refusal :=
  match i with
  | .ldi n v => Sys2Proof.Machine.execLdi n v s
  | .ld n v => Sys2Proof.Machine.execLd n v s
  | .ldr a b => Sys2Proof.Machine.execLdr a b s
  | .st n v => Sys2Proof.Machine.execSt n v s
  | .str a b => Sys2Proof.Machine.execStr a b s
  | .mov a b => Sys2Proof.Machine.execMov a b s
  | .ldsr n sr => Sys2Proof.Machine.execLdsr n sr s
  | .stsr n sr => Sys2Proof.Machine.execStsr n sr s
  | .add a b => Sys2Proof.Machine.execAdd a b s
  | .sub a b => Sys2Proof.Machine.execSub a b s
  | .addc a b => Sys2Proof.Machine.execAddc a b s
  | .subc a b => Sys2Proof.Machine.execSubc a b s
  | .cpl n => Sys2Proof.Machine.execCpl n s
  | .inc n v => Sys2Proof.Machine.execInc n v s
  | .dec n v => Sys2Proof.Machine.execDec n v s
  | .cmp a b => Sys2Proof.Machine.execCmp a b s
  | .inv n => Sys2Proof.Machine.execInv n s
  | .and a b => Sys2Proof.Machine.execAnd a b s
  | .or a b => Sys2Proof.Machine.execOr a b s
  | .xor a b => Sys2Proof.Machine.execXor a b s
  | .shl n k => Sys2Proof.Machine.execShl n k s
  | .shr n k => Sys2Proof.Machine.execShr n k s
  | .rotl n k => Sys2Proof.Machine.execRotl n k s
  | .rotr n k => Sys2Proof.Machine.execRotr n k s
  | .shlr a b => Sys2Proof.Machine.execShlr a b s
  | .shrr a b => Sys2Proof.Machine.execShrr a b s
  | .rotlr a b => Sys2Proof.Machine.execRotlr a b s
  | .rotrr a b => Sys2Proof.Machine.execRotrr a b s
  | .sra n k => Sys2Proof.Machine.execSra n k s
  | .srar a b => Sys2Proof.Machine.execSrar a b s
  | .rtlx n => Sys2Proof.Machine.execRtlx n s
  | .rtrx n => Sys2Proof.Machine.execRtrx n s
  | .push n => Sys2Proof.Machine.execPush n s
  | .pop n => Sys2Proof.Machine.execPop n s
  | .pushsta => Sys2Proof.Machine.execPushsta s
  | .popsta => Sys2Proof.Machine.execPopsta s
  | .pusha => Sys2Proof.Machine.execPusha s
  | .popa => Sys2Proof.Machine.execPopa s
  | .call d => Sys2Proof.Machine.execCall d s
  | .sbra n => Sys2Proof.Machine.execSbra n s
  | .ret => Sys2Proof.Machine.execRet s
  | .jmp d => Sys2Proof.Machine.execJmp d s
  | .bra n => Sys2Proof.Machine.execBra n s
  | .nop => Sys2Proof.Machine.execNop s
  | .halt m => Sys2Proof.Machine.execHalt m s
  | .jpz d => Sys2Proof.Machine.execJpz d s
  | .jpe d => Sys2Proof.Machine.execJpe d s
  | .jpnz d => Sys2Proof.Machine.execJpnz d s
  | .jpne d => Sys2Proof.Machine.execJpne d s
  | .jpc d => Sys2Proof.Machine.execJpc d s
  | .jpnc d => Sys2Proof.Machine.execJpnc d s
  | .jpo d => Sys2Proof.Machine.execJpo d s
  | .jpno d => Sys2Proof.Machine.execJpno d s
  | .jpp d => Sys2Proof.Machine.execJpp d s
  | .jpn d => Sys2Proof.Machine.execJpn d s
  | .jpbc d => Sys2Proof.Machine.execJpbc d s
  | .jpnbc d => Sys2Proof.Machine.execJpnbc d s
  | .jpd d => Sys2Proof.Machine.execJpd d s
  | .jpnd d => Sys2Proof.Machine.execJpnd d s
  | .jpb d => Sys2Proof.Machine.execJpb d s
  | .jpa d => Sys2Proof.Machine.execJpa d s
  | .jpbe d => Sys2Proof.Machine.execJpbe d s
  | .jpae d => Sys2Proof.Machine.execJpae d s
  | .jpl d => Sys2Proof.Machine.execJpl d s
  | .jpg d => Sys2Proof.Machine.execJpg d s
  | .jpng d => Sys2Proof.Machine.execJpng d s
  | .jple d => Sys2Proof.Machine.execJple d s
  | .jpnl d => Sys2Proof.Machine.execJpnl d s
  | .jpge d => Sys2Proof.Machine.execJpge d s
  | .bit n k => Sys2Proof.Machine.execBit n k s
  | .set n k => Sys2Proof.Machine.execSet n k s
  | .clr n k => Sys2Proof.Machine.execClr n k s
  | .bitr a b => Sys2Proof.Machine.execBitr a b s
  | .setr a b => Sys2Proof.Machine.execSetr a b s
  | .clrr a b => Sys2Proof.Machine.execClrr a b s
  | .bzf n k => Sys2Proof.Machine.execBzf n k s
  | .bzfr a b => Sys2Proof.Machine.execBzfr a b s
  | .out n v => Sys2Proof.Machine.execOut n v s
  | .inp n v => Sys2Proof.Machine.execIn n v s
  | .checkpoint m => Sys2Proof.Machine.execCheckpoint m s
  | .chk m => Sys2Proof.Machine.execChk m s
  | .breakpoint => Sys2Proof.Machine.execBreakpoint s
  | .brk => Sys2Proof.Machine.execBrk s
  | .pragma m => Sys2Proof.Machine.execPragma m s

end Sys2Proof.Machine
end

