-- ==== Sys2Proof/WellFormed.lean ====
section
/-! DEFINITION. Well-formedness: which statements are spelled with their primary mnemonic (R82), and which 64-bit
words are instructions at all, by the masks and ranges of R87 and R91 (spec/30_encoding.md), written apart from
the decoder. -/

namespace Sys2Proof

/-! ## Statements -/

/-- An alias is a second name of another mnemonic, "the same instruction" (R82); every other statement is its own
primary form. -/
def Instr.canonical : Instr → Instr
  | .jpe d => .jpz d
  | .jpne d => .jpnz d
  | .jple d => .jpng d
  | .jpge d => .jpnl d
  | .chk m => .checkpoint m
  | .brk => .breakpoint
  | i => i

/-- A statement spelled with its primary mnemonic: what decoding can answer. The operands need no check: a register
operand is one of R1..R6, a special register one of PC, SP, ST, by their types (R11, R21). -/
def Instr.wf (i : Instr) : Bool := decide (i.canonical = i)

/-! ## Words (R87, R91) -/

/-- The eight formats of R87. -/
inductive Format where
  | n | r | rr | rs | ri8 | ri32 | i32 | m
  deriving DecidableEq, Repr

/-- The bits of the 64-bit instruction word `W1 ++ W0` that a format fixes (R87). -/
def Format.mask : Format → BitVec 64
  | .n => 0xFFFFFFFFFFFFFFFF
  | .r => 0xFFFFFFFFFFFFF0FF
  | .rr => 0xFFFFFFFFFFFF00FF
  | .rs => 0xFFFFFFFFFFFF00FF
  | .ri8 => 0xFFFFFFFFFF00F0FF
  | .ri32 => 0x00000000FFFFF0FF
  | .i32 => 0x00000000FFFFFFFF
  | .m => 0x00000000FFFFFFFF

/-- The opcode map of R90, by ranges of opcode numbers; `none` for the 178 numbers that are not assigned. -/
def Format.ofOpcode (op : Nat) : Option Format :=
  if op ∈ [0x10, 0x11, 0x13, 0x25, 0x26, 0x80, 0x81] then some .ri32
  else if op ∈ [0x12, 0x14, 0x15, 0x20, 0x21, 0x22, 0x23, 0x27, 0x29, 0x2A, 0x2B] then some .rr
  else if op ∈ [0x34, 0x35, 0x36, 0x37, 0x39, 0x73, 0x74, 0x75, 0x77] then some .rr
  else if op ∈ [0x16, 0x17] then some .rs
  else if op ∈ [0x24, 0x28, 0x3A, 0x3B, 0x40, 0x41, 0x47, 0x4A] then some .r
  else if op ∈ [0x30, 0x31, 0x32, 0x33, 0x38, 0x70, 0x71, 0x72, 0x76] then some .ri8
  else if op ∈ [0x42, 0x43, 0x44, 0x45, 0x48, 0x4B, 0x91] then some .n
  else if op ∈ [0x46, 0x49] ∨ (0x50 ≤ op ∧ op ≤ 0x63) then some .i32
  else if op ∈ [0x4C, 0x90, 0x92] then some .m
  else none

/-- The further constraint of R87 on the register fields `ra` and `rb`. -/
def Format.fieldsOk (f : Format) (ra rb : Nat) : Bool :=
  match f with
  | .n | .i32 | .m => true
  | .r | .ri8 | .ri32 => decide (1 ≤ ra ∧ ra ≤ 6)
  | .rr => decide (1 ≤ ra ∧ ra ≤ 6 ∧ 1 ≤ rb ∧ rb ≤ 6)
  | .rs => decide (1 ≤ ra ∧ ra ≤ 6 ∧ 1 ≤ rb ∧ rb ≤ 3)

/-- `I & mask == match` with `match = op`, and the register ranges: the word is an instruction (R87, R91). -/
def legalWord (word : BitVec 64) : Bool :=
  let op := word.extractLsb' 0 8
  match Format.ofOpcode op.toNat with
  | none => false
  | some f =>
    (word &&& f.mask == op.setWidth 64)
      && f.fieldsOk (word.extractLsb' 8 4).toNat (word.extractLsb' 12 4).toNat

end Sys2Proof
end

