-- ==== Sys2Proof/Decode.lean ====
section
/-! DEFINITION. The reference binary encoding (R84 to R91, R96 of spec/30_encoding.md): a total decoder that rejects
by name, and an encoder. -/

namespace Sys2Proof

/-- Why 64 bits are no instruction (R91); the machine reports each of these as `Fault(IllegalInstruction, pc)`. -/
inductive Illegal where
  /-- `op` is not one of the 78 numbers of R90 -/
  | unassignedOpcode (op : Nat)
  /-- W0[31:24] is not 0 -/
  | reservedByte
  /-- a field that the format does not use is not 0 -/
  | unusedField
  /-- a register field that the format uses is 0 or greater than 6 -/
  | badRegister (field : Nat)
  /-- the selector of LDSR or STSR is 0 or greater than 3 -/
  | badSelector (field : Nat)
  /-- fewer than the eight bytes of an instruction were given to decodeBytes -/
  | tooShort
  deriving DecidableEq, Repr

/-- The fields of an instruction (R85, R86). -/
structure Fields where
  zero : BitVec 8
  imm8 : Byte
  rb : BitVec 4
  ra : BitVec 4
  op : BitVec 8
  imm32 : Word
  deriving DecidableEq, Repr

/-- The fields of W0 and W1 (R85, R86). -/
def fieldsOf (w0 w1 : Word) : Fields where
  zero := w0.extractLsb' 24 8
  imm8 := w0.extractLsb' 16 8
  rb := w0.extractLsb' 12 4
  ra := w0.extractLsb' 8 4
  op := w0.extractLsb' 0 8
  imm32 := w1

/-- "Register Ri is encoded as the number i; the values 0 and 7..15 are not registers" (R85). -/
def regOfField (field : BitVec 4) : Except Illegal Reg :=
  match field.toNat with
  | 1 => .ok .r1
  | 2 => .ok .r2
  | 3 => .ok .r3
  | 4 => .ok .r4
  | 5 => .ok .r5
  | 6 => .ok .r6
  | k => .error (.badRegister k)

/-- The special-register selector: 1 = PC, 2 = SP, 3 = ST (R89). -/
def srOfField (field : BitVec 4) : Except Illegal SR :=
  match field.toNat with
  | 1 => .ok .pc
  | 2 => .ok .sp
  | 3 => .ok .st
  | k => .error (.badSelector k)

/-- The checks R91 makes of every format: the reserved byte, then the fields the format does not use. -/
def Fields.check (f : Fields) (unusedZero : Bool) (answer : Except Illegal Instr) : Except Illegal Instr :=
  if f.zero ≠ 0 then .error .reservedByte
  else if unusedZero = false then .error .unusedField
  else answer

/-! The eight formats (R87): which fields are operands, and which must be 0. -/

/-- Format N: no operand. -/
def Fields.n (f : Fields) (i : Instr) : Except Illegal Instr :=
  f.check (f.imm8 == 0 && f.rb == 0 && f.ra == 0 && f.imm32 == 0) (.ok i)

/-- Format R: one register. -/
def Fields.r (f : Fields) (i : Reg → Instr) : Except Illegal Instr :=
  f.check (f.imm8 == 0 && f.rb == 0 && f.imm32 == 0)
    (match regOfField f.ra with
    | .ok a => .ok (i a)
    | .error e => .error e)

/-- Format RR: two registers. -/
def Fields.rr (f : Fields) (i : Reg → Reg → Instr) : Except Illegal Instr :=
  f.check (f.imm8 == 0 && f.imm32 == 0)
    (match regOfField f.ra with
    | .error e => .error e
    | .ok a =>
      match regOfField f.rb with
      | .ok b => .ok (i a b)
      | .error e => .error e)

/-- Format RS: a register and a special register. -/
def Fields.rs (f : Fields) (i : Reg → SR → Instr) : Except Illegal Instr :=
  f.check (f.imm8 == 0 && f.imm32 == 0)
    (match regOfField f.ra with
    | .error e => .error e
    | .ok a =>
      match srOfField f.rb with
      | .ok b => .ok (i a b)
      | .error e => .error e)

/-- Format RI8: a register and an 8-bit immediate. -/
def Fields.ri8 (f : Fields) (i : Reg → Byte → Instr) : Except Illegal Instr :=
  f.check (f.rb == 0 && f.imm32 == 0)
    (match regOfField f.ra with
    | .ok a => .ok (i a f.imm8)
    | .error e => .error e)

/-- Format RI32: a register and a 32-bit immediate, address or port. -/
def Fields.ri32 (f : Fields) (i : Reg → Word → Instr) : Except Illegal Instr :=
  f.check (f.imm8 == 0 && f.rb == 0)
    (match regOfField f.ra with
    | .ok a => .ok (i a f.imm32)
    | .error e => .error e)

/-- Format I32: an address. -/
def Fields.i32 (f : Fields) (i : Word → Instr) : Except Illegal Instr :=
  f.check (f.imm8 == 0 && f.rb == 0 && f.ra == 0) (.ok (i f.imm32))

/-- Format M: a message id (R86, R94). -/
def Fields.m (f : Fields) (i : Word → Instr) : Except Illegal Instr :=
  f.check (f.imm8 == 0 && f.rb == 0 && f.ra == 0) (.ok (i f.imm32))

/-- The opcode map of R90. -/
def Fields.instr (f : Fields) : Except Illegal Instr :=
  match f.op.toNat with
  | 0x10 => f.ri32 .ldi
  | 0x11 => f.ri32 .ld
  | 0x12 => f.rr .ldr
  | 0x13 => f.ri32 .st
  | 0x14 => f.rr .str
  | 0x15 => f.rr .mov
  | 0x16 => f.rs .ldsr
  | 0x17 => f.rs .stsr
  | 0x20 => f.rr .add
  | 0x21 => f.rr .sub
  | 0x22 => f.rr .addc
  | 0x23 => f.rr .subc
  | 0x24 => f.r .cpl
  | 0x25 => f.ri32 .inc
  | 0x26 => f.ri32 .dec
  | 0x27 => f.rr .cmp
  | 0x28 => f.r .inv
  | 0x29 => f.rr .and
  | 0x2A => f.rr .or
  | 0x2B => f.rr .xor
  | 0x30 => f.ri8 .shl
  | 0x31 => f.ri8 .shr
  | 0x32 => f.ri8 .rotl
  | 0x33 => f.ri8 .rotr
  | 0x34 => f.rr .shlr
  | 0x35 => f.rr .shrr
  | 0x36 => f.rr .rotlr
  | 0x37 => f.rr .rotrr
  | 0x38 => f.ri8 .sra
  | 0x39 => f.rr .srar
  | 0x3A => f.r .rtlx
  | 0x3B => f.r .rtrx
  | 0x40 => f.r .push
  | 0x41 => f.r .pop
  | 0x42 => f.n .pushsta
  | 0x43 => f.n .popsta
  | 0x44 => f.n .pusha
  | 0x45 => f.n .popa
  | 0x46 => f.i32 .call
  | 0x47 => f.r .sbra
  | 0x48 => f.n .ret
  | 0x49 => f.i32 .jmp
  | 0x4A => f.r .bra
  | 0x4B => f.n .nop
  | 0x4C => f.m .halt
  | 0x50 => f.i32 .jpz
  | 0x51 => f.i32 .jpnz
  | 0x52 => f.i32 .jpc
  | 0x53 => f.i32 .jpnc
  | 0x54 => f.i32 .jpo
  | 0x55 => f.i32 .jpno
  | 0x56 => f.i32 .jpp
  | 0x57 => f.i32 .jpn
  | 0x58 => f.i32 .jpbc
  | 0x59 => f.i32 .jpnbc
  | 0x5A => f.i32 .jpd
  | 0x5B => f.i32 .jpnd
  | 0x5C => f.i32 .jpb
  | 0x5D => f.i32 .jpa
  | 0x5E => f.i32 .jpbe
  | 0x5F => f.i32 .jpae
  | 0x60 => f.i32 .jpl
  | 0x61 => f.i32 .jpg
  | 0x62 => f.i32 .jpng
  | 0x63 => f.i32 .jpnl
  | 0x70 => f.ri8 .bit
  | 0x71 => f.ri8 .set
  | 0x72 => f.ri8 .clr
  | 0x73 => f.rr .bitr
  | 0x74 => f.rr .setr
  | 0x75 => f.rr .clrr
  | 0x76 => f.ri8 .bzf
  | 0x77 => f.rr .bzfr
  | 0x80 => f.ri32 .out
  | 0x81 => f.ri32 .inp
  | 0x90 => f.m .checkpoint
  | 0x91 => f.n .breakpoint
  | 0x92 => f.m .pragma
  | op => .error (.unassignedOpcode op)

/-- Decoding: "a total function from 64 bits to 'instruction or illegal'" (R96). -/
def decode (w0 w1 : Word) : Except Illegal Instr := (fieldsOf w0 w1).instr

/-- Decoding the bytes of memory from an instruction's address up: W0 and W1, each little endian (R84); with the
bytes that follow the instruction. -/
def decodeBytes : List Byte → Except Illegal (Instr × List Byte)
  | b0 :: b1 :: b2 :: b3 :: b4 :: b5 :: b6 :: b7 :: rest =>
    match decode (Machine.wordOf b0 b1 b2 b3) (Machine.wordOf b4 b5 b6 b7) with
    | .ok i => .ok (i, rest)
    | .error e => .error e
  | _ => .error .tooShort

/-! ## The encoder -/

/-- The number of a register (R85). -/
def Reg.number : Reg → BitVec 4
  | .r1 => 1
  | .r2 => 2
  | .r3 => 3
  | .r4 => 4
  | .r5 => 5
  | .r6 => 6

/-- The selector of a special register (R89). -/
def SR.number : SR → BitVec 4
  | .pc => 1
  | .sp => 2
  | .st => 3

/-- W0 from its fields (R85): the reserved byte 0, imm8, rb, ra, op. -/
def packW0 (imm8 : Byte) (rb ra : BitVec 4) (op : BitVec 8) : Word := (0 : BitVec 8) ++ imm8 ++ rb ++ ra ++ op

/-- Format N (R87). -/
def encodeN (op : BitVec 8) : Word × Word := (packW0 0 0 0 op, 0)

/-- Format R (R87). -/
def encodeR (op : BitVec 8) (a : Reg) : Word × Word := (packW0 0 0 a.number op, 0)

/-- Format RR (R87). -/
def encodeRR (op : BitVec 8) (a b : Reg) : Word × Word := (packW0 0 b.number a.number op, 0)

/-- Format RS (R87, R89). -/
def encodeRS (op : BitVec 8) (a : Reg) (sr : SR) : Word × Word := (packW0 0 sr.number a.number op, 0)

/-- Format RI8 (R87). -/
def encodeRI8 (op : BitVec 8) (a : Reg) (k : Byte) : Word × Word := (packW0 k 0 a.number op, 0)

/-- Format RI32 (R87). -/
def encodeRI32 (op : BitVec 8) (a : Reg) (v : Word) : Word × Word := (packW0 0 0 a.number op, v)

/-- Formats I32 and M (R87). -/
def encodeI32 (op : BitVec 8) (d : Word) : Word × Word := (packW0 0 0 0 op, d)

/-- The words (W0, W1) of an instruction (R85 to R90); an alias has the words of its primary mnemonic (R82). -/
def encode : Instr → Word × Word
  | .ldi n v => encodeRI32 0x10 n v
  | .ld n v => encodeRI32 0x11 n v
  | .ldr a b => encodeRR 0x12 a b
  | .st n v => encodeRI32 0x13 n v
  | .str a b => encodeRR 0x14 a b
  | .mov a b => encodeRR 0x15 a b
  | .ldsr n sr => encodeRS 0x16 n sr
  | .stsr n sr => encodeRS 0x17 n sr
  | .add a b => encodeRR 0x20 a b
  | .sub a b => encodeRR 0x21 a b
  | .addc a b => encodeRR 0x22 a b
  | .subc a b => encodeRR 0x23 a b
  | .cpl n => encodeR 0x24 n
  | .inc n v => encodeRI32 0x25 n v
  | .dec n v => encodeRI32 0x26 n v
  | .cmp a b => encodeRR 0x27 a b
  | .inv n => encodeR 0x28 n
  | .and a b => encodeRR 0x29 a b
  | .or a b => encodeRR 0x2A a b
  | .xor a b => encodeRR 0x2B a b
  | .shl n k => encodeRI8 0x30 n k
  | .shr n k => encodeRI8 0x31 n k
  | .rotl n k => encodeRI8 0x32 n k
  | .rotr n k => encodeRI8 0x33 n k
  | .shlr a b => encodeRR 0x34 a b
  | .shrr a b => encodeRR 0x35 a b
  | .rotlr a b => encodeRR 0x36 a b
  | .rotrr a b => encodeRR 0x37 a b
  | .sra n k => encodeRI8 0x38 n k
  | .srar a b => encodeRR 0x39 a b
  | .rtlx n => encodeR 0x3A n
  | .rtrx n => encodeR 0x3B n
  | .push n => encodeR 0x40 n
  | .pop n => encodeR 0x41 n
  | .pushsta => encodeN 0x42
  | .popsta => encodeN 0x43
  | .pusha => encodeN 0x44
  | .popa => encodeN 0x45
  | .call d => encodeI32 0x46 d
  | .sbra n => encodeR 0x47 n
  | .ret => encodeN 0x48
  | .jmp d => encodeI32 0x49 d
  | .bra n => encodeR 0x4A n
  | .nop => encodeN 0x4B
  | .halt m => encodeI32 0x4C m
  | .jpz d => encodeI32 0x50 d
  | .jpe d => encodeI32 0x50 d
  | .jpnz d => encodeI32 0x51 d
  | .jpne d => encodeI32 0x51 d
  | .jpc d => encodeI32 0x52 d
  | .jpnc d => encodeI32 0x53 d
  | .jpo d => encodeI32 0x54 d
  | .jpno d => encodeI32 0x55 d
  | .jpp d => encodeI32 0x56 d
  | .jpn d => encodeI32 0x57 d
  | .jpbc d => encodeI32 0x58 d
  | .jpnbc d => encodeI32 0x59 d
  | .jpd d => encodeI32 0x5A d
  | .jpnd d => encodeI32 0x5B d
  | .jpb d => encodeI32 0x5C d
  | .jpa d => encodeI32 0x5D d
  | .jpbe d => encodeI32 0x5E d
  | .jpae d => encodeI32 0x5F d
  | .jpl d => encodeI32 0x60 d
  | .jpg d => encodeI32 0x61 d
  | .jpng d => encodeI32 0x62 d
  | .jple d => encodeI32 0x62 d
  | .jpnl d => encodeI32 0x63 d
  | .jpge d => encodeI32 0x63 d
  | .bit n k => encodeRI8 0x70 n k
  | .set n k => encodeRI8 0x71 n k
  | .clr n k => encodeRI8 0x72 n k
  | .bitr a b => encodeRR 0x73 a b
  | .setr a b => encodeRR 0x74 a b
  | .clrr a b => encodeRR 0x75 a b
  | .bzf n k => encodeRI8 0x76 n k
  | .bzfr a b => encodeRR 0x77 a b
  | .out n v => encodeRI32 0x80 n v
  | .inp n v => encodeRI32 0x81 n v
  | .checkpoint m => encodeI32 0x90 m
  | .chk m => encodeI32 0x90 m
  | .breakpoint => encodeN 0x91
  | .brk => encodeN 0x91
  | .pragma m => encodeI32 0x92 m

/-- The eight bytes of an instruction in memory, from its address up (R84). -/
def encodeBytes (i : Instr) : List Byte :=
  let w := encode i
  [Machine.byteOf w.1 0, Machine.byteOf w.1 1, Machine.byteOf w.1 2, Machine.byteOf w.1 3,
   Machine.byteOf w.2 0, Machine.byteOf w.2 1, Machine.byteOf w.2 2, Machine.byteOf w.2 3]

/-! ## The opcode table's numbering -/

/-- The bytes, in memory order, of an instruction whose bits are `w`, numbered as spec/opcode_table.json numbers
them: I = W1 ++ W0, bit 0 the least significant bit of W0 (R84); bits from `nbits` up are 0. -/
def tableBytes (nbits w : Nat) : List Byte :=
  let word : BitVec 64 := BitVec.ofNat 64 (w % 2 ^ nbits)
  (List.range 8).map fun i => word.extractLsb' (8 * i) 8

/-- The instruction the decoder reads from an instruction whose bits are `w`. -/
def decodeTableWord (nbits w : Nat) : Option Instr :=
  match decodeBytes (tableBytes nbits w) with
  | .ok (i, _) => some i
  | .error _ => none

end Sys2Proof
end

