-- ==== Sys2Proof/Machine/Fetch.lean ====
section
/-! DEFINITION. Fetching an instruction (R96 of spec/30_encoding.md, R244), committing what it did (R241, R256), the host's
actions between instructions (R255, R256), and placing an instruction where it is fetched. -/

namespace Sys2Proof.Machine

/-- The words W0 and W1 at `pc`, in the order of checks of R244: Misaligned on pc, BusError on W0 then W1, Unwritten
(R96). -/
def State.fetchWords (s : State) : Except Fault (Word × Word) :=
  match accessFault s.config s.pc with
  | some f => .error f
  | none =>
    match accessFault s.config (s.pc + 4) with
    | some f => .error f
    | none =>
      match s.fetchWord s.pc with
      | .error f => .error f
      | .ok w0 =>
        match s.fetchWord (s.pc + 4) with
        | .error f => .error f
        | .ok w1 => .ok (w0, w1)

/-- The instruction at `pc`, or the fault of its fetch (R96, R91). -/
def State.fetch (s : State) : Except Fault Instr :=
  match s.fetchWords with
  | .error f => .error f
  | .ok (w0, w1) =>
    match decode w0 w1 with
    | .ok i => .ok i
    | .error _ => .error (.illegalInstruction s.pc)

/-- What a step makes of an instruction's outcome at `s`: a next state stands; a fault takes the machine as it was
before the instruction to `Faulted(cause, pc)` (R241, R256). -/
def State.commit (s : State) : Host.Outcome State Fault Refusal → Host.Outcome State Fault Refusal
  | .next t => .next t
  | .fault f => .next (s.raise f)
  | .refused r => .refused r

/-- One step of the processor, given the meaning of instructions (R25): in Running, fetch at PC and execute; in every
other run state no instruction executes and nothing changes (R34, R256). -/
def State.processorStep (exec : Instr → State → Host.Outcome State Fault Refusal) (s : State) :
    Host.Outcome State Fault Refusal :=
  match s.run with
  | .running =>
    match s.fetch with
    | .ok i => s.commit (exec i s)
    | .error f => .next (s.raise f)
  | .halted => .next s
  | .breakStopped => .next s
  | .faulted _ _ => .next s

/-- One step of the machine (R255, R256): first what the host does; where it does nothing, the processor steps. Confirm
and Reset are transitions of their own (log entry 13). -/
def State.machineStep (exec : Instr → State → Host.Outcome State Fault Refusal) (s : State) :
    Host.Outcome State Fault Refusal :=
  match s.hostEvents with
  | [] => s.processorStep exec
  | .idle :: rest => ({ s with hostEvents := rest } : State).processorStep exec
  | .confirm :: rest => .next ({ s with hostEvents := rest } : State).hostConfirm
  | .reset v :: rest => .next (({ s with hostEvents := rest } : State).hostReset v)

/-- The words W0 and W1 of an instruction stored where the next step fetches (R84), and all that this fetch takes: PC at a
multiple of 4 (as it is where it is one already), Running, and no host action before it. Nothing else changes. -/
def State.placed (s : State) (w0 w1 : Word) : State :=
  let a := s.pc &&& 0xFFFFFFFC
  { (s.storeWord a w0).storeWord (a + 4) w1 with
    pc := a
    run := .running
    hostEvents := [] }

end Sys2Proof.Machine
end

