-- ==== Sys2Proof/Machine/Step.lean ====
section
/-! DEFINITION. One step of the machine, and the placing of an instruction where the next step fetches it. -/

namespace Sys2Proof.Machine

/-- One step (R25, R256): the host's action if it takes one, otherwise the processor's step over `exec`. -/
def step : State → Host.Outcome State Fault Refusal := State.machineStep exec

/-- `s` with the instruction whose bits are `w`, numbered as spec/opcode_table.json numbers them (I = W1 ++ W0, R84; bits
from `nbits` up are 0), where the next step fetches its instruction. -/
def State.withFetchWord (s : State) (nbits w : Nat) : State :=
  let word : BitVec 64 := BitVec.ofNat 64 (w % 2 ^ nbits)
  s.placed (word.extractLsb' 0 32) (word.extractLsb' 32 32)

end Sys2Proof.Machine
end

