-- ==== Sys2Proof/Safety.lean ====
section
/-! DEFINITION. What a run of a program is, when it ends and when it is safe, in the terms claims use (R241, R257 of
spec/60_exceptions.md). -/

namespace Sys2Proof.Machine

/-- The machine has not faulted: "a run that reaches `Faulted` has no final state and satisfies no claim about a result"
(R257). -/
def State.unfaulted (s : State) : Bool :=
  match s.run with
  | .running | .halted | .breakStopped => true
  | .faulted _ _ => false

/-- The end of a run: the run state is Halted (R257). -/
def State.final (s : State) : Bool := s.run == .halted

/-- A run goes on in this state: in Running, and in BreakStopped, which is "a non-final stop" (R257). -/
def State.goesOn (s : State) : Bool :=
  match s.run with
  | .running | .breakStopped => true
  | .halted | .faulted _ _ => false

/-- The host is about to give a Reset, which starts a new run (R256, R257). -/
def State.resetNext (s : State) : Bool :=
  match s.hostEvents with
  | .reset _ :: _ => true
  | _ => false

/-- The host does nothing at any coming step. -/
def State.unattended (s : State) : Bool := s.hostEvents.all (· == .idle)

/-- A state right after a Reset, with the program image loaded: where a run of a program begins (R257, R270). -/
def State.starts (s : State) : Prop := ∃ (before : State) (v : ResetValues), s = before.hostReset v

/-- `k` steps of one run lead from `s` to `t`: each is taken in a state in which the run goes on, and none is a Reset
(R257). -/
def runsTo : Nat → State → State → Prop
  | 0, s, t => s = t
  | k + 1, s, t => s.goesOn = true ∧ s.resetNext = false ∧ ∃ u, step s = .next u ∧ runsTo k u t

/-- The run of a program that begins at `s` ends after `k` steps, and `t` is its final state (R257). -/
def endsIn (k : Nat) (s t : State) : Prop := s.starts ∧ runsTo k s t ∧ t.final = true

/-- The first `k` steps of the run from `s` reach no Faulted state. -/
def safeFor (k : Nat) (s : State) : Prop := ∀ j ≤ k, ∀ t, runsTo j s t → t.unfaulted = true

end Sys2Proof.Machine
end

