-- ==== Sys2Proof/Safety/Reference.lean ====
section
/-! DEFINITION. The terms the claims are written in, each taken from the spec's words apart from the machine's own functions:
encodings as numbers (R85), results by unsigned and signed arithmetic (R120, R121), and the tables of what an
instruction may change (R29, R22, R23, R56). -/

namespace Sys2Proof

/-- "Register Ri is encoded as the number i" (R85). -/
def Reg.index : Reg → Nat
  | .r1 => 1
  | .r2 => 2
  | .r3 => 3
  | .r4 => 4
  | .r5 => 5
  | .r6 => 6

/-- W0 as a number: op in bits 7..0, ra in 11..8, rb in 15..12, imm8 in 23..16 (R85). -/
def w0Of (op ra rb imm8 : Nat) : Word := BitVec.ofNat 32 (op + 2 ^ 8 * ra + 2 ^ 12 * rb + 2 ^ 16 * imm8)

namespace Machine

/-- An addition is within the signed range: -2^31 .. 2^31 - 1 (R120). -/
def signedOk (v : Int) : Bool := decide (-(2 ^ 31) ≤ v ∧ v ≤ 2 ^ 31 - 1)

/-- The flags of the sum `a + b + c`, DF as it was: CF the unsigned overflow, OF the signed one, BF the carry out of the
low nibble (R120). -/
def sumFlags (f : Flags) (a b : Word) (c : Bool) : Flags where
  zf := decide ((a.toNat + b.toNat + c.toNat) % 2 ^ 32 = 0)
  cf := decide (2 ^ 32 ≤ a.toNat + b.toNat + c.toNat)
  of := !signedOk (a.toInt + b.toInt + c.toNat)
  sf := decide (2 ^ 31 ≤ (a.toNat + b.toNat + c.toNat) % 2 ^ 32)
  bf := decide (16 ≤ a.toNat % 16 + b.toNat % 16 + c.toNat)
  df := f.df

/-- The flags of the difference `a - b`, DF as it was: ZF iff equal, CF iff no borrow, OF the signed overflow, BF iff no
borrow out of the low nibble (R121). -/
def differenceFlags (f : Flags) (a b : Word) : Flags where
  zf := decide (a = b)
  cf := decide (b.toNat ≤ a.toNat)
  of := !signedOk (a.toInt - b.toInt)
  sf := (a - b).msb
  bf := decide (b.toNat % 16 ≤ a.toNat % 16)
  df := f.df

/-- ZF and SF of a result, the other flags as they were (R130). -/
def resultFlags (f : Flags) (r : Word) : Flags := { f with zf := decide (r = 0), sf := r.msb }

/-- ZF, SF and, where a bit was shifted out, CF; the other flags as they were (R141). -/
def shiftFlags (f : Flags) (o : ShiftOut) : Flags :=
  match o.out with
  | none => resultFlags f o.r
  | some b => { resultFlags f o.r with cf := b }

/-- `s` after an instruction that writes `v` to `n` and `f` to the flags, and runs on: nothing else changes. -/
def State.after (s : State) (n : Reg) (v : Word) (f : Flags) : State :=
  { s with regs := s.regs.set n v, st := f, pc := s.pc + 8 }

/-- `s` after a jump to `target`: nothing else changes (R175). -/
def State.jumped (s : State) (target : Word) : State := { s with pc := target }

/-- An aligned word access at `a` meets memory (R54, R57). -/
def accessible (c : Config) (a : Word) : Prop := a.toNat % 4 = 0 ∧ mapped c a = true

/-- The word at `a` consists of four bytes that hold values, Byte 0 at the lowest address (R52). -/
def holdsWord (m : Memory) (a v : Word) : Prop :=
  ∀ i < 4, m.byte? (a.toNat + i) = some (BitVec.ofNat 8 (v.toNat / 256 ^ i))

/-- Byte `b` of the word at `a` is its lowest that holds no value: the one that Unwritten names (R37, R242; log entry
20). -/
def firstMissing (m : Memory) (a : Word) (b : Nat) : Prop :=
  b < 4 ∧ m.byte? (a.toNat + b) = none ∧ ∀ c < b, (m.byte? (a.toNat + c)).isSome = true

/-- The host lets the processor step at `s`; `u` is `s` without the idle entry by which the host says so, if there is one
(log entry 13). -/
def State.yieldsTo (s u : State) : Prop :=
  s.hostEvents = [] ∧ u = s ∨ ∃ rest, s.hostEvents = .idle :: rest ∧ u = { s with hostEvents := rest }

/-- Byte address `b` belongs to one of the words at the addresses `as`. -/
def inWords (as : List Word) (b : Nat) : Prop := ∃ a ∈ as, a.toNat ≤ b ∧ b < a.toNat + 4

/-- The word addresses an instruction stores to (R56, R113, R114, R161, R163, R165, R167, R168). -/
def State.storesTo (s : State) : Instr → List Word
  | .st _ d => [s.effAddr (.absolute d)]
  | .str _ a => [s.effAddr (.indirect a)]
  | .push _ | .pushsta | .call _ | .sbra _ => [s.sp - 4]
  | .pusha => pushAddrs s.sp
  | _ => []

/-- The universal registers an instruction may write (R21 and each instruction's rule). -/
def writesRegs : Instr → List Reg
  | .ldi n _ | .ld n _ | .ldr n _ | .mov n _ | .ldsr n _ => [n]
  | .add n _ | .sub n _ | .addc n _ | .subc n _ | .cpl n | .inc n _ | .dec n _ => [n]
  | .inv n | .and n _ | .or n _ | .xor n _ => [n]
  | .shl n _ | .shr n _ | .rotl n _ | .rotr n _ | .sra n _ => [n]
  | .shlr n _ | .shrr n _ | .rotlr n _ | .rotrr n _ | .srar n _ | .rtlx n | .rtrx n => [n]
  | .pop n => [n]
  | .popa => [.r1, .r2, .r3, .r4, .r5, .r6]
  | .set n _ | .clr n _ | .setr n _ | .clrr n _ | .bzf n _ | .bzfr n _ => [n]
  | .inp n _ => [n]
  | _ => []

/-- The instructions that write SP (R22). -/
def writesSp : Instr → Bool
  | .push _ | .pop _ | .pushsta | .popsta | .pusha | .popa | .call _ | .sbra _ | .ret => true
  | .stsr _ .sp => true
  | _ => false

/-- The instructions that may load PC with something else than the following address (R23). -/
def transfersControl : Instr → Bool
  | .jmp _ | .bra _ | .call _ | .sbra _ | .ret => true
  | .stsr _ .pc => true
  | .jpz _ | .jpe _ | .jpnz _ | .jpne _ | .jpc _ | .jpnc _ | .jpo _ | .jpno _ | .jpp _ | .jpn _ => true
  | .jpbc _ | .jpnbc _ | .jpd _ | .jpnd _ | .jpb _ | .jpa _ | .jpbe _ | .jpae _ => true
  | .jpl _ | .jpg _ | .jpng _ | .jple _ | .jpnl _ | .jpge _ => true
  | _ => false

/-- The target of a jump that uses no stack (R175): JMP, BRA, STSR Rn,PC and the conditional jumps. -/
def State.jumpTarget (s : State) : Instr → Option Word
  | .bra n | .stsr n .pc => some (s.reg n)
  | .jmp d | .jpz d | .jpe d | .jpnz d | .jpne d | .jpc d | .jpnc d | .jpo d | .jpno d | .jpp d | .jpn d => some d
  | .jpbc d | .jpnbc d | .jpd d | .jpnd d | .jpb d | .jpa d | .jpbe d | .jpae d => some d
  | .jpl d | .jpg d | .jpng d | .jple d | .jpnl d | .jpge d => some d
  | _ => none

/-- The jumps that are taken whatever the flags (R170, R171, R117). -/
def unconditional : Instr → Bool
  | .jmp _ | .bra _ | .stsr _ .pc => true
  | _ => false

/-- A shift or rotate whose count is 0, for which R29 says of CF "unchanged when the count is 0" (a register count
through `SHIFT_COUNT_REG`: log entry 7). -/
def State.countIsZero (s : State) : Instr → Bool
  | .shl _ k | .shr _ k | .sra _ k | .rotl _ k | .rotr _ k => k == 0
  | .shlr _ c | .shrr _ c | .srar _ c | .rotlr _ c | .rotrr _ c => s.reg c &&& s.config.shiftCountMask == 0
  | _ => false

/-- A row of the table of R29: which flags the instruction writes. -/
structure FlagRow where
  zf : Bool
  cf : Bool
  of : Bool
  sf : Bool
  bf : Bool
  df : Bool

/-- The columns ZF, CF, OF, SF, BF, DF of R29 (count 0 of a shift counts as writing CF here; State.countIsZero says more). -/
def flagRow : Instr → FlagRow
  | .stsr _ .st | .popsta | .popa => ⟨true, true, true, true, true, true⟩
  | .add _ _ | .sub _ _ | .cpl _ | .inc _ _ | .dec _ _ | .cmp _ _ => ⟨true, true, true, true, true, false⟩
  | .addc _ _ | .subc _ _ => ⟨true, true, true, true, true, false⟩
  | .inv _ | .and _ _ | .or _ _ | .xor _ _ => ⟨true, false, false, true, false, false⟩
  | .shl _ _ | .shr _ _ | .rotl _ _ | .rotr _ _ | .sra _ _ => ⟨true, true, false, true, false, false⟩
  | .shlr _ _ | .shrr _ _ | .rotlr _ _ | .rotrr _ _ | .srar _ _ => ⟨true, true, false, true, false, false⟩
  | .rtlx _ | .rtrx _ => ⟨true, true, false, true, false, false⟩
  | .bit _ _ | .bitr _ _ => ⟨true, false, false, false, false, false⟩
  | _ => ⟨false, false, false, false, false, false⟩

/-- The run state after an instruction completes (R256). -/
def runAfter (s : State) : Instr → RunState
  | .halt _ => .halted
  | .breakpoint | .brk => .breakStopped
  | _ => s.run

/-- The display events of an instruction that completes (R252). -/
def displays (s : State) : Instr → List DisplayEvent
  | .halt m => [.halt (s.message m)]
  | .checkpoint m | .chk m => [.checkpoint (s.message m)]
  | .breakpoint | .brk => [.breakpoint s.pc]
  | .pragma m => [.pragma (s.message m)]
  | _ => []

/-- The port events of an instruction that completes (R221, R222). -/
def portEvents (s : State) : Instr → List PortEvent
  | .out n p => [.write p (s.reg n)]
  | .inp _ p => [.read p (s.portAnswer p)]
  | _ => []

/-- The canonical form that every step keeps: of memory, and of the image a Reset puts there. -/
def State.canonical (s : State) : Prop := s.mem.wf ∧ Memory.wf s.config.memInit

end Machine

end Sys2Proof
end

