-- ==== Sys2Proof/Certificates/Slice0/Obligations.lean ====
section
/-! DEFINITION. The statements for the provers, from the numbered rules of spec/. What a statement says is over every state,
so over every value of the parameters of R7 and every answer of the environment, unless a hypothesis says otherwise. -/

open Sys2Proof Sys2Proof.Machine

/-- O1. Decode and encode agree: "every level-S instruction has exactly one encoding (the aliases of rule R82 are the same instruction)" (R96). -/
def Obligations.DecodeInvertsEncode : Prop :=
  (∀ i : Instr, i.wf = true → decode (encode i).1 (encode i).2 = .ok i) ∧
  (∀ i : Instr, decode (encode i).1 (encode i).2 = .ok i.canonical)

/-- O2. "Two different level-S instructions never share an encoding" (R96): no bit of a legal word is dropped. -/
def Obligations.EncodeInvertsDecode : Prop :=
  ∀ (w0 w1 : Word) (i : Instr), decode w0 w1 = .ok i → encode i = (w0, w1) ∧ i.wf = true

/-- O3. "An instruction word belongs to a row iff I & mask == match" and the ranges hold (R87, R91), against the masks of WellFormed.lean. -/
def Obligations.DecodeAcceptsExactlyTheLegalWords : Prop :=
  ∀ w0 w1 : Word, (∃ i, decode w0 w1 = .ok i) ↔ legalWord (w1 ++ w0) = true

/-- O4. The table of R90 as numbers (the fields of R85), and the numbers it leaves unassigned (R91). -/
def Obligations.OpcodeMap : Prop :=
  (∀ (n a : Reg) (v : Word) (k : Byte),
    encode (.ldi n v) = (w0Of 0x10 n.index 0 0, v) ∧
    encode (.ld n v) = (w0Of 0x11 n.index 0 0, v) ∧
    encode (.ldr n a) = (w0Of 0x12 n.index a.index 0, 0) ∧
    encode (.st n v) = (w0Of 0x13 n.index 0 0, v) ∧
    encode (.str n a) = (w0Of 0x14 n.index a.index 0, 0) ∧
    encode (.mov n a) = (w0Of 0x15 n.index a.index 0, 0) ∧
    encode (.ldsr n .pc) = (w0Of 0x16 n.index 1 0, 0) ∧
    encode (.ldsr n .sp) = (w0Of 0x16 n.index 2 0, 0) ∧
    encode (.ldsr n .st) = (w0Of 0x16 n.index 3 0, 0) ∧
    encode (.stsr n .pc) = (w0Of 0x17 n.index 1 0, 0) ∧
    encode (.stsr n .sp) = (w0Of 0x17 n.index 2 0, 0) ∧
    encode (.stsr n .st) = (w0Of 0x17 n.index 3 0, 0) ∧
    encode (.add n a) = (w0Of 0x20 n.index a.index 0, 0) ∧
    encode (.sub n a) = (w0Of 0x21 n.index a.index 0, 0) ∧
    encode (.addc n a) = (w0Of 0x22 n.index a.index 0, 0) ∧
    encode (.subc n a) = (w0Of 0x23 n.index a.index 0, 0) ∧
    encode (.cpl n) = (w0Of 0x24 n.index 0 0, 0) ∧
    encode (.inc n v) = (w0Of 0x25 n.index 0 0, v) ∧
    encode (.dec n v) = (w0Of 0x26 n.index 0 0, v) ∧
    encode (.cmp n a) = (w0Of 0x27 n.index a.index 0, 0) ∧
    encode (.inv n) = (w0Of 0x28 n.index 0 0, 0) ∧
    encode (.and n a) = (w0Of 0x29 n.index a.index 0, 0) ∧
    encode (.or n a) = (w0Of 0x2A n.index a.index 0, 0) ∧
    encode (.xor n a) = (w0Of 0x2B n.index a.index 0, 0) ∧
    encode (.shl n k) = (w0Of 0x30 n.index 0 k.toNat, 0) ∧
    encode (.shr n k) = (w0Of 0x31 n.index 0 k.toNat, 0) ∧
    encode (.rotl n k) = (w0Of 0x32 n.index 0 k.toNat, 0) ∧
    encode (.rotr n k) = (w0Of 0x33 n.index 0 k.toNat, 0) ∧
    encode (.shlr n a) = (w0Of 0x34 n.index a.index 0, 0) ∧
    encode (.shrr n a) = (w0Of 0x35 n.index a.index 0, 0) ∧
    encode (.rotlr n a) = (w0Of 0x36 n.index a.index 0, 0) ∧
    encode (.rotrr n a) = (w0Of 0x37 n.index a.index 0, 0) ∧
    encode (.sra n k) = (w0Of 0x38 n.index 0 k.toNat, 0) ∧
    encode (.srar n a) = (w0Of 0x39 n.index a.index 0, 0) ∧
    encode (.rtlx n) = (w0Of 0x3A n.index 0 0, 0) ∧
    encode (.rtrx n) = (w0Of 0x3B n.index 0 0, 0) ∧
    encode (.push n) = (w0Of 0x40 n.index 0 0, 0) ∧
    encode (.pop n) = (w0Of 0x41 n.index 0 0, 0) ∧
    encode .pushsta = (w0Of 0x42 0 0 0, 0) ∧
    encode .popsta = (w0Of 0x43 0 0 0, 0) ∧
    encode .pusha = (w0Of 0x44 0 0 0, 0) ∧
    encode .popa = (w0Of 0x45 0 0 0, 0) ∧
    encode (.call v) = (w0Of 0x46 0 0 0, v) ∧
    encode (.sbra n) = (w0Of 0x47 n.index 0 0, 0) ∧
    encode .ret = (w0Of 0x48 0 0 0, 0) ∧
    encode (.jmp v) = (w0Of 0x49 0 0 0, v) ∧
    encode (.bra n) = (w0Of 0x4A n.index 0 0, 0) ∧
    encode .nop = (w0Of 0x4B 0 0 0, 0) ∧
    encode (.halt v) = (w0Of 0x4C 0 0 0, v) ∧
    encode (.jpz v) = (w0Of 0x50 0 0 0, v) ∧
    encode (.jpe v) = (w0Of 0x50 0 0 0, v) ∧
    encode (.jpnz v) = (w0Of 0x51 0 0 0, v) ∧
    encode (.jpne v) = (w0Of 0x51 0 0 0, v) ∧
    encode (.jpc v) = (w0Of 0x52 0 0 0, v) ∧
    encode (.jpnc v) = (w0Of 0x53 0 0 0, v) ∧
    encode (.jpo v) = (w0Of 0x54 0 0 0, v) ∧
    encode (.jpno v) = (w0Of 0x55 0 0 0, v) ∧
    encode (.jpp v) = (w0Of 0x56 0 0 0, v) ∧
    encode (.jpn v) = (w0Of 0x57 0 0 0, v) ∧
    encode (.jpbc v) = (w0Of 0x58 0 0 0, v) ∧
    encode (.jpnbc v) = (w0Of 0x59 0 0 0, v) ∧
    encode (.jpd v) = (w0Of 0x5A 0 0 0, v) ∧
    encode (.jpnd v) = (w0Of 0x5B 0 0 0, v) ∧
    encode (.jpb v) = (w0Of 0x5C 0 0 0, v) ∧
    encode (.jpa v) = (w0Of 0x5D 0 0 0, v) ∧
    encode (.jpbe v) = (w0Of 0x5E 0 0 0, v) ∧
    encode (.jpae v) = (w0Of 0x5F 0 0 0, v) ∧
    encode (.jpl v) = (w0Of 0x60 0 0 0, v) ∧
    encode (.jpg v) = (w0Of 0x61 0 0 0, v) ∧
    encode (.jpng v) = (w0Of 0x62 0 0 0, v) ∧
    encode (.jple v) = (w0Of 0x62 0 0 0, v) ∧
    encode (.jpnl v) = (w0Of 0x63 0 0 0, v) ∧
    encode (.jpge v) = (w0Of 0x63 0 0 0, v) ∧
    encode (.bit n k) = (w0Of 0x70 n.index 0 k.toNat, 0) ∧
    encode (.set n k) = (w0Of 0x71 n.index 0 k.toNat, 0) ∧
    encode (.clr n k) = (w0Of 0x72 n.index 0 k.toNat, 0) ∧
    encode (.bitr n a) = (w0Of 0x73 n.index a.index 0, 0) ∧
    encode (.setr n a) = (w0Of 0x74 n.index a.index 0, 0) ∧
    encode (.clrr n a) = (w0Of 0x75 n.index a.index 0, 0) ∧
    encode (.bzf n k) = (w0Of 0x76 n.index 0 k.toNat, 0) ∧
    encode (.bzfr n a) = (w0Of 0x77 n.index a.index 0, 0) ∧
    encode (.out n v) = (w0Of 0x80 n.index 0 0, v) ∧
    encode (.inp n v) = (w0Of 0x81 n.index 0 0, v) ∧
    encode (.checkpoint v) = (w0Of 0x90 0 0 0, v) ∧
    encode (.chk v) = (w0Of 0x90 0 0 0, v) ∧
    encode .breakpoint = (w0Of 0x91 0 0 0, 0) ∧
    encode .brk = (w0Of 0x91 0 0 0, 0) ∧
    encode (.pragma v) = (w0Of 0x92 0 0 0, v)) ∧
  (∀ w0 w1 : Word,
    let op := w0.toNat % 256
    (op ≤ 0x0F ∨ 0x18 ≤ op ∧ op ≤ 0x1F ∨ 0x2C ≤ op ∧ op ≤ 0x2F ∨ 0x3C ≤ op ∧ op ≤ 0x3F ∨ 0x4D ≤ op ∧ op ≤ 0x4F ∨
      0x64 ≤ op ∧ op ≤ 0x6F ∨ 0x78 ≤ op ∧ op ≤ 0x7F ∨ 0x82 ≤ op ∧ op ≤ 0x8F ∨ 0x93 ≤ op) →
    decode w0 w1 = .error (.unassignedOpcode op))

/-- O5. A sanity statement: words written out in spec/95_test_vectors.md (2.8 and the examples of the families). -/
def Obligations.SampleWordsDecode : Prop :=
  decode 0x00002120 0 = .ok (.add .r1 .r2) ∧ decode 0x00FF0130 0 = .ok (.shl .r1 255) ∧
  decode 0x00000049 0xFFFFFFF8 = .ok (.jmp 0xFFFFFFF8) ∧ decode 0x00000310 0xDEADBEEF = .ok (.ldi .r3 0xDEADBEEF) ∧
  decode 0x00003117 0 = .ok (.stsr .r1 .st) ∧ decode 0x00000063 0x400 = .ok (.jpnl 0x400) ∧
  decode 0x00001177 0 = .ok (.bzfr .r1 .r1) ∧ decode 0x00000281 0xFFFFFFFF = .ok (.inp .r2 0xFFFFFFFF) ∧
  decode 0x00000091 0 = .ok .breakpoint ∧
  decode 0 0 = .error (.unassignedOpcode 0) ∧ decode 0x00002120 1 = .error .unusedField ∧
  decode 0x00007120 0 = .error (.badRegister 7) ∧ decode 0x00000120 0 = .error (.badRegister 0) ∧
  decode 0x01002120 0 = .error .reservedByte ∧ decode 0x00010120 0 = .error .unusedField ∧
  decode 0x00004116 0 = .error (.badSelector 4) ∧ decode 0x00000116 0 = .error (.badSelector 0) ∧
  decode 0x0000014B 0 = .error .unusedField ∧ decode 0x0000018F 0 = .error (.unassignedOpcode 0x8F)

/-- O6. "They are the same instruction ... An alias assembles to the same encoding as its primary mnemonic" (R82). -/
def Obligations.AliasesAreTheirPrimary : Prop :=
  ∀ (v : Word) (s : State),
    (encode (.jpe v) = encode (.jpz v) ∧ exec (.jpe v) s = exec (.jpz v) s) ∧
    (encode (.jpne v) = encode (.jpnz v) ∧ exec (.jpne v) s = exec (.jpnz v) s) ∧
    (encode (.jple v) = encode (.jpng v) ∧ exec (.jple v) s = exec (.jpng v) s) ∧
    (encode (.jpge v) = encode (.jpnl v) ∧ exec (.jpge v) s = exec (.jpnl v) s) ∧
    (encode (.chk v) = encode (.checkpoint v) ∧ exec (.chk v) s = exec (.checkpoint v) s) ∧
    (encode .brk = encode .breakpoint ∧ exec .brk s = exec .breakpoint s)

/-- O7. The only way a per-instruction statement reaches a run: exec is given the state before the instruction, and its meanings advance PC (R25). Around exec, a step adds only the transition of R256 for a fault and the host's idle entry (log entry 13). -/
def Obligations.StepRunsTheDecodedInstruction : Prop :=
  ∀ (s u : State) (w0 w1 : Word) (i : Instr),
    s.run = .running → s.yieldsTo u → accessible s.config s.pc → accessible s.config (s.pc + 4) →
    holdsWord s.mem s.pc w0 → holdsWord s.mem (s.pc + 4) w1 → decode w0 w1 = .ok i →
    step s =
      match exec i u with
      | .next t => .next t
      | .fault f => .next { u with run := .faulted f u.pc }
      | .refused r => .refused r

/-- O8. Checks (1) to (4) of R244. Which byte Unwritten names is the model's choice (log entry 20), as is the host's idle entry (log entry 13). -/
def Obligations.FetchFaultOrder : Prop :=
  ∀ s u : State, s.run = .running → s.yieldsTo u →
    (s.pc.toNat % 4 ≠ 0 → step s = .next { u with run := .faulted (.misaligned s.pc) s.pc }) ∧
    (s.pc.toNat % 4 = 0 → mapped s.config s.pc = false →
      step s = .next { u with run := .faulted (.busError s.pc) s.pc }) ∧
    (accessible s.config s.pc → mapped s.config (s.pc + 4) = false →
      step s = .next { u with run := .faulted (.busError (s.pc + 4)) s.pc }) ∧
    (accessible s.config s.pc → accessible s.config (s.pc + 4) →
      (∀ b, firstMissing s.mem s.pc b →
        step s = .next { u with run := .faulted (.unwritten (s.pc + BitVec.ofNat 32 b)) s.pc }) ∧
      (∀ w0 b, holdsWord s.mem s.pc w0 → firstMissing s.mem (s.pc + 4) b →
        step s = .next { u with run := .faulted (.unwritten (s.pc + 4 + BitVec.ofNat 32 b)) s.pc }) ∧
      (∀ w0 w1 e, holdsWord s.mem s.pc w0 → holdsWord s.mem (s.pc + 4) w1 → decode w0 w1 = .error e →
        step s = .next { u with run := .faulted (.illegalInstruction s.pc) s.pc }))

/-- O9. What State.withFetchWord is for. That a fetch sees an earlier store is R65, the byte order is that of R84; that withFetchWord also sets Running and empties the host's list, so that the very next step fetches, is the model's choice (log entry 25). -/
def Obligations.PlacedInstructionRunsNext : Prop :=
  ∀ (s : State) (i : Instr), accessible s.config s.pc → accessible s.config (s.pc + 4) →
    let t := s.withFetchWord 64 ((encode i).1.toNat + 2 ^ 32 * (encode i).2.toNat)
    t.pc = s.pc ∧ t.regs = s.regs ∧ t.sp = s.sp ∧ t.st = s.st ∧ t.run = .running ∧ t.hostEvents = [] ∧
      step t = t.commit (exec i.canonical t)

/-- O10. The model's form of R256: a fault is answered as the next state Faulted (log entry 11), and where the machine is stopped and the host does nothing, a step answers the same state (log entry 12), where U18 and U19 of 93_implementation_defined.md call that state stuck. No instruction is refused. -/
def Obligations.StepAlwaysAnswersNext : Prop :=
  ∀ s : State, ∃ t, step s = .next t

/-- O11. An invariant of every step from every state: equal memories stay equal data, and no entry lies outside the address space (R32). -/
def Obligations.StepKeepsMemoryCanonical : Prop :=
  ∀ s t : State, s.canonical → step s = .next t → t.canonical

/-- O12. The invariant holds at reset (that State.reset lists nothing is the model's choice, log entry 4). -/
def Obligations.ResetIsCanonical : Prop :=
  State.reset.canonical ∧ ∀ (c : Config) (v : ResetValues), Memory.wf c.memInit → (State.boot c v).canonical

/-- O13. The parameters of R7 are fixed for the machine; that they stand in the state is the model's choice (log entry 5). -/
def Obligations.StepKeepsTheParameters : Prop :=
  ∀ s t : State, step s = .next t → t.config = s.config

/-- O14. R241 (1) to (3). That exec answers .fault and the step records it is the model's form (log entry 11), as are the steps of a stopped machine (log entry 12) and the host's list (log entry 13). -/
def Obligations.FaultsArePreciseAndFinal : Prop :=
  (∀ (s t : State) (f : Fault) (p : Word), s.run = .running → step s = .next t → t.run = .faulted f p →
    p = s.pc ∧ t = { s with run := .faulted f p, hostEvents := t.hostEvents }) ∧
  (∀ (s t : State), (s.run = .halted ∨ ∃ f p, s.run = .faulted f p) →
    (∀ v rest, s.hostEvents ≠ .reset v :: rest) → step s = .next t → t = { s with hostEvents := s.hostEvents.tail }) ∧
  (∀ (s : State) (f : Fault) (p : Word), s.run = .faulted f p → s.final = false ∧ s.unfaulted = false)

/-- O15. The host's rows of R256 and R270, R271. That each action is a step of its own and that the coming actions are listed in the state is the model's form (log entry 13), as are the steps of a stopped machine (log entry 12) and the environment as plain data (log entries 14 and 26). -/
def Obligations.HostActionsAndResets : Prop :=
  ∀ (s : State) (rest : List HostEvent),
    (∀ v : ResetValues, s.hostEvents = .reset v :: rest →
      step s = .next
        { regs := ⟨v.r1, v.r2, v.r3, v.r4, v.r5, v.r6⟩, sp := v.sp, pc := 0, st := Flags.ofWord (v.st.setWidth 32),
          mem := s.config.memInit, run := .running, display := [], portLog := [],
          portHistory := s.portHistory, portInputs := s.portInputs, hostEvents := rest, config := s.config }) ∧
    (∀ (v : ResetValues) (p : Word), (s.hostReset v).portAnswer p = s.portAnswer p) ∧
    (s.hostEvents = .confirm :: rest →
      (s.run = .breakStopped → step s = .next { s with run := .running, hostEvents := rest }) ∧
      (s.run ≠ .breakStopped → step s = .next { s with hostEvents := rest })) ∧
    (s.hostEvents = [] → s.run ≠ .running → step s = .next s) ∧
    (s.hostEvents = .idle :: rest → s.run ≠ .running → step s = .next { s with hostEvents := rest })

/-- O16. R36: the first clause is the spec's; the last line is the model's choice (log entries 1 and 4). -/
def Obligations.ResetState : Prop :=
  (∀ (c : Config) (v : ResetValues),
    (State.boot c v).pc = 0 ∧ (State.boot c v).run = .running ∧ (State.boot c v).st.toWord.toNat < 64 ∧
    (State.boot c v).mem = c.memInit ∧ (State.boot c v).display = [] ∧ (State.boot c v).portLog = []) ∧
  State.reset = State.boot Config.standard ResetValues.zero ∧
  (∀ r : Reg, State.reset.reg r = 0) ∧ State.reset.sp = 0 ∧ State.reset.st.toWord = 0 ∧ State.reset.mem = []

/-- O17. The rows of R256 for a completing instruction, and the events of R252 and R220. -/
def Obligations.RunStateAfterAnInstruction : Prop :=
  ∀ (i : Instr) (s t : State), exec i s = .next t →
    t.run = runAfter s i ∧ t.display = s.display ++ displays s i ∧ t.portLog = s.portLog ++ portEvents s i ∧
    t.portHistory = s.portHistory ++ portEvents s i ∧ t.hostEvents = s.hostEvents

/-- O18. "No universal register is hardwired to a value, none has an alias name" (R21). -/
def Obligations.RegisterReadAfterWrite : Prop :=
  ∀ (s : State) (a b : Reg) (v : Word), (s.setReg a v).reg b = if b = a then v else s.reg b

/-- O19. The register frame of all instructions (R21 to R24). -/
def Obligations.RegisterFrame : Prop :=
  ∀ (i : Instr) (s t : State), exec i s = .next t →
    (∀ r : Reg, r ∉ writesRegs i → t.reg r = s.reg r) ∧
    (writesSp i = false → t.sp = s.sp) ∧
    (transfersControl i = false → t.pc = s.pc + 8)

/-- O20. The write columns of the table of R29; the count of a register form is taken through SHIFT_COUNT_REG (log entry 7). -/
def Obligations.FlagFrame : Prop :=
  ∀ (i : Instr) (s t : State), exec i s = .next t →
    ((flagRow i).zf = false → t.st.zf = s.st.zf) ∧ ((flagRow i).cf = false → t.st.cf = s.st.cf) ∧
    ((flagRow i).of = false → t.st.of = s.st.of) ∧ ((flagRow i).sf = false → t.st.sf = s.st.sf) ∧
    ((flagRow i).bf = false → t.st.bf = s.st.bf) ∧ ((flagRow i).df = false → t.st.df = s.st.df) ∧
    (s.countIsZero i = true → t.st.cf = s.st.cf)

/-- O21. R30, over every instruction. -/
def Obligations.DummyFlagChangesOnlyWithTheWholeRegister : Prop :=
  (∀ (i : Instr) (s t : State), exec i s = .next t → (∀ n, i ≠ .stsr n .st) → i ≠ .popsta → i ≠ .popa →
    t.st.df = s.st.df) ∧
  (∀ (n : Reg) (s t : State), exec (.stsr n .st) s = .next t → t.st.df = (s.reg n).getLsbD 0) ∧
  (∀ (v : Word) (s t : State), holdsWord s.mem s.sp v → exec .popsta s = .next t → t.st.df = v.getLsbD 0) ∧
  (∀ (v : Word) (s t : State), holdsWord s.mem (s.sp + 24) v → exec .popa s = .next t → t.st.df = v.getLsbD 0) ∧
  (∀ (d : Word) (s : State), exec (.jpd d) s = .next (s.jumped (if s.st.df then d else s.pc + 8))) ∧
  (∀ (d : Word) (s : State), exec (.jpnd d) s = .next (s.jumped (if s.st.df then s.pc + 8 else d)))

/-- O22. The memory frame of all instructions: the stored address is the one the meaning uses (State.effAddr, SP - 4, pushAddrs). -/
def Obligations.MemoryFrame : Prop :=
  ∀ (i : Instr) (s t : State), exec i s = .next t →
    ∀ b : Nat, ¬ inWords (s.storesTo i) b → t.mem.byte? b = s.mem.byte? b

/-- O23. R52, R55, R57, R62 for the two primitives every access uses. -/
def Obligations.MemoryReadAfterWrite : Prop :=
  ∀ (s : State) (a v : Word),
    (accessible s.config a → ∃ t, s.memWrite a v = .ok t ∧ holdsWord t.mem a v ∧ t.memRead a = .ok v ∧
      (∀ b, ¬ inWords [a] b → t.mem.byte? b = s.mem.byte? b) ∧ t = { s with mem := t.mem }) ∧
    (a.toNat % 4 ≠ 0 → s.memWrite a v = .error (.misaligned a) ∧ s.memRead a = .error (.misaligned a)) ∧
    (a.toNat % 4 = 0 → mapped s.config a = false →
      s.memWrite a v = .error (.busError a) ∧ s.memRead a = .error (.busError a))

/-- O24. "This spec's default is that all 2^32 bytes are read-write memory" (R59). -/
def Obligations.DefaultMemoryMapHoldsEveryAddress : Prop :=
  ∀ a : Word, mapped Config.standard a = true ∧ accessFault Config.standard a ≠ some (.busError a)

/-- O25. R110, R115 (whose Unwritten does not arise: log entry 3). -/
def Obligations.LdiAndMovResults : Prop :=
  ∀ (s : State) (n a : Reg) (v : Word),
    exec (.ldi n v) s = .next (s.after n v s.st) ∧ exec (.mov n a) s = .next (s.after n (s.reg a) s.st)

/-- O26. R111, R112: the result, and where the two forms trap. Which missing byte Unwritten names is the model's choice (log entry 20). -/
def Obligations.LoadResults : Prop :=
  ∀ (s : State) (n a : Reg) (d v : Word),
    (accessible s.config d → holdsWord s.mem d v → exec (.ld n d) s = .next (s.after n v s.st)) ∧
    (accessible s.config (s.reg a) → holdsWord s.mem (s.reg a) v → exec (.ldr n a) s = .next (s.after n v s.st)) ∧
    (d.toNat % 4 ≠ 0 → exec (.ld n d) s = .fault (.misaligned d)) ∧
    ((s.reg a).toNat % 4 ≠ 0 → exec (.ldr n a) s = .fault (.misaligned (s.reg a))) ∧
    (d.toNat % 4 = 0 → mapped s.config d = false → exec (.ld n d) s = .fault (.busError d)) ∧
    ((s.reg a).toNat % 4 = 0 → mapped s.config (s.reg a) = false →
      exec (.ldr n a) s = .fault (.busError (s.reg a))) ∧
    (∀ b, accessible s.config d → firstMissing s.mem d b →
      exec (.ld n d) s = .fault (.unwritten (d + BitVec.ofNat 32 b))) ∧
    (∀ b, accessible s.config (s.reg a) → firstMissing s.mem (s.reg a) b →
      exec (.ldr n a) s = .fault (.unwritten (s.reg a + BitVec.ofNat 32 b)))

/-- O27. R113, R114: the result with its frame, and where the two forms trap. -/
def Obligations.StoreResults : Prop :=
  ∀ (s : State) (n a : Reg) (d : Word),
    (accessible s.config d → ∃ t, exec (.st n d) s = .next t ∧ holdsWord t.mem d (s.reg n) ∧
      (∀ b, ¬ inWords [d] b → t.mem.byte? b = s.mem.byte? b) ∧ t = { s with mem := t.mem, pc := s.pc + 8 }) ∧
    (accessible s.config (s.reg a) → ∃ t, exec (.str n a) s = .next t ∧ holdsWord t.mem (s.reg a) (s.reg n) ∧
      (∀ b, ¬ inWords [s.reg a] b → t.mem.byte? b = s.mem.byte? b) ∧ t = { s with mem := t.mem, pc := s.pc + 8 }) ∧
    (d.toNat % 4 ≠ 0 → exec (.st n d) s = .fault (.misaligned d)) ∧
    ((s.reg a).toNat % 4 ≠ 0 → exec (.str n a) s = .fault (.misaligned (s.reg a))) ∧
    (d.toNat % 4 = 0 → mapped s.config d = false → exec (.st n d) s = .fault (.busError d)) ∧
    ((s.reg a).toNat % 4 = 0 → mapped s.config (s.reg a) = false →
      exec (.str n a) s = .fault (.busError (s.reg a)))

/-- O28. R116, R117, with R24 for PC and R27 for ST. -/
def Obligations.SpecialRegisterTransfers : Prop :=
  ∀ (s : State) (n : Reg),
    exec (.ldsr n .pc) s = .next (s.after n (s.pc + 8) s.st) ∧
    exec (.ldsr n .sp) s = .next (s.after n s.sp s.st) ∧
    exec (.ldsr n .st) s = .next (s.after n
      (BitVec.ofNat 32 (32 * s.st.zf.toNat + 16 * s.st.cf.toNat + 8 * s.st.of.toNat + 4 * s.st.sf.toNat
        + 2 * s.st.bf.toNat + s.st.df.toNat)) s.st) ∧
    exec (.stsr n .pc) s = .next (s.jumped (s.reg n)) ∧ exec (.stsr n .pc) s = exec (.bra n) s ∧
    exec (.stsr n .sp) s = .next { s with sp := s.reg n, pc := s.pc + 8 } ∧
    (∃ f : Flags, exec (.stsr n .st) s = .next { s with st := f, pc := s.pc + 8 } ∧
      f.toWord = s.reg n &&& 0x3F ∧ f.zf = (s.reg n).getLsbD 5 ∧ f.cf = (s.reg n).getLsbD 4 ∧
      f.of = (s.reg n).getLsbD 3 ∧ f.sf = (s.reg n).getLsbD 2 ∧ f.bf = (s.reg n).getLsbD 1 ∧
      f.df = (s.reg n).getLsbD 0)

/-- O29. R27: bits 31..6 always read 0 and ignore writes. -/
def Obligations.StatusRegisterReadsBack : Prop :=
  (∀ v : Word, (Flags.ofWord v).toWord = v &&& 0x3F) ∧ (∀ f : Flags, Flags.ofWord f.toWord = f) ∧
  (∀ f : Flags, f.toWord.toNat < 64)

/-- O30. R122, R124, R127, with the flags as the theorems R120 names: OF iff the signed sum lies outside -2^31 .. 2^31-1. -/
def Obligations.AdditionResults : Prop :=
  ∀ (s : State) (x y : Reg) (v : Word),
    (encode (.add x y) = (w0Of 0x20 x.index y.index 0, 0) ∧
      exec (.add x y) s =
        .next (s.after x (s.reg x + s.reg y) (sumFlags s.st (s.reg x) (s.reg y) false))) ∧
    (encode (.addc x y) = (w0Of 0x22 x.index y.index 0, 0) ∧
      exec (.addc x y) s =
        .next (s.after x (s.reg x + s.reg y + BitVec.ofNat 32 s.st.cf.toNat)
          (sumFlags s.st (s.reg x) (s.reg y) s.st.cf))) ∧
    (encode (.inc x v) = (w0Of 0x25 x.index 0 0, v) ∧
      exec (.inc x v) s = .next (s.after x (s.reg x + v) (sumFlags s.st (s.reg x) v false)))

/-- O31. R123, R126, R128, R129, with the flags as R121 characterises them. -/
def Obligations.SubtractionResults : Prop :=
  ∀ (s : State) (x y : Reg) (v : Word),
    (encode (.sub x y) = (w0Of 0x21 x.index y.index 0, 0) ∧
      exec (.sub x y) s = .next (s.after x (s.reg x - s.reg y) (differenceFlags s.st (s.reg x) (s.reg y)))) ∧
    (encode (.dec x v) = (w0Of 0x26 x.index 0 0, v) ∧
      exec (.dec x v) s = .next (s.after x (s.reg x - v) (differenceFlags s.st (s.reg x) v))) ∧
    (encode (.cpl x) = (w0Of 0x24 x.index 0 0, 0) ∧
      exec (.cpl x) s = .next (s.after x (0 - s.reg x) (differenceFlags s.st 0 (s.reg x)))) ∧
    (encode (.cmp x y) = (w0Of 0x27 x.index y.index 0, 0) ∧
      exec (.cmp x y) s =
        .next { s with st := differenceFlags s.st (s.reg x) (s.reg y), pc := s.pc + 8 })

/-- O32. R125, under both values of SUBC_MODE (log entry 5). -/
def Obligations.SubcResults : Prop :=
  ∀ (s : State) (x y : Reg),
    let a := s.reg x
    let b := s.reg y
    let k : Int := match s.config.subcMode with
      | .literal => s.st.cf.toNat
      | .borrowChain => s.st.cf.toNat - 1
    (∃ r : Word, (r.toNat : Int) = ((a.toNat : Int) - b.toNat + k) % 2 ^ 32 ∧
      exec (.subc x y) s = .next (s.after x r
        { zf := decide (r = 0), cf := decide ((b.toNat : Int) ≤ a.toNat + k), of := !signedOk (a.toInt - b.toInt + k),
          sf := r.msb, bf := decide (((b.toNat % 16 : Nat) : Int) ≤ (a.toNat % 16 : Nat) + k), df := s.st.df })) ∧
    (k = 0 → exec (.subc x y) s = exec (.sub x y) s) ∧
    (s.config.subcMode = .borrowChain →
      exec (.subc x y) s = .next (s.after x (a + ~~~b + BitVec.ofNat 32 s.st.cf.toNat)
        (sumFlags s.st a (~~~b) s.st.cf)))

/-- O33. R130 to R134. -/
def Obligations.LogicResults : Prop :=
  ∀ (s : State) (x y : Reg),
    (encode (.inv x) = (w0Of 0x28 x.index 0 0, 0) ∧
      exec (.inv x) s = .next (s.after x (~~~(s.reg x)) (resultFlags s.st (~~~(s.reg x))))) ∧
    (encode (.and x y) = (w0Of 0x29 x.index y.index 0, 0) ∧
      exec (.and x y) s = .next (s.after x (s.reg x &&& s.reg y) (resultFlags s.st (s.reg x &&& s.reg y)))) ∧
    (encode (.or x y) = (w0Of 0x2A x.index y.index 0, 0) ∧
      exec (.or x y) s = .next (s.after x (s.reg x ||| s.reg y) (resultFlags s.st (s.reg x ||| s.reg y)))) ∧
    (encode (.xor x y) = (w0Of 0x2B x.index y.index 0, 0) ∧
      exec (.xor x y) s = .next (s.after x (s.reg x ^^^ s.reg y) (resultFlags s.st (s.reg x ^^^ s.reg y))))

/-- O34. The multi-word idioms the corner cases of R124, R152 and R153 name. -/
def Obligations.MultiwordArithmeticChains : Prop :=
  ∀ s t u : State,
    let wide := fun (z : State) => (z.reg .r1).toNat + 2 ^ 32 * (z.reg .r2).toNat
    let sum := wide s + ((s.reg .r3).toNat + 2 ^ 32 * (s.reg .r4).toNat)
    (exec (.add .r1 .r3) s = .next t → exec (.addc .r2 .r4) t = .next u →
      wide u = sum % 2 ^ 64 ∧ u.st.cf = decide (2 ^ 64 ≤ sum)) ∧
    (exec (.shl .r1 1) s = .next t → exec (.rtlx .r2) t = .next u → wide u = 2 * wide s % 2 ^ 64) ∧
    (exec (.shr .r2 1) s = .next t → exec (.rtrx .r1) t = .next u → wide u = wide s / 2)

/-- O35. The closed forms of R142, R143, R150 against the repetition of R140. -/
def Obligations.ShiftsAreRepeatedOneBitSteps : Prop :=
  ∀ (s : State) (n : Reg) (k : Byte),
    let v := s.reg n
    (encode (.shl n k) = (w0Of 0x30 n.index 0 k.toNat, 0) ∧
      exec (.shl n k) s =
        .next (s.after n (repeated .shl v k.toNat).r (shiftFlags s.st (repeated .shl v k.toNat))) ∧
      (repeated .shl v k.toNat).r.toNat = v.toNat * 2 ^ k.toNat % 2 ^ 32) ∧
    (encode (.shr n k) = (w0Of 0x31 n.index 0 k.toNat, 0) ∧
      exec (.shr n k) s =
        .next (s.after n (repeated .shr v k.toNat).r (shiftFlags s.st (repeated .shr v k.toNat))) ∧
      (repeated .shr v k.toNat).r.toNat = v.toNat / 2 ^ k.toNat) ∧
    (encode (.sra n k) = (w0Of 0x38 n.index 0 k.toNat, 0) ∧
      exec (.sra n k) s =
        .next (s.after n (repeated .sra v k.toNat).r (shiftFlags s.st (repeated .sra v k.toNat))) ∧
      (repeated .sra v k.toNat).r.toInt = v.toInt / 2 ^ k.toNat)

/-- O36. The closed forms of R144, R145 against the repetition of R140. -/
def Obligations.RotatesAreRepeatedOneBitSteps : Prop :=
  ∀ (s : State) (n : Reg) (k : Byte),
    let v := s.reg n
    (encode (.rotl n k) = (w0Of 0x32 n.index 0 k.toNat, 0) ∧
      exec (.rotl n k) s =
        .next (s.after n (repeated .rotl v k.toNat).r (shiftFlags s.st (repeated .rotl v k.toNat))) ∧
      (repeated .rotl v k.toNat).r = v.rotateLeft (k.toNat % 32) ∧
      (k ≠ 0 → (repeated .rotl v k.toNat).out = some ((repeated .rotl v k.toNat).r.getLsbD 0))) ∧
    (encode (.rotr n k) = (w0Of 0x33 n.index 0 k.toNat, 0) ∧
      exec (.rotr n k) s =
        .next (s.after n (repeated .rotr v k.toNat).r (shiftFlags s.st (repeated .rotr v k.toNat))) ∧
      (repeated .rotr v k.toNat).r = v.rotateRight (k.toNat % 32) ∧
      (k ≠ 0 → (repeated .rotr v k.toNat).out = some ((repeated .rotr v k.toNat).r.getLsbD 31)))

/-- O37. R140 and R146 to R149, R151; the parameter is log entry 7. -/
def Obligations.RegisterCountShifts : Prop :=
  (∀ (s : State) (n a : Reg),
    let v := s.reg n
    let c := (s.reg a &&& s.config.shiftCountMask).toNat
    exec (.shlr n a) s = .next (s.after n (repeated .shl v c).r (shiftFlags s.st (repeated .shl v c))) ∧
    exec (.shrr n a) s = .next (s.after n (repeated .shr v c).r (shiftFlags s.st (repeated .shr v c))) ∧
    exec (.srar n a) s = .next (s.after n (repeated .sra v c).r (shiftFlags s.st (repeated .sra v c))) ∧
    exec (.rotlr n a) s = .next (s.after n (repeated .rotl v c).r (shiftFlags s.st (repeated .rotl v c))) ∧
    exec (.rotrr n a) s = .next (s.after n (repeated .rotr v c).r (shiftFlags s.st (repeated .rotr v c)))) ∧
  (∀ w : Word, w &&& Config.standard.shiftCountMask = w)

/-- O38. R152, R153. -/
def Obligations.RotateThroughCarryIsA33BitRotation : Prop :=
  ∀ (s : State) (n : Reg),
    (encode (.rtlx n) = (w0Of 0x3A n.index 0 0, 0) ∧
      ∃ (r : Word) (b : Bool),
        (BitVec.ofBool b ++ r : BitVec 33) = (BitVec.ofBool s.st.cf ++ s.reg n : BitVec 33).rotateLeft 1 ∧
        exec (.rtlx n) s = .next (s.after n r { resultFlags s.st r with cf := b })) ∧
    (encode (.rtrx n) = (w0Of 0x3B n.index 0 0, 0) ∧
      ∃ (r : Word) (b : Bool),
        (BitVec.ofBool b ++ r : BitVec 33) = (BitVec.ofBool s.st.cf ++ s.reg n : BitVec 33).rotateRight 1 ∧
        exec (.rtrx n) s = .next (s.after n r { resultFlags s.st r with cf := b }))

/-- O39. R161, R163: the result with its frame, and where they trap. -/
def Obligations.PushResults : Prop :=
  ∀ (s : State) (n : Reg),
    let a := s.sp - 4
    (accessible s.config a →
      (∃ t, exec (.push n) s = .next t ∧ holdsWord t.mem a (s.reg n) ∧
        (∀ b, ¬ inWords [a] b → t.mem.byte? b = s.mem.byte? b) ∧
        t = { s with mem := t.mem, sp := a, pc := s.pc + 8 }) ∧
      (∃ t, exec .pushsta s = .next t ∧ holdsWord t.mem a s.st.toWord ∧
        (∀ b, ¬ inWords [a] b → t.mem.byte? b = s.mem.byte? b) ∧
        t = { s with mem := t.mem, sp := a, pc := s.pc + 8 })) ∧
    (s.sp.toNat % 4 ≠ 0 →
      exec (.push n) s = .fault (.misaligned a) ∧ exec .pushsta s = .fault (.misaligned a)) ∧
    (s.sp.toNat % 4 = 0 → mapped s.config a = false →
      exec (.push n) s = .fault (.busError a) ∧ exec .pushsta s = .fault (.busError a))

/-- O40. R162, R164, R169: the result, and where they trap. Which missing byte Unwritten names is the model's choice (log entry 20). -/
def Obligations.PopResults : Prop :=
  ∀ (s : State) (n : Reg) (v : Word),
    (accessible s.config s.sp → holdsWord s.mem s.sp v →
      exec (.pop n) s = .next { s with regs := s.regs.set n v, sp := s.sp + 4, pc := s.pc + 8 } ∧
      (∃ f : Flags, exec .popsta s = .next { s with st := f, sp := s.sp + 4, pc := s.pc + 8 } ∧
        f.toWord = v &&& 0x3F) ∧
      exec .ret s = .next { s with sp := s.sp + 4, pc := v }) ∧
    (s.sp.toNat % 4 ≠ 0 → exec (.pop n) s = .fault (.misaligned s.sp) ∧
      exec .popsta s = .fault (.misaligned s.sp) ∧ exec .ret s = .fault (.misaligned s.sp)) ∧
    (s.sp.toNat % 4 = 0 → mapped s.config s.sp = false → exec (.pop n) s = .fault (.busError s.sp) ∧
      exec .popsta s = .fault (.busError s.sp) ∧ exec .ret s = .fault (.busError s.sp)) ∧
    (∀ b, accessible s.config s.sp → firstMissing s.mem s.sp b →
      exec (.pop n) s = .fault (.unwritten (s.sp + BitVec.ofNat 32 b)) ∧
      exec .popsta s = .fault (.unwritten (s.sp + BitVec.ofNat 32 b)) ∧
      exec .ret s = .fault (.unwritten (s.sp + BitVec.ofNat 32 b)))

/-- O41. R165; all-or-nothing by R244. -/
def Obligations.PushAllResult : Prop :=
  ∀ s : State,
    (s.sp.toNat % 4 = 0 → (∀ a ∈ pushAddrs s.sp, mapped s.config a = true) →
      ∃ t, exec .pusha s = .next t ∧
        holdsWord t.mem (s.sp - 4) s.st.toWord ∧ holdsWord t.mem (s.sp - 8) s.regs.r6 ∧
        holdsWord t.mem (s.sp - 12) s.regs.r5 ∧ holdsWord t.mem (s.sp - 16) s.regs.r4 ∧
        holdsWord t.mem (s.sp - 20) s.regs.r3 ∧ holdsWord t.mem (s.sp - 24) s.regs.r2 ∧
        holdsWord t.mem (s.sp - 28) s.regs.r1 ∧
        (∀ b, ¬ inWords (pushAddrs s.sp) b → t.mem.byte? b = s.mem.byte? b) ∧
        t = { s with mem := t.mem, sp := s.sp - 28, pc := s.pc + 8 }) ∧
    (s.sp.toNat % 4 ≠ 0 → exec .pusha s = .fault (.misaligned (s.sp - 4))) ∧
    (s.sp.toNat % 4 = 0 → ∀ (pre post : List Word) (a : Word), pushAddrs s.sp = pre ++ a :: post →
      (∀ b ∈ pre, mapped s.config b = true) → mapped s.config a = false → exec .pusha s = .fault (.busError a))

/-- O42. R166; the addresses are all checked before the first read (R244; log entry 19). Which missing byte Unwritten names is the model's choice (log entry 20). -/
def Obligations.PopAllResult : Prop :=
  ∀ s : State,
    (s.sp.toNat % 4 = 0 → (∀ a ∈ popAddrs s.sp, mapped s.config a = true) →
      ∀ v1 v2 v3 v4 v5 v6 vs : Word,
        holdsWord s.mem s.sp v1 → holdsWord s.mem (s.sp + 4) v2 → holdsWord s.mem (s.sp + 8) v3 →
        holdsWord s.mem (s.sp + 12) v4 → holdsWord s.mem (s.sp + 16) v5 → holdsWord s.mem (s.sp + 20) v6 →
        holdsWord s.mem (s.sp + 24) vs →
        ∃ f : Flags, f.toWord = vs &&& 0x3F ∧
          exec .popa s =
            .next { s with regs := ⟨v1, v2, v3, v4, v5, v6⟩, st := f, sp := s.sp + 28, pc := s.pc + 8 }) ∧
    (s.sp.toNat % 4 ≠ 0 → exec .popa s = .fault (.misaligned s.sp)) ∧
    (s.sp.toNat % 4 = 0 → ∀ (pre post : List Word) (a : Word), popAddrs s.sp = pre ++ a :: post →
      (∀ b ∈ pre, mapped s.config b = true) → mapped s.config a = false → exec .popa s = .fault (.busError a)) ∧
    (s.sp.toNat % 4 = 0 → (∀ a ∈ popAddrs s.sp, mapped s.config a = true) →
      ∀ (pre post : List Word) (a : Word) (b : Nat), popAddrs s.sp = pre ++ a :: post →
        (∀ c ∈ pre, ∃ v, holdsWord s.mem c v) → firstMissing s.mem a b →
        exec .popa s = .fault (.unwritten (a + BitVec.ofNat 32 b)))

/-- O43. "PUSHA followed by POPA restores everything" (R165); the seven words wrap round the address space where SP lies near 0. -/
def Obligations.PopaRestoresWhatPushaSaved : Prop :=
  ∀ s t : State, exec .pusha s = .next t →
    ∃ u, exec .popa t = .next u ∧ u.regs = s.regs ∧ u.st = s.st ∧ u.sp = s.sp ∧ u.mem = t.mem

/-- O44. R167, R168. -/
def Obligations.CallResults : Prop :=
  ∀ (s : State) (d : Word) (n : Reg),
    let a := s.sp - 4
    (accessible s.config a →
      (∃ t, exec (.call d) s = .next t ∧ holdsWord t.mem a (s.pc + 8) ∧
        (∀ b, ¬ inWords [a] b → t.mem.byte? b = s.mem.byte? b) ∧ t = { s with mem := t.mem, sp := a, pc := d }) ∧
      (∃ t, exec (.sbra n) s = .next t ∧ holdsWord t.mem a (s.pc + 8) ∧
        (∀ b, ¬ inWords [a] b → t.mem.byte? b = s.mem.byte? b) ∧
        t = { s with mem := t.mem, sp := a, pc := s.reg n })) ∧
    (s.sp.toNat % 4 ≠ 0 →
      exec (.call d) s = .fault (.misaligned a) ∧ exec (.sbra n) s = .fault (.misaligned a)) ∧
    (s.sp.toNat % 4 = 0 → mapped s.config a = false →
      exec (.call d) s = .fault (.busError a) ∧ exec (.sbra n) s = .fault (.busError a))

/-- O45. The reason R24 gives for pushing next_pc. -/
def Obligations.CallThenRetReturns : Prop :=
  ∀ (s t : State) (i : Instr), ((∃ d, i = .call d) ∨ ∃ n, i = .sbra n) → exec i s = .next t →
    ∃ u, exec .ret t = .next u ∧ u.pc = s.pc + 8 ∧ u.sp = s.sp ∧ u.regs = s.regs ∧ u.st = s.st

/-- O46. R170 with its endless loop, R172, and R171, whose Unwritten does not arise (log entry 3). The host's list is log entry 13. -/
def Obligations.JumpsAndNop : Prop :=
  ∀ (s : State) (d : Word) (n : Reg),
    (encode (.jmp d) = (w0Of 0x49 0 0 0, d) ∧ exec (.jmp d) s = .next (s.jumped d)) ∧
    (encode .nop = (w0Of 0x4B 0 0 0, 0) ∧ exec .nop s = .next { s with pc := s.pc + 8 }) ∧
    (encode (.bra n) = (w0Of 0x4A n.index 0 0, 0) ∧ exec (.bra n) s = .next (s.jumped (s.reg n))) ∧
    (∀ (w0 w1 : Word) (k : Nat), s.run = .running → (∀ v, HostEvent.reset v ∉ s.hostEvents) →
      accessible s.config s.pc → accessible s.config (s.pc + 4) → holdsWord s.mem s.pc w0 →
      holdsWord s.mem (s.pc + 4) w1 → decode w0 w1 = .ok (.jmp s.pc) →
      Host.Core.run Sys2Proof.core k s = .next { s with hostEvents := s.hostEvents.drop k })

/-- O47. R175. The host's idle entry is log entry 13. -/
def Obligations.BadTargetsFaultAtTheNextFetch : Prop :=
  (∀ (s : State) (i : Instr) (d : Word), s.jumpTarget i = some d →
    exec i s = .next (s.jumped d) ∨ unconditional i = false ∧ exec i s = .next (s.jumped (s.pc + 8))) ∧
  (∀ (s : State) (d : Word) (n : Reg), accessible s.config (s.sp - 4) →
    (∃ t, exec (.call d) s = .next t ∧ t.pc = d) ∧ ∃ t, exec (.sbra n) s = .next t ∧ t.pc = s.reg n) ∧
  (∀ (s : State) (d : Word), accessible s.config s.sp → holdsWord s.mem s.sp d →
    ∃ t, exec .ret s = .next t ∧ t.pc = d) ∧
  (∀ (i : Instr) (s t u : State), exec i s = .next t → t.run = .running → t.yieldsTo u → t.pc.toNat % 4 ≠ 0 →
    step t = .next { u with run := .faulted (.misaligned t.pc) t.pc })

/-- O48. R173, over runs of any length; that PC is next_pc in Halted is the spec's own choice there. The steps of a stopped machine (log entry 12) and the host's list (log entry 13) are the model's form. -/
def Obligations.HaltStopsUntilReset : Prop :=
  (∀ (s : State) (m : Word), encode (.halt m) = (w0Of 0x4C 0 0 0, m) ∧
    exec (.halt m) s =
      .next { s with display := s.display ++ [.halt (s.message m)], run := .halted, pc := s.pc + 8 }) ∧
  (∀ (s : State) (k : Nat), s.run = .halted → (∀ v, HostEvent.reset v ∉ s.hostEvents) →
    Host.Core.run Sys2Proof.core k s = .next { s with hostEvents := s.hostEvents.drop k }) ∧
  (∀ (s : State) (v : ResetValues) (rest : List HostEvent), s.run = .halted → s.hostEvents = .reset v :: rest →
    ∃ t, step s = .next t ∧ t.run = .running ∧ t.pc = 0)

/-- O49. The table of R203; JPP_JPN_SENSE is log entry 6. -/
def Obligations.ConditionalJumpTable : Prop :=
  ∀ (d : Word) (s : State),
    let Z := s.st.zf
    let C := s.st.cf
    let O := s.st.of
    let S := s.st.sf
    let B := s.st.bf
    let D := s.st.df
    exec (.jpz d) s = .next (s.jumped (if Z then d else s.pc + 8)) ∧
    exec (.jpe d) s = .next (s.jumped (if Z then d else s.pc + 8)) ∧
    exec (.jpnz d) s = .next (s.jumped (if !Z then d else s.pc + 8)) ∧
    exec (.jpne d) s = .next (s.jumped (if !Z then d else s.pc + 8)) ∧
    exec (.jpc d) s = .next (s.jumped (if C then d else s.pc + 8)) ∧
    exec (.jpnc d) s = .next (s.jumped (if !C then d else s.pc + 8)) ∧
    exec (.jpo d) s = .next (s.jumped (if O then d else s.pc + 8)) ∧
    exec (.jpno d) s = .next (s.jumped (if !O then d else s.pc + 8)) ∧
    exec (.jpbc d) s = .next (s.jumped (if B then d else s.pc + 8)) ∧
    exec (.jpnbc d) s = .next (s.jumped (if !B then d else s.pc + 8)) ∧
    exec (.jpd d) s = .next (s.jumped (if D then d else s.pc + 8)) ∧
    exec (.jpnd d) s = .next (s.jumped (if !D then d else s.pc + 8)) ∧
    exec (.jpb d) s = .next (s.jumped (if (!Z && !C) then d else s.pc + 8)) ∧
    exec (.jpa d) s = .next (s.jumped (if (!Z && C) then d else s.pc + 8)) ∧
    exec (.jpbe d) s = .next (s.jumped (if (Z || !C) then d else s.pc + 8)) ∧
    exec (.jpae d) s = .next (s.jumped (if (Z || C) then d else s.pc + 8)) ∧
    exec (.jpl d) s = .next (s.jumped (if (O != S) then d else s.pc + 8)) ∧
    exec (.jpg d) s = .next (s.jumped (if (O == S) then d else s.pc + 8)) ∧
    exec (.jpng d) s = .next (s.jumped (if (Z || O != S) then d else s.pc + 8)) ∧
    exec (.jple d) s = .next (s.jumped (if (Z || O != S) then d else s.pc + 8)) ∧
    exec (.jpnl d) s = .next (s.jumped (if (Z || O == S) then d else s.pc + 8)) ∧
    exec (.jpge d) s = .next (s.jumped (if (Z || O == S) then d else s.pc + 8)) ∧
    (s.config.jppJpnSense = .asTabulated →
      exec (.jpp d) s = .next (s.jumped (if S then d else s.pc + 8)) ∧
      exec (.jpn d) s = .next (s.jumped (if !S then d else s.pc + 8))) ∧
    (s.config.jppJpnSense = .asNamed →
      exec (.jpp d) s = .next (s.jumped (if !S then d else s.pc + 8)) ∧
      exec (.jpn d) s = .next (s.jumped (if S then d else s.pc + 8)))

/-- O50. The pairs of R203. -/
def Obligations.ComplementaryJumps : Prop :=
  (∀ (sense : JppJpnSense) (f : Flags),
    Cond.nz.holds sense f = !Cond.z.holds sense f ∧ Cond.nc.holds sense f = !Cond.c.holds sense f ∧
    Cond.no.holds sense f = !Cond.o.holds sense f ∧ Cond.n.holds sense f = !Cond.p.holds sense f ∧
    Cond.nbc.holds sense f = !Cond.bc.holds sense f ∧ Cond.nd.holds sense f = !Cond.d.holds sense f ∧
    Cond.g.holds sense f = !Cond.l.holds sense f ∧ Cond.ae.holds sense f = !Cond.b.holds sense f ∧
    Cond.be.holds sense f = !Cond.a.holds sense f ∧
    (f.zf = true → f.of = f.sf → Cond.ng.holds sense f = true ∧ Cond.g.holds sense f = true) ∧
    (f.zf = true → f.of ≠ f.sf → Cond.nl.holds sense f = true ∧ Cond.l.holds sense f = true)) ∧
  (∀ (d : Word) (s : State), exec (.jpz d) s = .next (s.jumped d) ∨ exec (.jpnz d) s = .next (s.jumped d))

/-- O51. R201, and the sentences "After a comparison: taken iff ..." of R181 to R200 (R198: JPG also on equality, conflict C2); the jumps for which the spec has no such sentence by their row of R203. R201 and the flags of a subtraction are derived by the spec (R121); JPP_JPN_SENSE is log entry 6. -/
def Obligations.BranchesAfterAComparison : Prop :=
  ∀ (s t : State) (A B d : Word),
    ((∃ x y, A = s.reg x ∧ B = s.reg y ∧ (exec (.cmp x y) s = .next t ∨ exec (.sub x y) s = .next t)) ∨
      (∃ x, A = s.reg x ∧ exec (.dec x B) s = .next t)) →
    (t.st.zf = true ↔ A = B) ∧ (t.st.cf = true ↔ B.toNat ≤ A.toNat) ∧
    ((t.st.of ^^ t.st.sf) = true ↔ A.toInt < B.toInt) ∧
    exec (.jpz d) t = .next (t.jumped (if A = B then d else t.pc + 8)) ∧
    exec (.jpnz d) t = .next (t.jumped (if A ≠ B then d else t.pc + 8)) ∧
    exec (.jpc d) t = .next (t.jumped (if B.toNat ≤ A.toNat then d else t.pc + 8)) ∧
    exec (.jpnc d) t = .next (t.jumped (if A.toNat < B.toNat then d else t.pc + 8)) ∧
    exec (.jpb d) t = .next (t.jumped (if A.toNat < B.toNat then d else t.pc + 8)) ∧
    exec (.jpa d) t = .next (t.jumped (if B.toNat < A.toNat then d else t.pc + 8)) ∧
    exec (.jpbe d) t = .next (t.jumped (if A.toNat ≤ B.toNat then d else t.pc + 8)) ∧
    exec (.jpae d) t = .next (t.jumped (if B.toNat ≤ A.toNat then d else t.pc + 8)) ∧
    exec (.jpl d) t = .next (t.jumped (if A.toInt < B.toInt then d else t.pc + 8)) ∧
    exec (.jpg d) t = .next (t.jumped (if B.toInt ≤ A.toInt then d else t.pc + 8)) ∧
    exec (.jpng d) t = .next (t.jumped (if A.toInt ≤ B.toInt then d else t.pc + 8)) ∧
    exec (.jpnl d) t = .next (t.jumped (if B.toInt ≤ A.toInt then d else t.pc + 8)) ∧
    exec (.jpe d) t = .next (t.jumped (if A = B then d else t.pc + 8)) ∧
    exec (.jpne d) t = .next (t.jumped (if A ≠ B then d else t.pc + 8)) ∧
    exec (.jple d) t = .next (t.jumped (if A.toInt ≤ B.toInt then d else t.pc + 8)) ∧
    exec (.jpge d) t = .next (t.jumped (if B.toInt ≤ A.toInt then d else t.pc + 8)) ∧
    exec (.jpo d) t = .next (t.jumped (if signedOk (A.toInt - B.toInt) then t.pc + 8 else d)) ∧
    exec (.jpno d) t = .next (t.jumped (if signedOk (A.toInt - B.toInt) then d else t.pc + 8)) ∧
    exec (.jpbc d) t = .next (t.jumped (if B.toNat % 16 ≤ A.toNat % 16 then d else t.pc + 8)) ∧
    exec (.jpnbc d) t = .next (t.jumped (if A.toNat % 16 < B.toNat % 16 then d else t.pc + 8)) ∧
    exec (.jpd d) t = .next (t.jumped (if s.st.df then d else t.pc + 8)) ∧
    exec (.jpnd d) t = .next (t.jumped (if s.st.df then t.pc + 8 else d)) ∧
    (s.config.jppJpnSense = .asTabulated →
      exec (.jpp d) t = .next (t.jumped (if (A - B).msb then d else t.pc + 8)) ∧
      exec (.jpn d) t = .next (t.jumped (if (A - B).msb then t.pc + 8 else d))) ∧
    (s.config.jppJpnSense = .asNamed →
      exec (.jpp d) t = .next (t.jumped (if (A - B).msb then t.pc + 8 else d)) ∧
      exec (.jpn d) t = .next (t.jumped (if (A - B).msb then d else t.pc + 8)))

/-- O52. R211 to R218, bit by bit. -/
def Obligations.BitResults : Prop :=
  ∀ (s : State) (n a : Reg) (k : Byte),
    let q := (s.reg a).toNat
    (k.toNat ≤ 31 →
      exec (.bit n k) s =
        .next { s with st := { s.st with zf := !(s.reg n).getLsbD k.toNat }, pc := s.pc + 8 } ∧
      (∃ r : Word, exec (.set n k) s = .next (s.after n r s.st) ∧
        ∀ j, r.getLsbD j = if j = k.toNat then true else (s.reg n).getLsbD j) ∧
      (∃ r : Word, exec (.clr n k) s = .next (s.after n r s.st) ∧
        ∀ j, r.getLsbD j = if j = k.toNat then false else (s.reg n).getLsbD j) ∧
      (∃ r : Word, exec (.bzf n k) s = .next (s.after n r s.st) ∧
        ∀ j, r.getLsbD j = if j = k.toNat then !s.st.zf else (s.reg n).getLsbD j)) ∧
    (q ≤ 31 →
      exec (.bitr n a) s = .next { s with st := { s.st with zf := !(s.reg n).getLsbD q }, pc := s.pc + 8 } ∧
      (∃ r : Word, exec (.setr n a) s = .next (s.after n r s.st) ∧
        ∀ j, r.getLsbD j = if j = q then true else (s.reg n).getLsbD j) ∧
      (∃ r : Word, exec (.clrr n a) s = .next (s.after n r s.st) ∧
        ∀ j, r.getLsbD j = if j = q then false else (s.reg n).getLsbD j) ∧
      (∃ r : Word, exec (.bzfr n a) s = .next (s.after n r s.st) ∧
        ∀ j, r.getLsbD j = if j = q then !s.st.zf else (s.reg n).getLsbD j))

/-- O53. "If k > 31 the instruction raise Fault(BitIndexRange, k)" (R210). -/
def Obligations.BitNumbersAbove31Fault : Prop :=
  ∀ (s : State) (n a : Reg) (k : Byte),
    (31 < k.toNat → exec (.bit n k) s = .fault (.bitIndexRange k.toNat) ∧
      exec (.set n k) s = .fault (.bitIndexRange k.toNat) ∧ exec (.clr n k) s = .fault (.bitIndexRange k.toNat) ∧
      exec (.bzf n k) s = .fault (.bitIndexRange k.toNat)) ∧
    (31 < (s.reg a).toNat → exec (.bitr n a) s = .fault (.bitIndexRange (s.reg a).toNat) ∧
      exec (.setr n a) s = .fault (.bitIndexRange (s.reg a).toNat) ∧
      exec (.clrr n a) s = .fault (.bitIndexRange (s.reg a).toNat) ∧
      exec (.bzfr n a) s = .fault (.bitIndexRange (s.reg a).toNat))

/-- O54. The corner case of R217. -/
def Obligations.BitThenBzfCopiesABit : Prop :=
  ∀ (s : State) (a b : Reg) (i j : Byte), i.toNat ≤ 31 → j.toNat ≤ 31 →
    ∃ t u, exec (.bit a i) s = .next t ∧ exec (.bzf b j) t = .next u ∧
      (u.reg b).getLsbD j.toNat = (s.reg a).getLsbD i.toNat ∧
      (∀ k, k ≠ j.toNat → (u.reg b).getLsbD k = (s.reg b).getLsbD k) ∧ (∀ r, r ≠ b → u.reg r = s.reg r)

/-- O55. R220 to R222. That the coming answers are a list with a free value behind it is the model's form (log entry 14). -/
def Obligations.PortAccesses : Prop :=
  ∀ (s : State) (n : Reg) (p v : Word),
    exec (.out n p) s =
      .next { s with portLog := s.portLog ++ [.write p (s.reg n)],
                     portHistory := s.portHistory ++ [.write p (s.reg n)], pc := s.pc + 8 } ∧
    exec (.inp n p) s =
      .next { s with regs := s.regs.set n (s.portAnswer p), portLog := s.portLog ++ [.read p (s.portAnswer p)],
                     portHistory := s.portHistory ++ [.read p (s.portAnswer p)], portInputs := s.portInputs.tail, pc := s.pc + 8 } ∧
    (∀ rest t, s.portInputs = v :: rest → exec (.inp n p) s = .next t →
      t.reg n = v ∧ t.portInputs = rest ∧ t.st = s.st)

/-- O56. R230, R231. -/
def Obligations.CheckpointAndBreakpoint : Prop :=
  ∀ (s : State) (m : Word),
    exec (.checkpoint m) s = .next { s with display := s.display ++ [.checkpoint (s.message m)], pc := s.pc + 8 } ∧
    exec (.chk m) s = .next { s with display := s.display ++ [.checkpoint (s.message m)], pc := s.pc + 8 } ∧
    exec .breakpoint s =
      .next { s with display := s.display ++ [.breakpoint s.pc], run := .breakStopped, pc := s.pc + 8 } ∧
    exec .brk s =
      .next { s with display := s.display ++ [.breakpoint s.pc], run := .breakStopped, pc := s.pc + 8 }

/-- O57. R231 with the rows of R256 for Confirm, over waits of any length. The idle entries (log entry 13), the steps of a stopped machine (log entry 12) and the pc as what the breakpoint displays (log entry 17) are the model's form. -/
def Obligations.BreakpointResumesAfterConfirm : Prop :=
  ∀ (s t : State) (k : Nat) (rest : List HostEvent), exec .breakpoint s = .next t →
    s.hostEvents = List.replicate k .idle ++ .confirm :: rest →
    (∀ j ≤ k, Host.Core.run Sys2Proof.core j t =
      .next { s with display := s.display ++ [.breakpoint s.pc], run := .breakStopped, pc := s.pc + 8,
                     hostEvents := List.replicate (k - j) .idle ++ .confirm :: rest }) ∧
    Host.Core.run Sys2Proof.core (k + 1) t =
      .next { s with display := s.display ++ [.breakpoint s.pc], run := .running, pc := s.pc + 8, hostEvents := rest }

/-- O58. R232; the premise is a parameter (log entry 18). -/
def Obligations.PragmaInBothReadings : Prop :=
  ∀ (s : State) (m : Word),
    (s.config.pragma = .noEffect →
      exec (.pragma m) s = .next { s with display := s.display ++ [.pragma (s.message m)], pc := s.pc + 8 }) ∧
    (s.config.pragma = .refuse → exec (.pragma m) s = .fault (.refused s.pc))

/-- O59. The table of R242 over every instruction; with R248 no instruction depends on a mode. (A store's own reads of registers never fault: log entry 3.) -/
def Obligations.ExecutionNeedsNoPrivilege : Prop :=
  (∀ (i : Instr) (s : State) (r : Refusal), exec i s ≠ .refused r) ∧
  (∀ (i : Instr) (s : State) (f : Fault), exec i s = .fault f →
    match f with
    | .misaligned _ | .busError _ =>
      (∃ n v, i = .ld n v ∨ i = .st n v) ∨ (∃ n a, i = .ldr n a ∨ i = .str n a) ∨
        (∃ n, i = .push n ∨ i = .pop n ∨ i = .sbra n) ∨ (∃ d, i = .call d) ∨
        i ∈ [.pushsta, .popsta, .pusha, .popa, .ret]
    | .unwritten _ =>
      (∃ n v, i = .ld n v) ∨ (∃ n a, i = .ldr n a) ∨ (∃ n, i = .pop n) ∨ i ∈ [.popsta, .popa, .ret]
    | .bitIndexRange k =>
      31 < k ∧ ((∃ n b, i = .bit n b ∨ i = .set n b ∨ i = .clr n b ∨ i = .bzf n b) ∨
        ∃ n a, i = .bitr n a ∨ i = .setr n a ∨ i = .clrr n a ∨ i = .bzfr n a)
    | .refused p => p = s.pc ∧ ∃ m, i = .pragma m
    | .illegalInstruction _ => False)

/-- O60. R257. The host's list is log entry 13. -/
def Obligations.RunsEndOnlyWhereHaltExecutes : Prop :=
  (∀ s : State, s.starts →
    s.run = .running ∧ s.pc = 0 ∧ s.mem = s.config.memInit ∧ s.display = [] ∧ s.portLog = []) ∧
  (∀ (c : Config) (v : ResetValues), (State.boot c v).starts) ∧
  (∀ (s : State) (v : ResetValues) (rest : List HostEvent), s.hostEvents = .reset v :: rest →
    ∃ t, step s = .next t ∧ t.starts) ∧
  (∀ (k j : Nat) (s t u : State), endsIn k s t → endsIn j s u → k = j ∧ t = u) ∧
  (∀ (k j : Nat) (s t u : State), endsIn k s t → runsTo j s u → j ≤ k ∧ u.unfaulted = true) ∧
  (∀ (k : Nat) (s t : State), endsIn k s t →
    Host.Core.run Sys2Proof.core k s = .next t ∧
    ∃ (j : Nat) (u v : State) (m : Word), k = j + 1 ∧ runsTo j s u ∧ u.run = .running ∧ u.yieldsTo v ∧
      v.fetch = .ok (.halt m) ∧
      t = { v with display := v.display ++ [.halt (v.message m)], run := .halted, pc := v.pc + 8 }) ∧
  (∀ (j : Nat) (s u : State), runsTo j s u → u.run = .running → u.fetch = .ok (.jmp u.pc) →
    (∀ v, HostEvent.reset v ∉ u.hostEvents) → ∀ (k : Nat) (t : State), ¬ endsIn k s t)
end

