-- ==== Sys2Proof/Laws/State.lean ====
section
/-! SUPPORT. The state and its named updates: one lemma for each field and each update, so that no proof unfolds an update. -/

namespace Sys2Proof.Machine

/-! ## Registers -/

/-- Reading back: the written register has the value, every other its old one. -/
theorem Regs.get_set (r : Regs) (i j : Reg) (v : Word) : (r.set i v).get j = if j = i then v else r.get j := by
  cases i <;> cases j <;> rfl

@[simp] theorem Regs.get_set_same (r : Regs) (i : Reg) (v : Word) : (r.set i v).get i = v := by
  cases i <;> rfl

theorem Regs.get_set_of_ne (r : Regs) {i j : Reg} (v : Word) (h : j ≠ i) : (r.set i v).get j = r.get j := by
  rw [Regs.get_set, if_neg h]

@[simp] theorem State.reg_setReg (s : State) (i j : Reg) (v : Word) :
    (s.setReg i v).reg j = if j = i then v else s.reg j :=
  Regs.get_set s.regs i j v

/-- A register is read from the register file alone. -/
theorem State.reg_congr {s t : State} (h : t.regs = s.regs) (i : Reg) : t.reg i = s.reg i := by
  simp only [State.reg, h]

@[simp] theorem State.nextPc_eq (s : State) : s.nextPc = s.pc + 8 := rfl

/-! ## setReg -/

@[simp] theorem State.setReg_regs (s : State) (i : Reg) (v : Word) : (s.setReg i v).regs = s.regs.set i v := rfl
@[simp] theorem State.setReg_sp (s : State) (i : Reg) (v : Word) : (s.setReg i v).sp = s.sp := rfl
@[simp] theorem State.setReg_pc (s : State) (i : Reg) (v : Word) : (s.setReg i v).pc = s.pc := rfl
@[simp] theorem State.setReg_st (s : State) (i : Reg) (v : Word) : (s.setReg i v).st = s.st := rfl
@[simp] theorem State.setReg_mem (s : State) (i : Reg) (v : Word) : (s.setReg i v).mem = s.mem := rfl
@[simp] theorem State.setReg_run (s : State) (i : Reg) (v : Word) : (s.setReg i v).run = s.run := rfl
@[simp] theorem State.setReg_display (s : State) (i : Reg) (v : Word) : (s.setReg i v).display = s.display := rfl
@[simp] theorem State.setReg_portLog (s : State) (i : Reg) (v : Word) : (s.setReg i v).portLog = s.portLog := rfl
@[simp] theorem State.setReg_portHistory (s : State) (i : Reg) (v : Word) : (s.setReg i v).portHistory = s.portHistory := rfl
@[simp] theorem State.setReg_portInputs (s : State) (i : Reg) (v : Word) : (s.setReg i v).portInputs = s.portInputs := rfl
@[simp] theorem State.setReg_hostEvents (s : State) (i : Reg) (v : Word) : (s.setReg i v).hostEvents = s.hostEvents := rfl
@[simp] theorem State.setReg_config (s : State) (i : Reg) (v : Word) : (s.setReg i v).config = s.config := rfl

/-! ## setSp -/

@[simp] theorem State.setSp_regs (s : State) (v : Word) : (s.setSp v).regs = s.regs := rfl
@[simp] theorem State.setSp_sp (s : State) (v : Word) : (s.setSp v).sp = v := rfl
@[simp] theorem State.setSp_pc (s : State) (v : Word) : (s.setSp v).pc = s.pc := rfl
@[simp] theorem State.setSp_st (s : State) (v : Word) : (s.setSp v).st = s.st := rfl
@[simp] theorem State.setSp_mem (s : State) (v : Word) : (s.setSp v).mem = s.mem := rfl
@[simp] theorem State.setSp_run (s : State) (v : Word) : (s.setSp v).run = s.run := rfl
@[simp] theorem State.setSp_display (s : State) (v : Word) : (s.setSp v).display = s.display := rfl
@[simp] theorem State.setSp_portLog (s : State) (v : Word) : (s.setSp v).portLog = s.portLog := rfl
@[simp] theorem State.setSp_portHistory (s : State) (v : Word) : (s.setSp v).portHistory = s.portHistory := rfl
@[simp] theorem State.setSp_portInputs (s : State) (v : Word) : (s.setSp v).portInputs = s.portInputs := rfl
@[simp] theorem State.setSp_hostEvents (s : State) (v : Word) : (s.setSp v).hostEvents = s.hostEvents := rfl
@[simp] theorem State.setSp_config (s : State) (v : Word) : (s.setSp v).config = s.config := rfl
@[simp] theorem State.setSp_reg (s : State) (v : Word) (j : Reg) : (s.setSp v).reg j = s.reg j := rfl

/-! ## setPc -/

@[simp] theorem State.setPc_regs (s : State) (v : Word) : (s.setPc v).regs = s.regs := rfl
@[simp] theorem State.setPc_sp (s : State) (v : Word) : (s.setPc v).sp = s.sp := rfl
@[simp] theorem State.setPc_pc (s : State) (v : Word) : (s.setPc v).pc = v := rfl
@[simp] theorem State.setPc_st (s : State) (v : Word) : (s.setPc v).st = s.st := rfl
@[simp] theorem State.setPc_mem (s : State) (v : Word) : (s.setPc v).mem = s.mem := rfl
@[simp] theorem State.setPc_run (s : State) (v : Word) : (s.setPc v).run = s.run := rfl
@[simp] theorem State.setPc_display (s : State) (v : Word) : (s.setPc v).display = s.display := rfl
@[simp] theorem State.setPc_portLog (s : State) (v : Word) : (s.setPc v).portLog = s.portLog := rfl
@[simp] theorem State.setPc_portHistory (s : State) (v : Word) : (s.setPc v).portHistory = s.portHistory := rfl
@[simp] theorem State.setPc_portInputs (s : State) (v : Word) : (s.setPc v).portInputs = s.portInputs := rfl
@[simp] theorem State.setPc_hostEvents (s : State) (v : Word) : (s.setPc v).hostEvents = s.hostEvents := rfl
@[simp] theorem State.setPc_config (s : State) (v : Word) : (s.setPc v).config = s.config := rfl
@[simp] theorem State.setPc_reg (s : State) (v : Word) (j : Reg) : (s.setPc v).reg j = s.reg j := rfl

/-! ## setSt -/

@[simp] theorem State.setSt_regs (s : State) (f : Flags) : (s.setSt f).regs = s.regs := rfl
@[simp] theorem State.setSt_sp (s : State) (f : Flags) : (s.setSt f).sp = s.sp := rfl
@[simp] theorem State.setSt_pc (s : State) (f : Flags) : (s.setSt f).pc = s.pc := rfl
@[simp] theorem State.setSt_st (s : State) (f : Flags) : (s.setSt f).st = f := rfl
@[simp] theorem State.setSt_mem (s : State) (f : Flags) : (s.setSt f).mem = s.mem := rfl
@[simp] theorem State.setSt_run (s : State) (f : Flags) : (s.setSt f).run = s.run := rfl
@[simp] theorem State.setSt_display (s : State) (f : Flags) : (s.setSt f).display = s.display := rfl
@[simp] theorem State.setSt_portLog (s : State) (f : Flags) : (s.setSt f).portLog = s.portLog := rfl
@[simp] theorem State.setSt_portHistory (s : State) (f : Flags) : (s.setSt f).portHistory = s.portHistory := rfl
@[simp] theorem State.setSt_portInputs (s : State) (f : Flags) : (s.setSt f).portInputs = s.portInputs := rfl
@[simp] theorem State.setSt_hostEvents (s : State) (f : Flags) : (s.setSt f).hostEvents = s.hostEvents := rfl
@[simp] theorem State.setSt_config (s : State) (f : Flags) : (s.setSt f).config = s.config := rfl
@[simp] theorem State.setSt_reg (s : State) (f : Flags) (j : Reg) : (s.setSt f).reg j = s.reg j := rfl

/-! ## advance -/

@[simp] theorem State.advance_regs (s : State) : s.advance.regs = s.regs := rfl
@[simp] theorem State.advance_sp (s : State) : s.advance.sp = s.sp := rfl
@[simp] theorem State.advance_pc (s : State) : s.advance.pc = s.pc + 8 := rfl
@[simp] theorem State.advance_st (s : State) : s.advance.st = s.st := rfl
@[simp] theorem State.advance_mem (s : State) : s.advance.mem = s.mem := rfl
@[simp] theorem State.advance_run (s : State) : s.advance.run = s.run := rfl
@[simp] theorem State.advance_display (s : State) : s.advance.display = s.display := rfl
@[simp] theorem State.advance_portLog (s : State) : s.advance.portLog = s.portLog := rfl
@[simp] theorem State.advance_portHistory (s : State) : s.advance.portHistory = s.portHistory := rfl
@[simp] theorem State.advance_portInputs (s : State) : s.advance.portInputs = s.portInputs := rfl
@[simp] theorem State.advance_hostEvents (s : State) : s.advance.hostEvents = s.hostEvents := rfl
@[simp] theorem State.advance_config (s : State) : s.advance.config = s.config := rfl
@[simp] theorem State.advance_reg (s : State) (j : Reg) : s.advance.reg j = s.reg j := rfl

/-! ## storeWord -/

@[simp] theorem State.storeWord_regs (s : State) (a v : Word) : (s.storeWord a v).regs = s.regs := rfl
@[simp] theorem State.storeWord_sp (s : State) (a v : Word) : (s.storeWord a v).sp = s.sp := rfl
@[simp] theorem State.storeWord_pc (s : State) (a v : Word) : (s.storeWord a v).pc = s.pc := rfl
@[simp] theorem State.storeWord_st (s : State) (a v : Word) : (s.storeWord a v).st = s.st := rfl
@[simp] theorem State.storeWord_mem (s : State) (a v : Word) : (s.storeWord a v).mem = s.mem.setWord a.toNat v := rfl
@[simp] theorem State.storeWord_run (s : State) (a v : Word) : (s.storeWord a v).run = s.run := rfl
@[simp] theorem State.storeWord_display (s : State) (a v : Word) : (s.storeWord a v).display = s.display := rfl
@[simp] theorem State.storeWord_portLog (s : State) (a v : Word) : (s.storeWord a v).portLog = s.portLog := rfl
@[simp] theorem State.storeWord_portHistory (s : State) (a v : Word) : (s.storeWord a v).portHistory = s.portHistory := rfl
@[simp] theorem State.storeWord_portInputs (s : State) (a v : Word) : (s.storeWord a v).portInputs = s.portInputs := rfl
@[simp] theorem State.storeWord_hostEvents (s : State) (a v : Word) : (s.storeWord a v).hostEvents = s.hostEvents := rfl
@[simp] theorem State.storeWord_config (s : State) (a v : Word) : (s.storeWord a v).config = s.config := rfl
@[simp] theorem State.storeWord_reg (s : State) (a v : Word) (j : Reg) : (s.storeWord a v).reg j = s.reg j := rfl

/-! ## displayed -/

@[simp] theorem State.displayed_regs (s : State) (e : DisplayEvent) : (s.displayed e).regs = s.regs := rfl
@[simp] theorem State.displayed_sp (s : State) (e : DisplayEvent) : (s.displayed e).sp = s.sp := rfl
@[simp] theorem State.displayed_pc (s : State) (e : DisplayEvent) : (s.displayed e).pc = s.pc := rfl
@[simp] theorem State.displayed_st (s : State) (e : DisplayEvent) : (s.displayed e).st = s.st := rfl
@[simp] theorem State.displayed_mem (s : State) (e : DisplayEvent) : (s.displayed e).mem = s.mem := rfl
@[simp] theorem State.displayed_run (s : State) (e : DisplayEvent) : (s.displayed e).run = s.run := rfl
@[simp] theorem State.displayed_display (s : State) (e : DisplayEvent) : (s.displayed e).display = s.display ++ [e] := rfl
@[simp] theorem State.displayed_portLog (s : State) (e : DisplayEvent) : (s.displayed e).portLog = s.portLog := rfl
@[simp] theorem State.displayed_portHistory (s : State) (e : DisplayEvent) : (s.displayed e).portHistory = s.portHistory := rfl
@[simp] theorem State.displayed_portInputs (s : State) (e : DisplayEvent) : (s.displayed e).portInputs = s.portInputs := rfl
@[simp] theorem State.displayed_hostEvents (s : State) (e : DisplayEvent) : (s.displayed e).hostEvents = s.hostEvents := rfl
@[simp] theorem State.displayed_config (s : State) (e : DisplayEvent) : (s.displayed e).config = s.config := rfl
@[simp] theorem State.displayed_reg (s : State) (e : DisplayEvent) (j : Reg) : (s.displayed e).reg j = s.reg j := rfl

/-! ## portWrite -/

@[simp] theorem State.portWrite_regs (s : State) (p v : Word) : (s.portWrite p v).regs = s.regs := rfl
@[simp] theorem State.portWrite_sp (s : State) (p v : Word) : (s.portWrite p v).sp = s.sp := rfl
@[simp] theorem State.portWrite_pc (s : State) (p v : Word) : (s.portWrite p v).pc = s.pc := rfl
@[simp] theorem State.portWrite_st (s : State) (p v : Word) : (s.portWrite p v).st = s.st := rfl
@[simp] theorem State.portWrite_mem (s : State) (p v : Word) : (s.portWrite p v).mem = s.mem := rfl
@[simp] theorem State.portWrite_run (s : State) (p v : Word) : (s.portWrite p v).run = s.run := rfl
@[simp] theorem State.portWrite_display (s : State) (p v : Word) : (s.portWrite p v).display = s.display := rfl
@[simp] theorem State.portWrite_portLog (s : State) (p v : Word) : (s.portWrite p v).portLog = s.portLog ++ [.write p v] := rfl
@[simp] theorem State.portWrite_portHistory (s : State) (p v : Word) : (s.portWrite p v).portHistory = s.portHistory ++ [.write p v] := rfl
@[simp] theorem State.portWrite_portInputs (s : State) (p v : Word) : (s.portWrite p v).portInputs = s.portInputs := rfl
@[simp] theorem State.portWrite_hostEvents (s : State) (p v : Word) : (s.portWrite p v).hostEvents = s.hostEvents := rfl
@[simp] theorem State.portWrite_config (s : State) (p v : Word) : (s.portWrite p v).config = s.config := rfl
@[simp] theorem State.portWrite_reg (s : State) (p v : Word) (j : Reg) : (s.portWrite p v).reg j = s.reg j := rfl

/-! ## portRead -/

@[simp] theorem State.portRead_regs (s : State) (p : Word) : (s.portRead p).regs = s.regs := rfl
@[simp] theorem State.portRead_sp (s : State) (p : Word) : (s.portRead p).sp = s.sp := rfl
@[simp] theorem State.portRead_pc (s : State) (p : Word) : (s.portRead p).pc = s.pc := rfl
@[simp] theorem State.portRead_st (s : State) (p : Word) : (s.portRead p).st = s.st := rfl
@[simp] theorem State.portRead_mem (s : State) (p : Word) : (s.portRead p).mem = s.mem := rfl
@[simp] theorem State.portRead_run (s : State) (p : Word) : (s.portRead p).run = s.run := rfl
@[simp] theorem State.portRead_display (s : State) (p : Word) : (s.portRead p).display = s.display := rfl
@[simp] theorem State.portRead_portLog (s : State) (p : Word) : (s.portRead p).portLog = s.portLog ++ [.read p (s.portAnswer p)] := rfl
@[simp] theorem State.portRead_portHistory (s : State) (p : Word) : (s.portRead p).portHistory = s.portHistory ++ [.read p (s.portAnswer p)] := rfl
@[simp] theorem State.portRead_portInputs (s : State) (p : Word) : (s.portRead p).portInputs = s.portInputs.tail := rfl
@[simp] theorem State.portRead_hostEvents (s : State) (p : Word) : (s.portRead p).hostEvents = s.hostEvents := rfl
@[simp] theorem State.portRead_config (s : State) (p : Word) : (s.portRead p).config = s.config := rfl
@[simp] theorem State.portRead_reg (s : State) (p : Word) (j : Reg) : (s.portRead p).reg j = s.reg j := rfl

/-! ## recorded -/

@[simp] theorem State.recorded_regs (s : State) (e : PortEvent) : (s.recorded e).regs = s.regs := rfl
@[simp] theorem State.recorded_sp (s : State) (e : PortEvent) : (s.recorded e).sp = s.sp := rfl
@[simp] theorem State.recorded_pc (s : State) (e : PortEvent) : (s.recorded e).pc = s.pc := rfl
@[simp] theorem State.recorded_st (s : State) (e : PortEvent) : (s.recorded e).st = s.st := rfl
@[simp] theorem State.recorded_mem (s : State) (e : PortEvent) : (s.recorded e).mem = s.mem := rfl
@[simp] theorem State.recorded_run (s : State) (e : PortEvent) : (s.recorded e).run = s.run := rfl
@[simp] theorem State.recorded_display (s : State) (e : PortEvent) : (s.recorded e).display = s.display := rfl
@[simp] theorem State.recorded_portLog (s : State) (e : PortEvent) : (s.recorded e).portLog = s.portLog ++ [e] := rfl
@[simp] theorem State.recorded_portHistory (s : State) (e : PortEvent) : (s.recorded e).portHistory = s.portHistory ++ [e] := rfl
@[simp] theorem State.recorded_portInputs (s : State) (e : PortEvent) : (s.recorded e).portInputs = s.portInputs := rfl
@[simp] theorem State.recorded_hostEvents (s : State) (e : PortEvent) : (s.recorded e).hostEvents = s.hostEvents := rfl
@[simp] theorem State.recorded_config (s : State) (e : PortEvent) : (s.recorded e).config = s.config := rfl
@[simp] theorem State.recorded_reg (s : State) (e : PortEvent) (j : Reg) : (s.recorded e).reg j = s.reg j := rfl

/-! ## setRun -/

@[simp] theorem State.setRun_regs (s : State) (r : RunState) : (s.setRun r).regs = s.regs := rfl
@[simp] theorem State.setRun_sp (s : State) (r : RunState) : (s.setRun r).sp = s.sp := rfl
@[simp] theorem State.setRun_pc (s : State) (r : RunState) : (s.setRun r).pc = s.pc := rfl
@[simp] theorem State.setRun_st (s : State) (r : RunState) : (s.setRun r).st = s.st := rfl
@[simp] theorem State.setRun_mem (s : State) (r : RunState) : (s.setRun r).mem = s.mem := rfl
@[simp] theorem State.setRun_run (s : State) (r : RunState) : (s.setRun r).run = r := rfl
@[simp] theorem State.setRun_display (s : State) (r : RunState) : (s.setRun r).display = s.display := rfl
@[simp] theorem State.setRun_portLog (s : State) (r : RunState) : (s.setRun r).portLog = s.portLog := rfl
@[simp] theorem State.setRun_portHistory (s : State) (r : RunState) : (s.setRun r).portHistory = s.portHistory := rfl
@[simp] theorem State.setRun_portInputs (s : State) (r : RunState) : (s.setRun r).portInputs = s.portInputs := rfl
@[simp] theorem State.setRun_hostEvents (s : State) (r : RunState) : (s.setRun r).hostEvents = s.hostEvents := rfl
@[simp] theorem State.setRun_config (s : State) (r : RunState) : (s.setRun r).config = s.config := rfl
@[simp] theorem State.setRun_reg (s : State) (r : RunState) (j : Reg) : (s.setRun r).reg j = s.reg j := rfl

/-! ## raise -/

@[simp] theorem State.raise_regs (s : State) (f : Fault) : (s.raise f).regs = s.regs := rfl
@[simp] theorem State.raise_sp (s : State) (f : Fault) : (s.raise f).sp = s.sp := rfl
@[simp] theorem State.raise_pc (s : State) (f : Fault) : (s.raise f).pc = s.pc := rfl
@[simp] theorem State.raise_st (s : State) (f : Fault) : (s.raise f).st = s.st := rfl
@[simp] theorem State.raise_mem (s : State) (f : Fault) : (s.raise f).mem = s.mem := rfl
@[simp] theorem State.raise_run (s : State) (f : Fault) : (s.raise f).run = .faulted f s.pc := rfl
@[simp] theorem State.raise_display (s : State) (f : Fault) : (s.raise f).display = s.display := rfl
@[simp] theorem State.raise_portLog (s : State) (f : Fault) : (s.raise f).portLog = s.portLog := rfl
@[simp] theorem State.raise_portHistory (s : State) (f : Fault) : (s.raise f).portHistory = s.portHistory := rfl
@[simp] theorem State.raise_portInputs (s : State) (f : Fault) : (s.raise f).portInputs = s.portInputs := rfl
@[simp] theorem State.raise_hostEvents (s : State) (f : Fault) : (s.raise f).hostEvents = s.hostEvents := rfl
@[simp] theorem State.raise_config (s : State) (f : Fault) : (s.raise f).config = s.config := rfl
@[simp] theorem State.raise_reg (s : State) (f : Fault) (j : Reg) : (s.raise f).reg j = s.reg j := rfl

/-! ## hostReset -/

@[simp] theorem State.hostReset_regs (s : State) (v : ResetValues) : (s.hostReset v).regs = ⟨v.r1, v.r2, v.r3, v.r4, v.r5, v.r6⟩ := rfl
@[simp] theorem State.hostReset_sp (s : State) (v : ResetValues) : (s.hostReset v).sp = v.sp := rfl
@[simp] theorem State.hostReset_pc (s : State) (v : ResetValues) : (s.hostReset v).pc = 0 := rfl
@[simp] theorem State.hostReset_st (s : State) (v : ResetValues) : (s.hostReset v).st = ⟨v.st.getLsbD 5, v.st.getLsbD 4, v.st.getLsbD 3, v.st.getLsbD 2, v.st.getLsbD 1, v.st.getLsbD 0⟩ := rfl
@[simp] theorem State.hostReset_mem (s : State) (v : ResetValues) : (s.hostReset v).mem = s.config.memInit := rfl
@[simp] theorem State.hostReset_run (s : State) (v : ResetValues) : (s.hostReset v).run = .running := rfl
@[simp] theorem State.hostReset_display (s : State) (v : ResetValues) : (s.hostReset v).display = [] := rfl
@[simp] theorem State.hostReset_portLog (s : State) (v : ResetValues) : (s.hostReset v).portLog = [] := rfl
@[simp] theorem State.hostReset_portHistory (s : State) (v : ResetValues) : (s.hostReset v).portHistory = s.portHistory := rfl
@[simp] theorem State.hostReset_portInputs (s : State) (v : ResetValues) : (s.hostReset v).portInputs = s.portInputs := rfl
@[simp] theorem State.hostReset_hostEvents (s : State) (v : ResetValues) : (s.hostReset v).hostEvents = s.hostEvents := rfl
@[simp] theorem State.hostReset_config (s : State) (v : ResetValues) : (s.hostReset v).config = s.config := rfl

end Sys2Proof.Machine
end

