-- ==== Sys2Proof/Laws/Memory.lean ====
section
/-! SUPPORT. Memory: what a write changes and what it leaves, in every memory (sorted or not); the canonical form kept by every
write; the spec of each access. -/

namespace Sys2Proof.Machine

/-! ## One byte -/

/-- A byte after a write: the value at the address written, the old byte everywhere else. -/
@[simp] theorem Memory.byte?_setByte (m : Memory) (a b : Nat) (v : Byte) :
    (m.setByte a v).byte? b = if b = a then some v else m.byte? b := by
  induction m with
  | nil => simp only [Memory.setByte, Memory.byte?, eq_comm]
  | cons c m ih =>
    obtain ⟨d, w⟩ := c
    simp only [Memory.setByte]
    split
    · simp only [Memory.byte?, eq_comm (a := b)]
    · split
      · next h => subst h; simp only [Memory.byte?, eq_comm (a := b)]; split <;> rfl
      · simp only [Memory.byte?, ih]
        split
        · next h1 h2 => subst h2; rw [if_neg (by omega)]
        · rfl

/-- What setByte lists: the new pair, or an old one. -/
theorem Memory.mem_setByte {m : Memory} {a : Nat} {v : Byte} {c : Host.Cell} (h : c ∈ m.setByte a v) :
    c = (a, v) ∨ c ∈ m := by
  induction m with
  | nil => simpa [Memory.setByte] using h
  | cons d m ih =>
    obtain ⟨e, w⟩ := d
    simp only [Memory.setByte] at h
    split at h
    · simpa using h
    · split at h
      · simp only [List.mem_cons] at h ⊢; tauto
      · simp only [List.mem_cons] at h ⊢
        rcases h with h | h
        · exact .inr (.inl h)
        · exact (ih h).imp id .inr

/-- A write inside the address space keeps the canonical form. -/
theorem Memory.wf_setByte {m : Memory} {a : Nat} (v : Byte) (h : Memory.wf m) (ha : a < 4294967296) :
    Memory.wf (m.setByte a v) := by
  refine ⟨?_, fun c hc => ?_⟩
  · obtain ⟨hp, -⟩ := h
    induction m with
    | nil => simp [Memory.setByte]
    | cons d m ih =>
      obtain ⟨e, w⟩ := d
      rw [List.pairwise_cons] at hp
      simp only [Memory.setByte]
      split
      · next hlt =>
        refine List.pairwise_cons.mpr ⟨fun c hc => ?_, List.pairwise_cons.mpr hp⟩
        rcases List.mem_cons.mp hc with rfl | hc
        · exact hlt
        · exact lt_trans hlt (hp.1 c hc)
      · split
        · next heq => subst heq; exact List.pairwise_cons.mpr hp
        · refine List.pairwise_cons.mpr ⟨fun c hc => ?_, ih hp.2⟩
          rcases Memory.mem_setByte hc with rfl | hc
          · show e < a
            omega
          · exact hp.1 c hc
  · rcases Memory.mem_setByte hc with rfl | hc
    · exact ha
    · exact h.2 c hc

/-! ## One word -/

/-- A byte after a word is written: Byte i of the word at the i-th of its four addresses, the old byte elsewhere. -/
theorem Memory.byte?_setWord (m : Memory) (a b : Nat) (v : Word) :
    (m.setWord a v).byte? b =
      if b = a + 3 then some (byteOf v 3) else if b = a + 2 then some (byteOf v 2)
      else if b = a + 1 then some (byteOf v 1) else if b = a then some (byteOf v 0) else m.byte? b := by
  simp only [Memory.setWord, Memory.byte?_setByte]

/-- A word written leaves every byte outside it as it was. -/
theorem Memory.byte?_setWord_of_outside (m : Memory) {a b : Nat} (v : Word) (h : b < a ∨ a + 4 ≤ b) :
    (m.setWord a v).byte? b = m.byte? b := by
  rw [Memory.byte?_setWord, if_neg (by omega), if_neg (by omega), if_neg (by omega), if_neg (by omega)]

/-- The bytes of a word put together again. -/
@[simp] theorem wordOf_byteOf (v : Word) : wordOf (byteOf v 0) (byteOf v 1) (byteOf v 2) (byteOf v 3) = v := by
  apply BitVec.eq_of_getLsbD_eq
  intro i hi
  simp only [wordOf, byteOf, BitVec.getLsbD_append, BitVec.getLsbD_extractLsb']
  split
  · simp; omega
  · split
    · rw [show 8 * 1 + (i - 8) = i by omega]; simp; omega
    · split
      · rw [show 8 * 2 + (i - 8 - 8) = i by omega]; simp; omega
      · rw [show 8 * 3 + (i - 8 - 8 - 8) = i by omega]; simp; omega

/-- The bytes of a word that four bytes make up. -/
theorem byteOf_wordOf (b0 b1 b2 b3 : Byte) :
    byteOf (wordOf b0 b1 b2 b3) 0 = b0 ∧ byteOf (wordOf b0 b1 b2 b3) 1 = b1 ∧
    byteOf (wordOf b0 b1 b2 b3) 2 = b2 ∧ byteOf (wordOf b0 b1 b2 b3) 3 = b3 := by
  refine ⟨?_, ?_, ?_, ?_⟩ <;>
  · apply BitVec.eq_of_getLsbD_eq
    intro i hi
    simp only [wordOf, byteOf, BitVec.getLsbD_append, BitVec.getLsbD_extractLsb']
    interval_cases i <;> simp

/-- A word reads as `v` exactly where its four bytes are those of `v`. -/
theorem Memory.word_eq_ok_iff (m : Memory) (a : Nat) (v : Word) :
    m.word a = .ok v ↔
      m.byte? a = some (byteOf v 0) ∧ m.byte? (a + 1) = some (byteOf v 1) ∧
      m.byte? (a + 2) = some (byteOf v 2) ∧ m.byte? (a + 3) = some (byteOf v 3) := by
  constructor
  · intro h
    simp only [Memory.word] at h
    split at h
    · cases h
    · next b0 h0 =>
      split at h
      · cases h
      · next b1 h1 =>
        split at h
        · cases h
        · next b2 h2 =>
          split at h
          · cases h
          · next b3 h3 =>
            obtain rfl : wordOf b0 b1 b2 b3 = v := by injection h
            obtain ⟨e0, e1, e2, e3⟩ := byteOf_wordOf b0 b1 b2 b3
            rw [e0, e1, e2, e3]
            exact ⟨h0, h1, h2, h3⟩
  · rintro ⟨h0, h1, h2, h3⟩
    simp only [Memory.word, h0, h1, h2, h3, wordOf_byteOf]

/-- A word that has just been written reads as it was written. -/
@[simp] theorem Memory.word_setWord (m : Memory) (a : Nat) (v : Word) : (m.setWord a v).word a = .ok v := by
  rw [Memory.word_eq_ok_iff]
  refine ⟨?_, ?_, ?_, ?_⟩ <;> rw [Memory.byte?_setWord] <;> simp

/-- A word disjoint from the one written reads as before. -/
theorem Memory.word_setWord_of_disjoint (m : Memory) {a b : Nat} (v : Word) (h : b + 4 ≤ a ∨ a + 4 ≤ b) :
    (m.setWord a v).word b = m.word b := by
  simp only [Memory.word]
  rw [Memory.byte?_setWord_of_outside m v (by omega), Memory.byte?_setWord_of_outside m v (by omega),
    Memory.byte?_setWord_of_outside m v (by omega), Memory.byte?_setWord_of_outside m v (by omega)]

/-- A word read depends only on its four bytes. -/
theorem Memory.word_congr {m n : Memory} {a : Nat} (h : ∀ b, a ≤ b → b < a + 4 → m.byte? b = n.byte? b) :
    m.word a = n.word a := by
  simp only [Memory.word]
  rw [h a (by omega) (by omega), h (a + 1) (by omega) (by omega), h (a + 2) (by omega) (by omega),
    h (a + 3) (by omega) (by omega)]

/-- An aligned word write keeps the canonical form. -/
theorem Memory.wf_setWord {m : Memory} {a : Nat} (v : Word) (h : Memory.wf m) (ha : a + 3 < 4294967296) :
    Memory.wf (m.setWord a v) := by
  unfold Memory.setWord
  exact Memory.wf_setByte _ (Memory.wf_setByte _ (Memory.wf_setByte _ (Memory.wf_setByte _ h (by omega)) (by omega))
    (by omega)) (by omega)

/-! ## The accesses of the machine -/

/-- The check of an address, in the order of R244: it passes exactly for a mapped multiple of 4. -/
theorem accessFault_eq_none_iff (c : Config) (a : Word) :
    accessFault c a = none ↔ a.toNat % 4 = 0 ∧ mapped c a = true := by
  unfold accessFault aligned
  by_cases h : a.toNat % 4 = 0 <;> by_cases h' : mapped c a = true <;> simp [h, h']

theorem accessFault_of_misaligned (c : Config) {a : Word} (h : a.toNat % 4 ≠ 0) :
    accessFault c a = some (.misaligned a) := by
  simp [accessFault, aligned, h]

theorem accessFault_of_unmapped (c : Config) {a : Word} (h : a.toNat % 4 = 0) (h' : mapped c a = false) :
    accessFault c a = some (.busError a) := by
  simp [accessFault, aligned, h, h']

/-- What a word address makes of a fault: misaligned, or aligned and unmapped; nothing else. -/
theorem accessFault_cases {c : Config} {a : Word} {f : Fault} (h : accessFault c a = some f) :
    (a.toNat % 4 ≠ 0 ∧ f = .misaligned a) ∨ (a.toNat % 4 = 0 ∧ mapped c a = false ∧ f = .busError a) := by
  unfold accessFault aligned at h
  by_cases h1 : a.toNat % 4 = 0 <;> by_cases h2 : mapped c a = true <;> simp_all

/-- An aligned address leaves room for its word. -/
theorem room_of_aligned {a : Word} (h : a.toNat % 4 = 0) : a.toNat + 3 < 4294967296 := by
  have := a.isLt
  omega

/-- MemRead, once for all: it answers `v` exactly where the address passes and the word reads as `v`. -/
theorem State.memRead_eq_ok_iff (s : State) (a v : Word) :
    s.memRead a = .ok v ↔ accessFault s.config a = none ∧ s.mem.word a.toNat = .ok v := by
  unfold State.memRead State.fetchWord
  cases accessFault s.config a with
  | some f => simp
  | none => cases s.mem.word a.toNat <;> simp

/-- The faults of MemRead: the address's, or Unwritten. -/
theorem State.memRead_eq_error {s : State} {a : Word} {f : Fault} (h : s.memRead a = .error f) :
    accessFault s.config a = some f ∨
      (accessFault s.config a = none ∧ ∃ b, s.mem.word a.toNat = .error b ∧ f = .unwritten (BitVec.ofNat 32 b)) := by
  unfold State.memRead State.fetchWord at h
  cases hf : accessFault s.config a with
  | some g => simp_all
  | none =>
    cases hw : s.mem.word a.toNat with
    | ok v => simp_all
    | error b =>
      rw [hf, hw] at h
      injection h with h
      exact .inr ⟨rfl, b, rfl, h.symm⟩

/-- MemWrite, once for all: it answers the written state exactly where the address passes. -/
theorem State.memWrite_eq_ok_iff (s t : State) (a v : Word) :
    s.memWrite a v = .ok t ↔ accessFault s.config a = none ∧ t = s.storeWord a v := by
  unfold State.memWrite
  cases accessFault s.config a with
  | some f => simp
  | none => simp [eq_comm]

/-- The faults of MemWrite: the address's. -/
theorem State.memWrite_eq_error {s : State} {a v : Word} {f : Fault} (h : s.memWrite a v = .error f) :
    accessFault s.config a = some f := by
  unfold State.memWrite at h
  cases hf : accessFault s.config a <;> simp_all

/-- Push, once for all (R160). -/
theorem State.push_eq_ok_iff (s t : State) (v : Word) :
    s.push v = .ok t ↔
      accessFault s.config (s.sp - 4) = none ∧ t = (s.storeWord (s.sp - 4) v).setSp (s.sp - 4) := by
  unfold State.push State.memWrite
  show (match (match accessFault s.config (s.sp - 4) with
    | some f => Except.error f
    | none => Except.ok (s.storeWord (s.sp - 4) v)) with
    | Except.ok t => Except.ok (t.setSp (s.sp - 4))
    | Except.error f => Except.error f) = Except.ok t ↔ _
  cases accessFault s.config (s.sp - 4) with
  | some f => simp
  | none => simp [eq_comm]

/-- The faults of a push: those of the address SP - 4. -/
theorem State.push_eq_error {s : State} {v : Word} {f : Fault} (h : s.push v = .error f) :
    accessFault s.config (s.sp - 4) = some f := by
  have h' : (match s.memWrite (s.sp - 4) v with
    | Except.ok t => Except.ok (t.setSp (s.sp - 4))
    | Except.error f => Except.error f) = Except.error f := h
  cases hw : s.memWrite (s.sp - 4) v with
  | ok t => rw [hw] at h'; cases h'
  | error g =>
    rw [hw] at h'
    injection h' with h'
    subst h'
    exact State.memWrite_eq_error hw

/-- Pop, once for all (R160). -/
theorem State.pop_eq_ok_iff (s t : State) (v : Word) :
    s.pop = .ok (v, t) ↔ s.memRead s.sp = .ok v ∧ t = s.setSp (s.sp + 4) := by
  unfold State.pop
  cases s.memRead s.sp with
  | error f => simp
  | ok w =>
    simp only [Except.ok.injEq, Prod.mk.injEq]
    constructor
    · rintro ⟨rfl, rfl⟩; exact ⟨rfl, rfl⟩
    · rintro ⟨rfl, rfl⟩; exact ⟨rfl, rfl⟩

/-- The faults of a pop: those of the read at SP. -/
theorem State.pop_eq_error {s : State} {f : Fault} (h : s.pop = .error f) : s.memRead s.sp = .error f := by
  unfold State.pop at h
  cases hr : s.memRead s.sp with
  | ok v => rw [hr] at h; cases h
  | error g => rw [hr] at h; exact (by simpa using h)

/-- The check of several addresses passes exactly where each passes. -/
theorem firstFault_eq_none_iff (c : Config) (as : List Word) :
    firstFault c as = none ↔ ∀ a ∈ as, accessFault c a = none := by
  induction as with
  | nil => simp [firstFault]
  | cons a as ih =>
    simp only [firstFault, List.mem_cons, forall_eq_or_imp]
    cases h : accessFault c a with
    | some f => simp
    | none => simp [ih]

/-- The first fault of several addresses is that of the first address that does not pass. -/
theorem firstFault_append_cons (c : Config) (pre post : List Word) (a : Word) (f : Fault)
    (hpre : ∀ b ∈ pre, accessFault c b = none) (ha : accessFault c a = some f) :
    firstFault c (pre ++ a :: post) = some f := by
  induction pre with
  | nil => simp [firstFault, ha]
  | cons b pre ih =>
    rw [List.cons_append, firstFault, hpre b (by simp)]
    exact ih fun d hd => hpre d (by simp [hd])

/-- A fault among several addresses is that of one of them. -/
theorem firstFault_eq_some {c : Config} {as : List Word} {f : Fault} (h : firstFault c as = some f) :
    ∃ a ∈ as, accessFault c a = some f := by
  induction as with
  | nil => simp [firstFault] at h
  | cons a as ih =>
    simp only [firstFault] at h
    cases ha : accessFault c a with
    | some g => rw [ha] at h; exact ⟨a, by simp, by rw [ha]; exact h⟩
    | none =>
      rw [ha] at h
      obtain ⟨b, hb, hf⟩ := ih h
      exact ⟨b, by simp [hb], hf⟩

/-! ## How a meaning ends -/

@[simp] theorem finish_ok (t : State) : finish (.ok t) = .next t.advance := rfl

@[simp] theorem finish_error (f : Fault) : finish (.error f) = .fault f := rfl

@[simp] theorem finishAt_ok (p : Word) (t : State) : finishAt p (.ok t) = .next (t.setPc p) := rfl

@[simp] theorem finishAt_error (p : Word) (f : Fault) : finishAt p (.error f) = .fault f := rfl

/-- A meaning that ends by finish answers a next state only from a state its accesses answered. -/
theorem finish_eq_next {r : Except Fault State} {t : State} (h : finish r = .next t) :
    ∃ u, r = .ok u ∧ t = u.advance := by
  cases r with
  | ok u => exact ⟨u, rfl, by simpa using h.symm⟩
  | error f => simp at h

/-- A meaning that ends by finishAt answers a next state only from a state its accesses answered. -/
theorem finishAt_eq_next {p : Word} {r : Except Fault State} {t : State} (h : finishAt p r = .next t) :
    ∃ u, r = .ok u ∧ t = u.setPc p := by
  cases r with
  | ok u => exact ⟨u, rfl, by simpa using h.symm⟩
  | error f => simp at h

end Sys2Proof.Machine
end

