-- ==== Sys2Proof/Laws/Bit.lean ====
section
/-! SUPPORT. The shared operations of the bit instructions, once for all: the range check of R210 and the bit that is set. -/

namespace Sys2Proof.Machine

/-- A bit number up to 31: the instruction has its effect. -/
theorem onBit_of_le {k : NumOperand} {s : State} (body : Nat → State) {q : Nat} (hq : s.bitNumber k = q) (h : q ≤ 31) :
    onBit k s body = .next (body q).advance := by
  unfold onBit
  rw [if_neg (by omega), hq]
  rfl

/-- A bit number above 31: the instruction faults. -/
theorem onBit_of_gt {k : NumOperand} {s : State} (body : Nat → State) {q : Nat} (hq : s.bitNumber k = q) (h : 31 < q) :
    onBit k s body = .fault (.bitIndexRange q) := by
  unfold onBit
  rw [if_pos (by omega), hq]
  rfl

/-- Where `onBit` answers a next state, the bit number is at most 31 and the state is the body's. -/
theorem onBit_eq_next {k : NumOperand} {s t : State} {body : Nat → State} (h : onBit k s body = .next t) :
    s.bitNumber k ≤ 31 ∧ t = (body (s.bitNumber k)).advance := by
  by_cases hq : 31 < s.bitNumber k
  · rw [onBit_of_gt body rfl hq] at h
    cases h
  · rw [onBit_of_le body rfl (by omega)] at h
    injection h with h
    exact ⟨by omega, h.symm⟩

/-- The bits of a bit mask. -/
theorem getLsbD_bitMask (k j : Nat) (hk : k ≤ 31) : (bitMask k).getLsbD j = decide (j = k) := by
  rw [bitMask, show (1 : Word) <<< k = BitVec.twoPow 32 k from rfl, BitVec.getLsbD_twoPow, Bool.eq_iff_iff]
  simp
  omega

/-- The bits of a word with one bit written. -/
theorem getLsbD_withBit (v : Word) {k : Nat} (hk : k ≤ 31) (b : Bool) (j : Nat) :
    (withBit v k b).getLsbD j = if j = k then b else v.getLsbD j := by
  have hm := getLsbD_bitMask k j hk
  have hv : 32 ≤ j → v.getLsbD j = false := fun h => BitVec.getLsbD_of_ge _ _ h
  unfold withBit
  cases b with
  | true =>
    rw [if_pos rfl, BitVec.getLsbD_or, hm]
    by_cases h : j = k <;> simp [h]
  | false =>
    rw [if_neg Bool.false_ne_true, BitVec.getLsbD_and, BitVec.getLsbD_not, hm]
    by_cases h : j = k
    · simp [h]
    · by_cases hj : j < 32
      · simp [h, hj]
      · simp [h, hj, hv (by omega)]

/-! ## The four shapes -/

theorem testBit_of_le (n : Reg) {k : NumOperand} {s : State} {q : Nat} (hq : s.bitNumber k = q) (h : q ≤ 31) :
    testBit n k s = .next (s.setSt (s.st.bitTest ((s.reg n).getLsbD q))).advance :=
  onBit_of_le _ hq h

theorem testBit_of_gt (n : Reg) {k : NumOperand} {s : State} {q : Nat} (hq : s.bitNumber k = q) (h : 31 < q) :
    testBit n k s = .fault (.bitIndexRange q) :=
  onBit_of_gt _ hq h

theorem setBit_of_le (n : Reg) {k : NumOperand} {s : State} {q : Nat} (hq : s.bitNumber k = q) (h : q ≤ 31) :
    setBit n k s = .next (s.setReg n (withBit (s.reg n) q true)).advance :=
  onBit_of_le _ hq h

theorem setBit_of_gt (n : Reg) {k : NumOperand} {s : State} {q : Nat} (hq : s.bitNumber k = q) (h : 31 < q) :
    setBit n k s = .fault (.bitIndexRange q) :=
  onBit_of_gt _ hq h

theorem clearBit_of_le (n : Reg) {k : NumOperand} {s : State} {q : Nat} (hq : s.bitNumber k = q) (h : q ≤ 31) :
    clearBit n k s = .next (s.setReg n (withBit (s.reg n) q false)).advance :=
  onBit_of_le _ hq h

theorem clearBit_of_gt (n : Reg) {k : NumOperand} {s : State} {q : Nat} (hq : s.bitNumber k = q) (h : 31 < q) :
    clearBit n k s = .fault (.bitIndexRange q) :=
  onBit_of_gt _ hq h

theorem copyInvertedZf_of_le (n : Reg) {k : NumOperand} {s : State} {q : Nat} (hq : s.bitNumber k = q) (h : q ≤ 31) :
    copyInvertedZf n k s = .next (s.setReg n (withBit (s.reg n) q (!s.st.zf))).advance :=
  onBit_of_le _ hq h

theorem copyInvertedZf_of_gt (n : Reg) {k : NumOperand} {s : State} {q : Nat} (hq : s.bitNumber k = q) (h : 31 < q) :
    copyInvertedZf n k s = .fault (.bitIndexRange q) :=
  onBit_of_gt _ hq h

theorem testBit_eq_next {n : Reg} {k : NumOperand} {s t : State} (h : testBit n k s = .next t) :
    s.bitNumber k ≤ 31 ∧ t = (s.setSt (s.st.bitTest ((s.reg n).getLsbD (s.bitNumber k)))).advance :=
  onBit_eq_next h

theorem setBit_eq_next {n : Reg} {k : NumOperand} {s t : State} (h : setBit n k s = .next t) :
    s.bitNumber k ≤ 31 ∧ t = (s.setReg n (withBit (s.reg n) (s.bitNumber k) true)).advance :=
  onBit_eq_next h

theorem clearBit_eq_next {n : Reg} {k : NumOperand} {s t : State} (h : clearBit n k s = .next t) :
    s.bitNumber k ≤ 31 ∧ t = (s.setReg n (withBit (s.reg n) (s.bitNumber k) false)).advance :=
  onBit_eq_next h

theorem copyInvertedZf_eq_next {n : Reg} {k : NumOperand} {s t : State} (h : copyInvertedZf n k s = .next t) :
    s.bitNumber k ≤ 31 ∧ t = (s.setReg n (withBit (s.reg n) (s.bitNumber k) (!s.st.zf))).advance :=
  onBit_eq_next h

end Sys2Proof.Machine
end

