-- ==== Sys2Proof/Laws/Flags.lean ====
section
/-! SUPPORT. One lemma for each flag computation, saying all of it in the terms of Safety/Reference.lean: the adder, the
subtraction, SUBC's difference, the logic and shift rules, and ST as a word. -/

namespace Sys2Proof.Machine

/-- A signed value from the unsigned one. -/
theorem toInt_cases (a : Word) :
    (a.toNat < 2 ^ 31 ∧ a.toInt = a.toNat) ∨ (2 ^ 31 ≤ a.toNat ∧ a.toInt = (a.toNat : Int) - 2 ^ 32) := by
  have h := BitVec.toInt_eq_toNat_cond a
  have := a.isLt
  split at h <;> omega

/-- The sign bit of a word. -/
theorem getLsbD_31 (a : Word) : a.getLsbD 31 = decide (2 ^ 31 ≤ a.toNat) := by
  rw [← BitVec.msb_eq_getLsbD_last (x := a), BitVec.msb_eq_decide]

/-- `AddC`, once for all (R120): the sum modulo 2^32, CF the unsigned overflow, OF the signed one, BF the carry out of the
low nibble. -/
theorem arith_addC (f : Flags) (a b : Word) (c : Bool) : f.arith (addC a b c) = sumFlags f a b c := by
  have hc : c.toNat ≤ 1 := c.toNat_le
  have ha := a.isLt
  have hb := b.isLt
  simp only [Flags.arith, addC, sumFlags, signedOk, Flags.mk.injEq, getLsbD_31, BitVec.toNat_ofNat, and_true, true_and]
  refine ⟨?_, ?_, ?_, ?_⟩
  · rw [Bool.eq_iff_iff]
    simp [← BitVec.toNat_inj]
  · rw [Bool.eq_iff_iff]
    simp
    omega
  · rcases toInt_cases a with ⟨h1, h2⟩ | ⟨h1, h2⟩ <;> rcases toInt_cases b with ⟨h3, h4⟩ | ⟨h3, h4⟩ <;>
    · rw [h2, h4, Bool.eq_iff_iff]
      by_cases hu : 2 ^ 32 ≤ a.toNat + b.toNat + c.toNat <;>
      by_cases hv : 2 ^ 31 ≤ a.toNat % 2 ^ 31 + b.toNat % 2 ^ 31 + c.toNat
      all_goals
        have e1 : ((a.toNat + b.toNat + c.toNat) / 2 ^ 32 == 1) = decide (2 ^ 32 ≤ a.toNat + b.toNat + c.toNat) := by
          rw [Bool.eq_iff_iff]; simp; omega
        have e2 : ((a.toNat % 2 ^ 31 + b.toNat % 2 ^ 31 + c.toNat) / 2 ^ 31 == 1)
            = decide (2 ^ 31 ≤ a.toNat % 2 ^ 31 + b.toNat % 2 ^ 31 + c.toNat) := by
          rw [Bool.eq_iff_iff]; simp; omega
        rw [e1, e2]
        simp only [hu, hv, decide_true, decide_false, Bool.xor_self, Bool.xor_false, Bool.false_xor,
          Bool.not_eq_true', decide_eq_false_iff_not, Bool.false_eq_true, false_iff, true_iff]
        omega
  · rw [Bool.eq_iff_iff]
    simp
    omega

theorem addC_r (a b : Word) (c : Bool) : (addC a b c).r = a + b + BitVec.ofNat 32 c.toNat := by
  simp only [addC, ← BitVec.toNat_inj, BitVec.toNat_ofNat, BitVec.toNat_add]
  omega

@[simp] theorem addC_r_false (a b : Word) : (addC a b false).r = a + b := by
  simp [addC_r]

/-- The subtraction on the adder, once for all (R121): the difference modulo 2^32, ZF iff equal, CF iff no borrow, OF the
signed overflow, BF iff no borrow out of the low nibble. -/
theorem arith_subC (f : Flags) (a b : Word) : f.arith (subC a b) = differenceFlags f a b := by
  have ha := a.isLt
  have hb := b.isLt
  have hn : (~~~b).toNat = 2 ^ 32 - 1 - b.toNat := by simp
  have hi : (~~~b).toInt = - b.toInt - 1 := by
    rw [BitVec.toInt_not]
    rcases toInt_cases b with ⟨h1, h2⟩ | ⟨h1, h2⟩ <;> simp only [Int.bmod] <;> omega
  rw [subC, arith_addC]
  simp only [sumFlags, differenceFlags, Flags.mk.injEq, and_true, hn, hi, Bool.toNat_true, Nat.cast_one]
  refine ⟨?_, ?_, ?_, ?_, ?_⟩
  · rw [decide_eq_decide, ← BitVec.toNat_inj]; omega
  · rw [decide_eq_decide]; omega
  · congr 2; omega
  · rw [BitVec.msb_eq_decide, decide_eq_decide, BitVec.toNat_sub]; omega
  · rw [decide_eq_decide]; omega

@[simp] theorem subC_r (a b : Word) : (subC a b).r = a - b := by
  simp only [subC, addC_r, ← BitVec.toNat_inj, BitVec.toNat_add, BitVec.toNat_sub, BitVec.toNat_not]
  simp
  omega

/-- SUBC's difference as an integer modulo 2^32 (R125). -/
theorem subK_r_toNat (a b : Word) (k : Int) :
    ((subK a b k).r.toNat : Int) = ((a.toNat : Int) - b.toNat + k) % 2 ^ 32 := by
  simp only [subK, BitVec.toNat_ofInt]
  omega

/-- ZF and SF of a result (R130). -/
theorem logic_eq (f : Flags) (r : Word) : f.logic r = resultFlags f r := by
  simp only [Flags.logic, resultFlags, Flags.mk.injEq, and_true, BitVec.msb_eq_getLsbD_last]
  rfl

/-- ZF, SF and CF after a shift (R141). -/
theorem shift_eq (f : Flags) (o : ShiftOut) : f.shift o.r o.out = shiftFlags f o := by
  obtain ⟨r, out⟩ := o
  cases out <;> simp only [Flags.shift, shiftFlags, resultFlags, Option.getD] <;> rfl

/-! ## ST as a word (R26, R27) -/

/-- A bit of a read of ST: the six flags below, 0 above. -/
theorem getLsbD_toWord (f : Flags) (i : Nat) :
    f.toWord.getLsbD i =
      if i = 0 then f.df else if i = 1 then f.bf else if i = 2 then f.sf else if i = 3 then f.of
      else if i = 4 then f.cf else if i = 5 then f.zf else false := by
  simp only [Flags.toWord, BitVec.getLsbD_append, BitVec.getLsbD_ofBool]
  rcases i with _ | _ | _ | _ | _ | _ | i <;> simp

/-- ST as a number. -/
theorem toNat_toWord (f : Flags) :
    f.toWord.toNat = 32 * f.zf.toNat + 16 * f.cf.toNat + 8 * f.of.toNat + 4 * f.sf.toNat + 2 * f.bf.toNat
      + f.df.toNat := by
  obtain ⟨z, c, o, s, b, d⟩ := f
  revert z c o s b d
  decide

end Sys2Proof.Machine
end

