-- ==== Sys2Proof/Laws/Reference.lean ====
section
/-! SUPPORT. The terms of Safety/Reference.lean against the machine's own functions: words held, accessible addresses, bytes
outside a word. -/

namespace Sys2Proof.Machine

/-- A byte of a word as a number. -/
theorem byteOf_eq (v : Word) (i : Nat) : byteOf v i = BitVec.ofNat 8 (v.toNat / 256 ^ i) := by
  simp only [byteOf, ← BitVec.toNat_inj, BitVec.extractLsb'_toNat, BitVec.toNat_ofNat, Nat.shiftRight_eq_div_pow]
  rw [show (256 : Nat) = 2 ^ 8 from rfl, ← Nat.pow_mul]

/-- `holdsWord` is reading that word. -/
theorem holdsWord_iff (m : Memory) (a v : Word) : holdsWord m a v ↔ m.word a.toNat = .ok v := by
  rw [Memory.word_eq_ok_iff]
  constructor
  · intro h
    have h0 := h 0 (by omega)
    have h1 := h 1 (by omega)
    have h2 := h 2 (by omega)
    have h3 := h 3 (by omega)
    simp only [← byteOf_eq] at h0 h1 h2 h3
    exact ⟨h0, h1, h2, h3⟩
  · rintro ⟨h0, h1, h2, h3⟩ i hi
    rw [← byteOf_eq]
    interval_cases i
    · exact h0
    · exact h1
    · exact h2
    · exact h3

/-- At most one word is held at an address. -/
theorem holdsWord_unique {m : Memory} {a v w : Word} (h : holdsWord m a v) (h' : holdsWord m a w) : v = w := by
  rw [holdsWord_iff] at h h'
  simpa [h] using h'

/-- An accessible address passes the checks of an access. -/
theorem accessFault_eq_none_iff_accessible (c : Config) (a : Word) : accessFault c a = none ↔ accessible c a :=
  accessFault_eq_none_iff c a

/-- A read of an accessible word that memory holds. -/
theorem State.memRead_of_holds {s : State} {a v : Word} (h : accessible s.config a) (hv : holdsWord s.mem a v) :
    s.memRead a = .ok v := by
  rw [State.memRead_eq_ok_iff, accessFault_eq_none_iff_accessible, ← holdsWord_iff]
  exact ⟨h, hv⟩

/-- A word with a missing byte cannot be read; the lowest such byte is named. -/
theorem word_of_firstMissing {m : Memory} {a : Word} {b : Nat} (h : firstMissing m a b) :
    m.word a.toNat = .error (a.toNat + b) := by
  obtain ⟨hb, hn, hs⟩ := h
  have held : ∀ c < b, ∃ v, m.byte? (a.toNat + c) = some v := fun c hc => Option.isSome_iff_exists.1 (hs c hc)
  unfold Memory.word
  interval_cases b
  · simp_all
  · obtain ⟨v0, e0⟩ := held 0 (by omega)
    simp_all
  · obtain ⟨v0, e0⟩ := held 0 (by omega)
    obtain ⟨v1, e1⟩ := held 1 (by omega)
    simp_all
  · obtain ⟨v0, e0⟩ := held 0 (by omega)
    obtain ⟨v1, e1⟩ := held 1 (by omega)
    obtain ⟨v2, e2⟩ := held 2 (by omega)
    simp_all

/-- The checked read of a word with a missing byte. -/
theorem State.fetchWord_of_firstMissing {s : State} {a : Word} {b : Nat} (h : firstMissing s.mem a b) :
    s.fetchWord a = .error (.unwritten (a + BitVec.ofNat 32 b)) := by
  simp only [State.fetchWord, word_of_firstMissing h, BitVec.ofNat_add, BitVec.ofNat_toNat, BitVec.setWidth_eq]

/-- A read of an accessible word with a missing byte. -/
theorem State.memRead_of_firstMissing {s : State} {a : Word} {b : Nat} (h : accessible s.config a)
    (hb : firstMissing s.mem a b) : s.memRead a = .error (.unwritten (a + BitVec.ofNat 32 b)) := by
  rw [← accessFault_eq_none_iff_accessible] at h
  simp only [State.memRead, h, State.fetchWord_of_firstMissing hb]

/-- A word just stored is held. -/
theorem holdsWord_storeWord (s : State) (a v : Word) : holdsWord (s.storeWord a v).mem a v := by
  rw [holdsWord_iff]
  exact Memory.word_setWord s.mem a.toNat v

/-- A store leaves the words that it does not overlap. -/
theorem holdsWord_storeWord_of_disjoint {s : State} {a b v w : Word}
    (h : b.toNat + 4 ≤ a.toNat ∨ a.toNat + 4 ≤ b.toNat) :
    holdsWord (s.storeWord a v).mem b w ↔ holdsWord s.mem b w := by
  rw [holdsWord_iff, holdsWord_iff]
  exact (by rw [show (s.storeWord a v).mem = s.mem.setWord a.toNat v from rfl,
    Memory.word_setWord_of_disjoint s.mem v h])

/-- A store leaves every byte outside its word. -/
theorem byte?_storeWord_of_not_inWords {s : State} {a v : Word} {b : Nat} (h : ¬ inWords [a] b) :
    (s.storeWord a v).mem.byte? b = s.mem.byte? b := by
  simp only [inWords, List.mem_singleton, exists_eq_left, not_and] at h
  exact Memory.byte?_setWord_of_outside s.mem v (by omega)

/-- Two aligned words at different addresses do not overlap. -/
theorem disjoint_of_aligned {a b : Word} (ha : a.toNat % 4 = 0) (hb : b.toNat % 4 = 0) (h : a ≠ b) :
    b.toNat + 4 ≤ a.toNat ∨ a.toNat + 4 ≤ b.toNat := by
  have : a.toNat ≠ b.toNat := fun e => h (BitVec.eq_of_toNat_eq e)
  omega

/-- Subtracting a multiple of 4 keeps the remainder modulo 4. -/
theorem toNat_sub_mod_four (a k : Word) (hk : k.toNat % 4 = 0) : (a - k).toNat % 4 = a.toNat % 4 := by
  rw [BitVec.toNat_sub]
  have := k.isLt
  omega

/-- Adding a multiple of 4 keeps the remainder modulo 4. -/
theorem toNat_add_mod_four (a k : Word) (hk : k.toNat % 4 = 0) : (a + k).toNat % 4 = a.toNat % 4 := by
  rw [BitVec.toNat_add]
  omega

end Sys2Proof.Machine
end

