-- ==== Sys2Proof/Laws/Shifter.lean ====
section
/-! SUPPORT. The closed forms of the shifts and rotates are the repeated one-bit steps of R140, for every count. -/

namespace Sys2Proof.Machine

/-- The value of `c` steps of SHL. -/
theorem repeated_shl_r (v : Word) (c : Nat) : (repeated .shl v c).r = v <<< c := by
  induction c with
  | zero => simp [repeated]
  | succ c ih => simp only [repeated, oneBit, ih, BitVec.shiftLeft_add]

/-- The value of `c` steps of SHR. -/
theorem repeated_shr_r (v : Word) (c : Nat) : (repeated .shr v c).r = v >>> c := by
  induction c with
  | zero => simp [repeated]
  | succ c ih => simp only [repeated, oneBit, ih, BitVec.shiftRight_add]

/-- One step of SRA is the arithmetic shift by one. -/
theorem oneBit_sra (v : Word) : (oneBit .sra v).1 = v.sshiftRight 1 := by
  apply BitVec.eq_of_getLsbD_eq
  intro i hi
  simp only [oneBit, BitVec.getLsbD_or, BitVec.getLsbD_ushiftRight, BitVec.getLsbD_and, BitVec.getLsbD_sshiftRight,
    BitVec.msb_eq_getLsbD_last]
  interval_cases i <;> simp

/-- The value of `c` steps of SRA. -/
theorem repeated_sra_r (v : Word) (c : Nat) : (repeated .sra v c).r = v.sshiftRight c := by
  induction c with
  | zero => simp [repeated]
  | succ c ih =>
    show (oneBit .sra (repeated .sra v c).r).1 = _
    rw [oneBit_sra, ih, BitVec.sshiftRight_add]

/-- One step of ROTL is the left rotation by one. -/
theorem oneBit_rotl (v : Word) : (oneBit .rotl v).1 = v.rotateLeft 1 := by
  simp only [oneBit, BitVec.rotateLeft_def]

/-- One step of ROTR is the right rotation by one. -/
theorem oneBit_rotr (v : Word) : (oneBit .rotr v).1 = v.rotateRight 1 := by
  simp only [oneBit, BitVec.rotateRight_def]

/-- The bits of a left rotation by any count. -/
theorem getLsbD_rotateLeft_mod (v : Word) (c i : Nat) (hi : i < 32) :
    (v.rotateLeft c).getLsbD i = v.getLsbD ((i + 32 - c % 32) % 32) := by
  rw [BitVec.getLsbD_rotateLeft]
  by_cases h : i < c % 32
  · simp only [h, decide_true, cond_true]; congr 1; omega
  · simp only [h, hi, decide_true, decide_false, cond_false, Bool.true_and]; congr 1; omega

/-- The bits of a right rotation by any count. -/
theorem getLsbD_rotateRight_mod (v : Word) (c i : Nat) (hi : i < 32) :
    (v.rotateRight c).getLsbD i = v.getLsbD ((i + c % 32) % 32) := by
  rw [BitVec.getLsbD_rotateRight]
  by_cases h : i < 32 - c % 32
  · simp only [h, decide_true, cond_true]; congr 1; omega
  · simp only [h, hi, decide_true, decide_false, cond_false, Bool.true_and]; congr 1; omega

/-- The value of `c` steps of ROTL. -/
theorem repeated_rotl_r (v : Word) (c : Nat) : (repeated .rotl v c).r = v.rotateLeft c := by
  induction c with
  | zero => simp [repeated, BitVec.rotateLeft_def, BitVec.ushiftRight_eq_zero (x := v) (Nat.le_refl 32)]
  | succ c ih =>
    show (oneBit .rotl (repeated .rotl v c).r).1 = _
    rw [oneBit_rotl, ih]
    apply BitVec.eq_of_getLsbD_eq
    intro i hi
    rw [getLsbD_rotateLeft_mod _ _ _ hi, getLsbD_rotateLeft_mod _ _ _ (Nat.mod_lt _ (by omega)),
      getLsbD_rotateLeft_mod _ _ _ hi]
    congr 1
    omega

/-- The value of `c` steps of ROTR. -/
theorem repeated_rotr_r (v : Word) (c : Nat) : (repeated .rotr v c).r = v.rotateRight c := by
  induction c with
  | zero => simp [repeated, BitVec.rotateRight_def, BitVec.shiftLeft_eq_zero (x := v) (Nat.le_refl 32)]
  | succ c ih =>
    show (oneBit .rotr (repeated .rotr v c).r).1 = _
    rw [oneBit_rotr, ih]
    apply BitVec.eq_of_getLsbD_eq
    intro i hi
    rw [getLsbD_rotateRight_mod _ _ _ hi, getLsbD_rotateRight_mod _ _ _ (Nat.mod_lt _ (by omega)),
      getLsbD_rotateRight_mod _ _ _ hi]
    congr 1
    omega

theorem rotatedLeft_eq (v : Word) (c : Nat) : rotatedLeft v (c % 32) = v.rotateLeft c := by
  rw [BitVec.rotateLeft_def]
  unfold rotatedLeft
  split
  · next h => simp [h, BitVec.ushiftRight_eq_zero (x := v) (Nat.le_refl 32)]
  · rfl

theorem rotatedRight_eq (v : Word) (c : Nat) : rotatedRight v (c % 32) = v.rotateRight c := by
  rw [BitVec.rotateRight_def]
  unfold rotatedRight
  split
  · next h => simp [h, BitVec.shiftLeft_eq_zero (x := v) (Nat.le_refl 32)]
  · rfl

/-- SHL by any count (R142) is the repeated step. -/
theorem shiftLeft_eq (v : Word) (c : Nat) : shiftLeft v c = repeated .shl v c := by
  cases c with
  | zero => rfl
  | succ c =>
    have hr := repeated_shl_r v (c + 1)
    have ho : (repeated .shl v (c + 1)).out = some ((v <<< c).getLsbD 31) := by
      rw [← repeated_shl_r]; rfl
    generalize repeated .shl v (c + 1) = o at hr ho
    obtain ⟨r, out⟩ := o
    subst hr ho
    simp only [shiftLeft, BitVec.getLsbD_shiftLeft]
    split
    · next h => omega
    · split
      · next h1 h2 =>
        rw [show 32 - (c + 1) = 31 - c by omega]
        simp only [show ¬ (31 < c) by omega, decide_true, decide_false, Bool.not_false, Bool.true_and,
          show 31 < 32 by omega]
      · have hz : v <<< (c + 1) = 0 := BitVec.shiftLeft_eq_zero (by omega)
        rw [hz]
        split
        · next h => obtain rfl : c = 31 := by omega
                    simp
        · simp [show 31 < c by omega]

/-- SHR by any count (R143) is the repeated step. -/
theorem shiftRight_eq (v : Word) (c : Nat) : shiftRight v c = repeated .shr v c := by
  cases c with
  | zero => rfl
  | succ c =>
    have hr := repeated_shr_r v (c + 1)
    have ho : (repeated .shr v (c + 1)).out = some ((v >>> c).getLsbD 0) := by
      rw [← repeated_shr_r]; rfl
    generalize repeated .shr v (c + 1) = o at hr ho
    obtain ⟨r, out⟩ := o
    subst hr ho
    simp only [shiftRight, BitVec.getLsbD_ushiftRight]
    split
    · next h => omega
    · split
      · rfl
      · have hz : v >>> (c + 1) = 0 := BitVec.ushiftRight_eq_zero (by omega)
        rw [hz]
        split
        · next h => obtain rfl : c = 31 := by omega
                    simp
        · rw [BitVec.getLsbD_of_ge _ _ (by omega)]

/-- SRA by any count (R150) is the repeated step. -/
theorem shiftRightArith_eq (v : Word) (c : Nat) : shiftRightArith v c = repeated .sra v c := by
  cases c with
  | zero => rfl
  | succ c =>
    have hr := repeated_sra_r v (c + 1)
    have ho : (repeated .sra v (c + 1)).out = some ((v.sshiftRight c).getLsbD 0) := by
      rw [← repeated_sra_r]; rfl
    generalize repeated .sra v (c + 1) = o at hr ho
    obtain ⟨r, out⟩ := o
    subst hr ho
    simp only [shiftRightArith, BitVec.getLsbD_sshiftRight]
    split
    · next h => omega
    · split
      · next h => simp [show c < 32 by omega]
      · have hz : v.sshiftRight (c + 1) = if v.getLsbD 31 then 0xFFFFFFFF else 0 := by
          apply BitVec.eq_of_getLsbD_eq
          intro i hi
          rw [BitVec.getLsbD_sshiftRight, BitVec.msb_eq_getLsbD_last]
          cases v.getLsbD (32 - 1) <;> interval_cases i <;> simp <;> omega
        rw [hz, BitVec.msb_eq_getLsbD_last]
        by_cases h : c = 31
        · subst h; simp
        · simp [show ¬ c < 32 by omega]

/-- ROTL by any count (R144) is the repeated step. -/
theorem rotateLeft_eq (v : Word) (c : Nat) : rotateLeft v c = repeated .rotl v c := by
  cases c with
  | zero => rfl
  | succ c =>
    have hr := repeated_rotl_r v (c + 1)
    have ho : (repeated .rotl v (c + 1)).out = some ((v.rotateLeft c).getLsbD 31) := by
      rw [← repeated_rotl_r]; rfl
    generalize repeated .rotl v (c + 1) = o at hr ho
    obtain ⟨r, out⟩ := o
    subst hr ho
    simp only [rotateLeft, rotatedLeft_eq, Nat.succ_ne_zero, if_false, ShiftOut.mk.injEq, true_and, Option.some.injEq]
    rw [getLsbD_rotateLeft_mod _ _ _ (by omega), getLsbD_rotateLeft_mod _ _ _ (by omega)]
    congr 1
    omega

/-- ROTR by any count (R145) is the repeated step. -/
theorem rotateRight_eq (v : Word) (c : Nat) : rotateRight v c = repeated .rotr v c := by
  cases c with
  | zero => rfl
  | succ c =>
    have hr := repeated_rotr_r v (c + 1)
    have ho : (repeated .rotr v (c + 1)).out = some ((v.rotateRight c).getLsbD 0) := by
      rw [← repeated_rotr_r]; rfl
    generalize repeated .rotr v (c + 1) = o at hr ho
    obtain ⟨r, out⟩ := o
    subst hr ho
    simp only [rotateRight, rotatedRight_eq, Nat.succ_ne_zero, if_false, ShiftOut.mk.injEq, true_and, Option.some.injEq]
    rw [getLsbD_rotateRight_mod _ _ _ (by omega), getLsbD_rotateRight_mod _ _ _ (by omega)]
    congr 1
    omega

/-- Every shift and rotate, once for all: the closed form of its kind is the repeated one-bit step. -/
theorem shifted_eq (k : ShiftKind) (v : Word) (c : Nat) : shifted k v c = repeated k v c := by
  cases k
  · exact shiftLeft_eq v c
  · exact shiftRight_eq v c
  · exact shiftRightArith_eq v c
  · exact rotateLeft_eq v c
  · exact rotateRight_eq v c

end Sys2Proof.Machine
end

