-- ==== Sys2Proof/Laws/Meanings.lean ====
section
/-! SUPPORT. One lemma for each shared operation that instructions are made of, saying all it can do: an equation where it
always completes, the two ends where it may fault. -/

namespace Sys2Proof.Machine

/-! ## Operations that always complete -/

/-- Writing an arithmetic result. -/
theorem arith_eq (n : Reg) (o : AluOut) (s : State) : arith n o s = .next (s.after n o.r (s.st.arith o)) := rfl

/-- Writing a logic result. -/
theorem logic_meaning_eq (n : Reg) (r : Word) (s : State) :
    logic n r s = .next (s.after n r (resultFlags s.st r)) := by
  rw [← logic_eq]
  rfl

/-- Shifting by a count: the repeated one-bit step. -/
theorem shiftBy_eq (k : ShiftKind) (n : Reg) (c : NumOperand) (s : State) :
    shiftBy k n c s =
      .next (s.after n (repeated k (s.reg n) (s.shiftCount c)).r
        (shiftFlags s.st (repeated k (s.reg n) (s.shiftCount c)))) := by
  rw [← shift_eq, shiftBy, shifted_eq]
  rfl

/-- Rotating through CF. -/
theorem rotateThrough_eq (n : Reg) (o : Word × Bool) (s : State) :
    rotateThrough n o s = .next (s.after n o.1 { resultFlags s.st o.1 with cf := o.2 }) := by
  rw [rotateThrough, shift_eq s.st ⟨o.1, some o.2⟩]
  rfl

/-- A conditional jump. -/
theorem condJump_eq (cond : Cond) (d : Word) (s : State) :
    condJump cond d s = .next (s.jumped (if cond.holds s.config.jppJpnSense s.st then d else s.pc + 8)) := by
  unfold condJump
  split <;> rfl

/-! ## Loads, stores, the stack -/

/-- A read of a state whose address does not pass the checks. -/
theorem State.memRead_of_accessFault {s : State} {a : Word} {f : Fault} (h : accessFault s.config a = some f) :
    s.memRead a = .error f := by
  simp only [State.memRead, h]

/-- A write of a state whose address does not pass the checks. -/
theorem State.memWrite_of_accessFault {s : State} {a v : Word} {f : Fault} (h : accessFault s.config a = some f) :
    s.memWrite a v = .error f := by
  simp only [State.memWrite, h]

/-- A write of an accessible word. -/
theorem State.memWrite_of_accessible {s : State} {a : Word} (v : Word) (h : accessible s.config a) :
    s.memWrite a v = .ok (s.storeWord a v) := by
  rw [State.memWrite_eq_ok_iff, accessFault_eq_none_iff_accessible]
  exact ⟨h, rfl⟩

/-- A load that reads `v`. -/
theorem load_of_read {n : Reg} {m : MemOperand} {s : State} {v : Word} (h : s.memRead (s.effAddr m) = .ok v) :
    load n m s = .next (s.after n v s.st) := by
  simp only [load, h]
  rfl

/-- A load whose read faults. -/
theorem load_of_error {n : Reg} {m : MemOperand} {s : State} {f : Fault} (h : s.memRead (s.effAddr m) = .error f) :
    load n m s = .fault f := by
  simp only [load, h, finish_error]

/-- A load that completes read a word. -/
theorem load_eq_next {n : Reg} {m : MemOperand} {s t : State} (h : load n m s = .next t) :
    ∃ v, s.memRead (s.effAddr m) = .ok v ∧ t = s.after n v s.st := by
  cases hr : s.memRead (s.effAddr m) with
  | ok v =>
    rw [load_of_read hr] at h
    injection h with h
    exact ⟨v, rfl, h.symm⟩
  | error f =>
    rw [load_of_error hr] at h
    cases h

/-- A store that completes wrote the word, and its address was accessible. -/
theorem store_eq_next {n : Reg} {m : MemOperand} {s t : State} (h : store n m s = .next t) :
    accessible s.config (s.effAddr m) ∧ t = (s.storeWord (s.effAddr m) (s.reg n)).advance := by
  obtain ⟨u, hu, rfl⟩ := finish_eq_next h
  rw [State.memWrite_eq_ok_iff, accessFault_eq_none_iff_accessible] at hu
  exact ⟨hu.1, by rw [hu.2]⟩

/-- A push to an accessible word. -/
theorem State.push_of_accessible {s : State} (v : Word) (h : accessible s.config (s.sp - 4)) :
    s.push v = .ok ((s.storeWord (s.sp - 4) v).setSp (s.sp - 4)) := by
  rw [State.push_eq_ok_iff, accessFault_eq_none_iff_accessible]
  exact ⟨h, rfl⟩

/-- A push whose address does not pass the checks. -/
theorem State.push_of_accessFault {s : State} {v : Word} {f : Fault} (h : accessFault s.config (s.sp - 4) = some f) :
    s.push v = .error f := by
  have hw : s.memWrite (s.sp - Config.wordBytes) v = .error f := State.memWrite_of_accessFault h
  simp only [State.push, hw]

/-- A pop of a word that is there. -/
theorem State.pop_of_holds {s : State} {v : Word} (h : accessible s.config s.sp) (hv : holdsWord s.mem s.sp v) :
    s.pop = .ok (v, s.setSp (s.sp + 4)) := by
  rw [State.pop_eq_ok_iff]
  exact ⟨State.memRead_of_holds h hv, rfl⟩

/-- A pop whose read faults. -/
theorem State.pop_of_error {s : State} {f : Fault} (h : s.memRead s.sp = .error f) : s.pop = .error f := by
  simp only [State.pop, h]

/-! ## PUSHA and POPA -/

/-- The memory after the seven writes of PUSHA. -/
theorem State.storeAll_mem (s : State) :
    s.storeAll.mem =
      ((((((s.mem.setWord (s.sp - 4).toNat s.st.toWord).setWord (s.sp - 8).toNat (s.reg .r6)).setWord
        (s.sp - 12).toNat (s.reg .r5)).setWord (s.sp - 16).toNat (s.reg .r4)).setWord
        (s.sp - 20).toNat (s.reg .r3)).setWord (s.sp - 24).toNat (s.reg .r2)).setWord (s.sp - 28).toNat (s.reg .r1) := by
  simp only [State.storeAll]

/-- The seven writes of PUSHA change nothing but memory. -/
theorem State.storeAll_eq (s : State) : s.storeAll = { s with mem := s.storeAll.mem } := by
  simp only [State.storeAll]

@[simp] theorem State.storeAll_regs (s : State) : s.storeAll.regs = s.regs := by simp only [State.storeAll]
@[simp] theorem State.storeAll_sp (s : State) : s.storeAll.sp = s.sp := by simp only [State.storeAll]
@[simp] theorem State.storeAll_pc (s : State) : s.storeAll.pc = s.pc := by simp only [State.storeAll]
@[simp] theorem State.storeAll_st (s : State) : s.storeAll.st = s.st := by simp only [State.storeAll]
@[simp] theorem State.storeAll_run (s : State) : s.storeAll.run = s.run := by simp only [State.storeAll]
@[simp] theorem State.storeAll_display (s : State) : s.storeAll.display = s.display := by simp only [State.storeAll]
@[simp] theorem State.storeAll_portLog (s : State) : s.storeAll.portLog = s.portLog := by simp only [State.storeAll]
@[simp] theorem State.storeAll_portHistory (s : State) : s.storeAll.portHistory = s.portHistory := by
  simp only [State.storeAll]
@[simp] theorem State.storeAll_portInputs (s : State) : s.storeAll.portInputs = s.portInputs := by simp only [State.storeAll]
@[simp] theorem State.storeAll_hostEvents (s : State) : s.storeAll.hostEvents = s.hostEvents := by simp only [State.storeAll]
@[simp] theorem State.storeAll_config (s : State) : s.storeAll.config = s.config := by simp only [State.storeAll]

/-- A byte outside the seven words of PUSHA keeps its value. -/
theorem State.byte?_storeAll (s : State) {b : Nat} (h : ¬ inWords (pushAddrs s.sp) b) :
    s.storeAll.mem.byte? b = s.mem.byte? b := by
  have hn : ∀ a ∈ pushAddrs s.sp, b < a.toNat ∨ a.toNat + 4 ≤ b := by
    intro a ha
    by_contra hb
    exact h ⟨a, ha, by omega, by omega⟩
  simp only [pushAddrs, List.forall_mem_cons] at hn
  obtain ⟨h1, h2, h3, h4, h5, h6, h7, -⟩ := hn
  rw [State.storeAll_mem, Memory.byte?_setWord_of_outside _ _ h7, Memory.byte?_setWord_of_outside _ _ h6,
    Memory.byte?_setWord_of_outside _ _ h5, Memory.byte?_setWord_of_outside _ _ h4,
    Memory.byte?_setWord_of_outside _ _ h3, Memory.byte?_setWord_of_outside _ _ h2,
    Memory.byte?_setWord_of_outside _ _ h1]

/-- The seven writes of PUSHA keep the canonical form. -/
theorem State.wf_storeAll {s : State} (ha : s.sp.toNat % 4 = 0) (h : s.mem.wf) : Memory.wf s.storeAll.mem := by
  have room : ∀ k : Word, k.toNat % 4 = 0 → (s.sp - k).toNat + 3 < 4294967296 := fun k hk =>
    room_of_aligned ((toNat_sub_mod_four s.sp k hk).trans ha)
  rw [State.storeAll_mem]
  exact Memory.wf_setWord _ (Memory.wf_setWord _ (Memory.wf_setWord _ (Memory.wf_setWord _ (Memory.wf_setWord _
    (Memory.wf_setWord _ (Memory.wf_setWord _ h (room 4 rfl)) (room 8 rfl)) (room 12 rfl)) (room 16 rfl))
    (room 20 rfl)) (room 24 rfl)) (room 28 rfl)

/-- The words of PUSHA do not overlap, wherever SP points. -/
theorem pushAddr_disjoint (p : Word) {k l : Nat} (hk : k % 4 = 0) (hl : l % 4 = 0) (hk' : k < 32)
    (hl' : l < 32) (hkl : k ≠ l) :
    (p - BitVec.ofNat 32 l).toNat + 4 ≤ (p - BitVec.ofNat 32 k).toNat ∨
      (p - BitVec.ofNat 32 k).toNat + 4 ≤ (p - BitVec.ofNat 32 l).toNat := by
  rw [BitVec.toNat_sub, BitVec.toNat_sub, BitVec.toNat_ofNat, BitVec.toNat_ofNat]
  omega

/-- What the seven words of PUSHA hold afterwards: ST, R6, ..., R1, downwards from SP - 4. -/
theorem State.holdsWord_storeAll (s : State) :
    holdsWord s.storeAll.mem (s.sp - 4) s.st.toWord ∧ holdsWord s.storeAll.mem (s.sp - 8) (s.reg .r6) ∧
    holdsWord s.storeAll.mem (s.sp - 12) (s.reg .r5) ∧ holdsWord s.storeAll.mem (s.sp - 16) (s.reg .r4) ∧
    holdsWord s.storeAll.mem (s.sp - 20) (s.reg .r3) ∧ holdsWord s.storeAll.mem (s.sp - 24) (s.reg .r2) ∧
    holdsWord s.storeAll.mem (s.sp - 28) (s.reg .r1) := by
  have d : ∀ k l : Nat, k % 4 = 0 → l % 4 = 0 → k < 32 → l < 32 → k ≠ l →
      (s.sp - BitVec.ofNat 32 l).toNat + 4 ≤ (s.sp - BitVec.ofNat 32 k).toNat ∨
        (s.sp - BitVec.ofNat 32 k).toNat + 4 ≤ (s.sp - BitVec.ofNat 32 l).toNat :=
    fun k l hk hl hk' hl' hkl => pushAddr_disjoint s.sp hk hl hk' hl' hkl
  have skip : ∀ (m : Memory) (k l : Nat) (v w : Word), k % 4 = 0 → l % 4 = 0 → k < 32 → l < 32 → k ≠ l →
      m.word (s.sp - BitVec.ofNat 32 l).toNat = .ok w →
      (m.setWord (s.sp - BitVec.ofNat 32 k).toNat v).word (s.sp - BitVec.ofNat 32 l).toNat = .ok w := by
    intro m k l v w hk hl hk' hl' hkl hm
    rw [Memory.word_setWord_of_disjoint m v (d k l hk hl hk' hl' hkl), hm]
  simp only [holdsWord_iff, State.storeAll_mem]
  refine ⟨?_, ?_, ?_, ?_, ?_, ?_, ?_⟩
  · exact skip _ 28 4 _ _ rfl rfl (by omega) (by omega) (by omega) (skip _ 24 4 _ _ rfl rfl (by omega) (by omega) (by omega)
      (skip _ 20 4 _ _ rfl rfl (by omega) (by omega) (by omega) (skip _ 16 4 _ _ rfl rfl (by omega) (by omega) (by omega)
      (skip _ 12 4 _ _ rfl rfl (by omega) (by omega) (by omega) (skip _ 8 4 _ _ rfl rfl (by omega) (by omega) (by omega)
      (Memory.word_setWord _ _ _))))))
  · exact skip _ 28 8 _ _ rfl rfl (by omega) (by omega) (by omega) (skip _ 24 8 _ _ rfl rfl (by omega) (by omega) (by omega)
      (skip _ 20 8 _ _ rfl rfl (by omega) (by omega) (by omega) (skip _ 16 8 _ _ rfl rfl (by omega) (by omega) (by omega)
      (skip _ 12 8 _ _ rfl rfl (by omega) (by omega) (by omega) (Memory.word_setWord _ _ _)))))
  · exact skip _ 28 12 _ _ rfl rfl (by omega) (by omega) (by omega) (skip _ 24 12 _ _ rfl rfl (by omega) (by omega) (by omega)
      (skip _ 20 12 _ _ rfl rfl (by omega) (by omega) (by omega) (skip _ 16 12 _ _ rfl rfl (by omega) (by omega) (by omega)
      (Memory.word_setWord _ _ _))))
  · exact skip _ 28 16 _ _ rfl rfl (by omega) (by omega) (by omega) (skip _ 24 16 _ _ rfl rfl (by omega) (by omega) (by omega)
      (skip _ 20 16 _ _ rfl rfl (by omega) (by omega) (by omega) (Memory.word_setWord _ _ _)))
  · exact skip _ 28 20 _ _ rfl rfl (by omega) (by omega) (by omega) (skip _ 24 20 _ _ rfl rfl (by omega) (by omega) (by omega)
      (Memory.word_setWord _ _ _))
  · exact skip _ 28 24 _ _ rfl rfl (by omega) (by omega) (by omega) (Memory.word_setWord _ _ _)
  · exact Memory.word_setWord _ _ _

/-- A fetched word is a held word. -/
theorem State.fetchWord_eq_ok_iff (s : State) (a v : Word) : s.fetchWord a = .ok v ↔ holdsWord s.mem a v := by
  rw [holdsWord_iff]
  unfold State.fetchWord
  cases s.mem.word a.toNat <;> simp

/-- A fetched word that is not there: Unwritten. -/
theorem State.fetchWord_eq_error {s : State} {a : Word} {f : Fault} (h : s.fetchWord a = .error f) :
    ∃ b, f = .unwritten b := by
  unfold State.fetchWord at h
  cases hw : s.mem.word a.toNat with
  | ok v => rw [hw] at h; cases h
  | error b => rw [hw] at h; injection h with h; exact ⟨_, h.symm⟩

/-- The seven reads of POPA, where all seven words are there. -/
theorem State.loadAll_of_holds {s : State} {v1 v2 v3 v4 v5 v6 vs : Word} (h1 : holdsWord s.mem s.sp v1)
    (h2 : holdsWord s.mem (s.sp + 4) v2) (h3 : holdsWord s.mem (s.sp + 8) v3) (h4 : holdsWord s.mem (s.sp + 12) v4)
    (h5 : holdsWord s.mem (s.sp + 16) v5) (h6 : holdsWord s.mem (s.sp + 20) v6) (h7 : holdsWord s.mem (s.sp + 24) vs) :
    s.loadAll = .ok { s with regs := ⟨v1, v2, v3, v4, v5, v6⟩, st := Flags.ofWord vs } := by
  rw [← State.fetchWord_eq_ok_iff] at h1 h2 h3 h4 h5 h6 h7
  simp only [State.loadAll, h1, h2, h3, h4, h5, h6, h7]
  rfl

/-- The seven reads of POPA stop at the first that faults. -/
theorem State.loadAll_of_error {s : State} {pre post : List Word} {a : Word} {f : Fault}
    (e : popAddrs s.sp = pre ++ a :: post) (hp : ∀ c ∈ pre, ∃ v, s.fetchWord c = .ok v)
    (hf : s.fetchWord a = .error f) : s.loadAll = .error f := by
  have hn : pre.length < 7 := by
    have := congrArg List.length e
    simp only [popAddrs, List.length_append, List.length_cons, List.length_nil] at this
    omega
  match pre, hn with
  | [], _ =>
    obtain ⟨rfl, -⟩ := List.cons.inj e
    simp only [State.loadAll, hf]
    rfl
  | [_], _ | [_, _], _ | [_, _, _], _ | [_, _, _, _], _ | [_, _, _, _, _], _ | [_, _, _, _, _, _], _ =>
    simp only [popAddrs, List.cons_append, List.nil_append, List.cons.injEq] at e
    simp only [List.forall_mem_cons, ← e] at hp
    simp only [← e] at hf
    obtain ⟨⟨v1, h1⟩, hp⟩ := hp
    simp only [State.loadAll, h1]
    try
      obtain ⟨⟨v2, h2⟩, hp⟩ := hp
      simp only [h2]
    try
      obtain ⟨⟨v3, h3⟩, hp⟩ := hp
      simp only [h3]
    try
      obtain ⟨⟨v4, h4⟩, hp⟩ := hp
      simp only [h4]
    try
      obtain ⟨⟨v5, h5⟩, hp⟩ := hp
      simp only [h5]
    try
      obtain ⟨⟨v6, h6⟩, hp⟩ := hp
      simp only [h6]
    simp only [hf]
    rfl

/-- The seven reads of POPA: all seven words were there, or a byte holds no value. -/
theorem State.loadAll_cases (s : State) :
    (∃ v1 v2 v3 v4 v5 v6 vs, holdsWord s.mem s.sp v1 ∧ holdsWord s.mem (s.sp + 4) v2 ∧ holdsWord s.mem (s.sp + 8) v3 ∧
      holdsWord s.mem (s.sp + 12) v4 ∧ holdsWord s.mem (s.sp + 16) v5 ∧ holdsWord s.mem (s.sp + 20) v6 ∧
      holdsWord s.mem (s.sp + 24) vs ∧
      s.loadAll = .ok { s with regs := ⟨v1, v2, v3, v4, v5, v6⟩, st := Flags.ofWord vs }) ∨
    ∃ b, s.loadAll = .error (.unwritten b) := by
  have err : ∀ f, (∃ b, f = Fault.unwritten b) → s.loadAll = .error f → ∃ b, s.loadAll = .error (.unwritten b) := by
    rintro f ⟨b, rfl⟩ h
    exact ⟨b, h⟩
  cases h1 : s.fetchWord s.sp with
  | error f => exact .inr (err f (State.fetchWord_eq_error h1) (by simp only [State.loadAll, h1]; rfl))
  | ok v1 =>
  cases h2 : s.fetchWord (s.sp + 4) with
  | error f => exact .inr (err f (State.fetchWord_eq_error h2) (by simp only [State.loadAll, h1, h2]; rfl))
  | ok v2 =>
  cases h3 : s.fetchWord (s.sp + 8) with
  | error f => exact .inr (err f (State.fetchWord_eq_error h3) (by simp only [State.loadAll, h1, h2, h3]; rfl))
  | ok v3 =>
  cases h4 : s.fetchWord (s.sp + 12) with
  | error f => exact .inr (err f (State.fetchWord_eq_error h4) (by simp only [State.loadAll, h1, h2, h3, h4]; rfl))
  | ok v4 =>
  cases h5 : s.fetchWord (s.sp + 16) with
  | error f => exact .inr (err f (State.fetchWord_eq_error h5) (by simp only [State.loadAll, h1, h2, h3, h4, h5]; rfl))
  | ok v5 =>
  cases h6 : s.fetchWord (s.sp + 20) with
  | error f =>
    exact .inr (err f (State.fetchWord_eq_error h6) (by simp only [State.loadAll, h1, h2, h3, h4, h5, h6]; rfl))
  | ok v6 =>
  cases h7 : s.fetchWord (s.sp + 24) with
  | error f =>
    exact .inr (err f (State.fetchWord_eq_error h7) (by simp only [State.loadAll, h1, h2, h3, h4, h5, h6, h7]; rfl))
  | ok vs =>
    rw [State.fetchWord_eq_ok_iff] at h1 h2 h3 h4 h5 h6 h7
    exact .inl ⟨v1, v2, v3, v4, v5, v6, vs, h1, h2, h3, h4, h5, h6, h7, State.loadAll_of_holds h1 h2 h3 h4 h5 h6 h7⟩

end Sys2Proof.Machine
end

