-- ==== Sys2Proof/Laws/PerInstr.lean ====
section
/-! SUPPORT. Per-instruction facts about an instruction as syntax: its encoding and its spelling (R82). -/

namespace Sys2Proof.Laws

/-- The primary form of an instruction is well-formed and has the same words (R82, R96). -/
def AliasEncoding.Statement (i : Instr) : Prop := encode i.canonical = encode i ∧ i.canonical.wf = true

theorem AliasEncoding.ldi (n : Reg) (imm : Word) : AliasEncoding.Statement (.ldi n imm) :=
  ⟨rfl, decide_eq_true rfl⟩

theorem AliasEncoding.ld (n : Reg) (daddr : Word) : AliasEncoding.Statement (.ld n daddr) :=
  ⟨rfl, decide_eq_true rfl⟩

theorem AliasEncoding.ldr (n a : Reg) : AliasEncoding.Statement (.ldr n a) :=
  ⟨rfl, decide_eq_true rfl⟩

theorem AliasEncoding.st (n : Reg) (daddr : Word) : AliasEncoding.Statement (.st n daddr) :=
  ⟨rfl, decide_eq_true rfl⟩

theorem AliasEncoding.str (n a : Reg) : AliasEncoding.Statement (.str n a) :=
  ⟨rfl, decide_eq_true rfl⟩

theorem AliasEncoding.mov (d s : Reg) : AliasEncoding.Statement (.mov d s) :=
  ⟨rfl, decide_eq_true rfl⟩

theorem AliasEncoding.ldsr (n : Reg) (sr : SR) : AliasEncoding.Statement (.ldsr n sr) :=
  ⟨rfl, decide_eq_true rfl⟩

theorem AliasEncoding.stsr (n : Reg) (sr : SR) : AliasEncoding.Statement (.stsr n sr) :=
  ⟨rfl, decide_eq_true rfl⟩

theorem AliasEncoding.add (x y : Reg) : AliasEncoding.Statement (.add x y) :=
  ⟨rfl, decide_eq_true rfl⟩

theorem AliasEncoding.sub (x y : Reg) : AliasEncoding.Statement (.sub x y) :=
  ⟨rfl, decide_eq_true rfl⟩

theorem AliasEncoding.addc (x y : Reg) : AliasEncoding.Statement (.addc x y) :=
  ⟨rfl, decide_eq_true rfl⟩

theorem AliasEncoding.subc (x y : Reg) : AliasEncoding.Statement (.subc x y) :=
  ⟨rfl, decide_eq_true rfl⟩

theorem AliasEncoding.cpl (n : Reg) : AliasEncoding.Statement (.cpl n) :=
  ⟨rfl, decide_eq_true rfl⟩

theorem AliasEncoding.inc (n : Reg) (imm : Word) : AliasEncoding.Statement (.inc n imm) :=
  ⟨rfl, decide_eq_true rfl⟩

theorem AliasEncoding.dec (n : Reg) (imm : Word) : AliasEncoding.Statement (.dec n imm) :=
  ⟨rfl, decide_eq_true rfl⟩

theorem AliasEncoding.cmp (x y : Reg) : AliasEncoding.Statement (.cmp x y) :=
  ⟨rfl, decide_eq_true rfl⟩

theorem AliasEncoding.inv (n : Reg) : AliasEncoding.Statement (.inv n) :=
  ⟨rfl, decide_eq_true rfl⟩

theorem AliasEncoding.and (x y : Reg) : AliasEncoding.Statement (.and x y) :=
  ⟨rfl, decide_eq_true rfl⟩

theorem AliasEncoding.or (x y : Reg) : AliasEncoding.Statement (.or x y) :=
  ⟨rfl, decide_eq_true rfl⟩

theorem AliasEncoding.xor (x y : Reg) : AliasEncoding.Statement (.xor x y) :=
  ⟨rfl, decide_eq_true rfl⟩

theorem AliasEncoding.shl (n : Reg) (count : Byte) : AliasEncoding.Statement (.shl n count) :=
  ⟨rfl, decide_eq_true rfl⟩

theorem AliasEncoding.shr (n : Reg) (count : Byte) : AliasEncoding.Statement (.shr n count) :=
  ⟨rfl, decide_eq_true rfl⟩

theorem AliasEncoding.rotl (n : Reg) (count : Byte) : AliasEncoding.Statement (.rotl n count) :=
  ⟨rfl, decide_eq_true rfl⟩

theorem AliasEncoding.rotr (n : Reg) (count : Byte) : AliasEncoding.Statement (.rotr n count) :=
  ⟨rfl, decide_eq_true rfl⟩

theorem AliasEncoding.shlr (n c : Reg) : AliasEncoding.Statement (.shlr n c) :=
  ⟨rfl, decide_eq_true rfl⟩

theorem AliasEncoding.shrr (n c : Reg) : AliasEncoding.Statement (.shrr n c) :=
  ⟨rfl, decide_eq_true rfl⟩

theorem AliasEncoding.rotlr (n c : Reg) : AliasEncoding.Statement (.rotlr n c) :=
  ⟨rfl, decide_eq_true rfl⟩

theorem AliasEncoding.rotrr (n c : Reg) : AliasEncoding.Statement (.rotrr n c) :=
  ⟨rfl, decide_eq_true rfl⟩

theorem AliasEncoding.sra (n : Reg) (count : Byte) : AliasEncoding.Statement (.sra n count) :=
  ⟨rfl, decide_eq_true rfl⟩

theorem AliasEncoding.srar (n c : Reg) : AliasEncoding.Statement (.srar n c) :=
  ⟨rfl, decide_eq_true rfl⟩

theorem AliasEncoding.rtlx (n : Reg) : AliasEncoding.Statement (.rtlx n) :=
  ⟨rfl, decide_eq_true rfl⟩

theorem AliasEncoding.rtrx (n : Reg) : AliasEncoding.Statement (.rtrx n) :=
  ⟨rfl, decide_eq_true rfl⟩

theorem AliasEncoding.push (n : Reg) : AliasEncoding.Statement (.push n) :=
  ⟨rfl, decide_eq_true rfl⟩

theorem AliasEncoding.pop (n : Reg) : AliasEncoding.Statement (.pop n) :=
  ⟨rfl, decide_eq_true rfl⟩

theorem AliasEncoding.pushsta : AliasEncoding.Statement .pushsta :=
  ⟨rfl, decide_eq_true rfl⟩

theorem AliasEncoding.popsta : AliasEncoding.Statement .popsta :=
  ⟨rfl, decide_eq_true rfl⟩

theorem AliasEncoding.pusha : AliasEncoding.Statement .pusha :=
  ⟨rfl, decide_eq_true rfl⟩

theorem AliasEncoding.popa : AliasEncoding.Statement .popa :=
  ⟨rfl, decide_eq_true rfl⟩

theorem AliasEncoding.call (daddr : Word) : AliasEncoding.Statement (.call daddr) :=
  ⟨rfl, decide_eq_true rfl⟩

theorem AliasEncoding.sbra (a : Reg) : AliasEncoding.Statement (.sbra a) :=
  ⟨rfl, decide_eq_true rfl⟩

theorem AliasEncoding.ret : AliasEncoding.Statement .ret :=
  ⟨rfl, decide_eq_true rfl⟩

theorem AliasEncoding.jmp (daddr : Word) : AliasEncoding.Statement (.jmp daddr) :=
  ⟨rfl, decide_eq_true rfl⟩

theorem AliasEncoding.bra (a : Reg) : AliasEncoding.Statement (.bra a) :=
  ⟨rfl, decide_eq_true rfl⟩

theorem AliasEncoding.nop : AliasEncoding.Statement .nop :=
  ⟨rfl, decide_eq_true rfl⟩

theorem AliasEncoding.halt (message : Word) : AliasEncoding.Statement (.halt message) :=
  ⟨rfl, decide_eq_true rfl⟩

theorem AliasEncoding.jpz (daddr : Word) : AliasEncoding.Statement (.jpz daddr) :=
  ⟨rfl, decide_eq_true rfl⟩

theorem AliasEncoding.jpe (daddr : Word) : AliasEncoding.Statement (.jpe daddr) :=
  ⟨rfl, decide_eq_true rfl⟩

theorem AliasEncoding.jpnz (daddr : Word) : AliasEncoding.Statement (.jpnz daddr) :=
  ⟨rfl, decide_eq_true rfl⟩

theorem AliasEncoding.jpne (daddr : Word) : AliasEncoding.Statement (.jpne daddr) :=
  ⟨rfl, decide_eq_true rfl⟩

theorem AliasEncoding.jpc (daddr : Word) : AliasEncoding.Statement (.jpc daddr) :=
  ⟨rfl, decide_eq_true rfl⟩

theorem AliasEncoding.jpnc (daddr : Word) : AliasEncoding.Statement (.jpnc daddr) :=
  ⟨rfl, decide_eq_true rfl⟩

theorem AliasEncoding.jpo (daddr : Word) : AliasEncoding.Statement (.jpo daddr) :=
  ⟨rfl, decide_eq_true rfl⟩

theorem AliasEncoding.jpno (daddr : Word) : AliasEncoding.Statement (.jpno daddr) :=
  ⟨rfl, decide_eq_true rfl⟩

theorem AliasEncoding.jpp (daddr : Word) : AliasEncoding.Statement (.jpp daddr) :=
  ⟨rfl, decide_eq_true rfl⟩

theorem AliasEncoding.jpn (daddr : Word) : AliasEncoding.Statement (.jpn daddr) :=
  ⟨rfl, decide_eq_true rfl⟩

theorem AliasEncoding.jpbc (daddr : Word) : AliasEncoding.Statement (.jpbc daddr) :=
  ⟨rfl, decide_eq_true rfl⟩

theorem AliasEncoding.jpnbc (daddr : Word) : AliasEncoding.Statement (.jpnbc daddr) :=
  ⟨rfl, decide_eq_true rfl⟩

theorem AliasEncoding.jpd (daddr : Word) : AliasEncoding.Statement (.jpd daddr) :=
  ⟨rfl, decide_eq_true rfl⟩

theorem AliasEncoding.jpnd (daddr : Word) : AliasEncoding.Statement (.jpnd daddr) :=
  ⟨rfl, decide_eq_true rfl⟩

theorem AliasEncoding.jpb (daddr : Word) : AliasEncoding.Statement (.jpb daddr) :=
  ⟨rfl, decide_eq_true rfl⟩

theorem AliasEncoding.jpa (daddr : Word) : AliasEncoding.Statement (.jpa daddr) :=
  ⟨rfl, decide_eq_true rfl⟩

theorem AliasEncoding.jpbe (daddr : Word) : AliasEncoding.Statement (.jpbe daddr) :=
  ⟨rfl, decide_eq_true rfl⟩

theorem AliasEncoding.jpae (daddr : Word) : AliasEncoding.Statement (.jpae daddr) :=
  ⟨rfl, decide_eq_true rfl⟩

theorem AliasEncoding.jpl (daddr : Word) : AliasEncoding.Statement (.jpl daddr) :=
  ⟨rfl, decide_eq_true rfl⟩

theorem AliasEncoding.jpg (daddr : Word) : AliasEncoding.Statement (.jpg daddr) :=
  ⟨rfl, decide_eq_true rfl⟩

theorem AliasEncoding.jpng (daddr : Word) : AliasEncoding.Statement (.jpng daddr) :=
  ⟨rfl, decide_eq_true rfl⟩

theorem AliasEncoding.jple (daddr : Word) : AliasEncoding.Statement (.jple daddr) :=
  ⟨rfl, decide_eq_true rfl⟩

theorem AliasEncoding.jpnl (daddr : Word) : AliasEncoding.Statement (.jpnl daddr) :=
  ⟨rfl, decide_eq_true rfl⟩

theorem AliasEncoding.jpge (daddr : Word) : AliasEncoding.Statement (.jpge daddr) :=
  ⟨rfl, decide_eq_true rfl⟩

theorem AliasEncoding.bit (n : Reg) (k : Byte) : AliasEncoding.Statement (.bit n k) :=
  ⟨rfl, decide_eq_true rfl⟩

theorem AliasEncoding.set (n : Reg) (k : Byte) : AliasEncoding.Statement (.set n k) :=
  ⟨rfl, decide_eq_true rfl⟩

theorem AliasEncoding.clr (n : Reg) (k : Byte) : AliasEncoding.Statement (.clr n k) :=
  ⟨rfl, decide_eq_true rfl⟩

theorem AliasEncoding.bitr (n s : Reg) : AliasEncoding.Statement (.bitr n s) :=
  ⟨rfl, decide_eq_true rfl⟩

theorem AliasEncoding.setr (n s : Reg) : AliasEncoding.Statement (.setr n s) :=
  ⟨rfl, decide_eq_true rfl⟩

theorem AliasEncoding.clrr (n s : Reg) : AliasEncoding.Statement (.clrr n s) :=
  ⟨rfl, decide_eq_true rfl⟩

theorem AliasEncoding.bzf (n : Reg) (k : Byte) : AliasEncoding.Statement (.bzf n k) :=
  ⟨rfl, decide_eq_true rfl⟩

theorem AliasEncoding.bzfr (n s : Reg) : AliasEncoding.Statement (.bzfr n s) :=
  ⟨rfl, decide_eq_true rfl⟩

theorem AliasEncoding.out (n : Reg) (port : Word) : AliasEncoding.Statement (.out n port) :=
  ⟨rfl, decide_eq_true rfl⟩

theorem AliasEncoding.inp (n : Reg) (port : Word) : AliasEncoding.Statement (.inp n port) :=
  ⟨rfl, decide_eq_true rfl⟩

theorem AliasEncoding.checkpoint (message : Word) : AliasEncoding.Statement (.checkpoint message) :=
  ⟨rfl, decide_eq_true rfl⟩

theorem AliasEncoding.chk (message : Word) : AliasEncoding.Statement (.chk message) :=
  ⟨rfl, decide_eq_true rfl⟩

theorem AliasEncoding.breakpoint : AliasEncoding.Statement .breakpoint :=
  ⟨rfl, decide_eq_true rfl⟩

theorem AliasEncoding.brk : AliasEncoding.Statement .brk :=
  ⟨rfl, decide_eq_true rfl⟩

theorem AliasEncoding.pragma (message : Word) : AliasEncoding.Statement (.pragma message) :=
  ⟨rfl, decide_eq_true rfl⟩

end Sys2Proof.Laws
end

