-- ==== Sys2Proof/Laws/Step.lean ====
section
/-! SUPPORT. What the fetch, the step and a run can do, once for all: their equations and their cases. -/

namespace Sys2Proof.Machine

/-! ## Runs -/

/-- No step is the state itself. -/
theorem run_zero (s : State) : Host.Core.run Sys2Proof.core 0 s = .next s := rfl

/-- The first step of a run, on any machine. -/
theorem coreRun_succ_of_next (M : Host.Core) {s t : M.State} (k : Nat) (h : M.step s = .next t) :
    M.run (k + 1) s = M.run k t := by
  simp only [Host.Core.run, h]

/-- A run goes on from the state its first step answers. -/
theorem run_succ_of_next {s t : State} (k : Nat) (h : step s = .next t) :
    Host.Core.run Sys2Proof.core (k + 1) s = Host.Core.run Sys2Proof.core k t :=
  coreRun_succ_of_next Sys2Proof.core k h

/-! ## One step, by what the host does and by the run state -/

theorem step_eq (s : State) : step s = s.machineStep exec := rfl

theorem step_unattended {s : State} (h : s.hostEvents = []) : step s = s.processorStep exec := by
  rw [step_eq, State.machineStep, h]

theorem step_idle {s : State} {rest : List HostEvent} (h : s.hostEvents = .idle :: rest) :
    step s = ({ s with hostEvents := rest } : State).processorStep exec := by
  rw [step_eq, State.machineStep, h]

/-- The two ways the host lets the processor step, once for both. -/
theorem step_of_yieldsTo {s u : State} (h : s.yieldsTo u) : step s = u.processorStep exec := by
  rcases h with ⟨h, rfl⟩ | ⟨rest, h, rfl⟩
  · exact step_unattended h
  · exact step_idle h

theorem State.yieldsTo_self {s : State} (h : s.hostEvents = []) : s.yieldsTo s := .inl ⟨h, rfl⟩

/-- Where the host lets the processor step, all but the host's list is as it was. -/
theorem State.eq_of_yieldsTo {s u : State} (h : s.yieldsTo u) : u = { s with hostEvents := u.hostEvents } := by
  rcases h with ⟨-, rfl⟩ | ⟨rest, -, rfl⟩ <;> rfl

theorem step_confirm {s : State} {rest : List HostEvent} (h : s.hostEvents = .confirm :: rest) :
    step s = .next ({ s with hostEvents := rest } : State).hostConfirm := by
  rw [step_eq, State.machineStep, h]

theorem step_reset {s : State} {v : ResetValues} {rest : List HostEvent} (h : s.hostEvents = .reset v :: rest) :
    step s = .next (({ s with hostEvents := rest } : State).hostReset v) := by
  rw [step_eq, State.machineStep, h]

/-- The processor's step out of Running does nothing (R34). -/
theorem State.processorStep_of_not_running {s : State}
    (exec : Instr → State → Host.Outcome State Fault Refusal) (h : s.run ≠ .running) :
    s.processorStep exec = .next s := by
  unfold State.processorStep
  split
  · next e => exact absurd e h
  · rfl
  · rfl
  · rfl

/-- The processor's step in Running: the fetched instruction, or the fault of the fetch. -/
theorem State.processorStep_of_running {s : State} (exec : Instr → State → Host.Outcome State Fault Refusal)
    (h : s.run = .running) :
    s.processorStep exec =
      match s.fetch with
      | .ok i => s.commit (exec i s)
      | .error f => .next (s.raise f) := by
  cases hf : s.fetch <;> simp only [State.processorStep, h, hf]

/-! ## The fetch -/

/-- A fetch does not depend on what the host is going to do. -/
@[simp] theorem State.fetch_withHostEvents (s : State) (l : List HostEvent) :
    ({ s with hostEvents := l } : State).fetch = s.fetch := rfl

/-- Nor does it where the host's idle entry is consumed. -/
theorem State.fetch_of_yieldsTo {s u : State} (h : s.yieldsTo u) : u.fetch = s.fetch := by
  rw [State.eq_of_yieldsTo h, State.fetch_withHostEvents]

/-- The fetch, once for all: both addresses pass, both words are there, and they decode. -/
theorem State.fetch_eq_ok_iff (s : State) (i : Instr) :
    s.fetch = .ok i ↔
      accessible s.config s.pc ∧ accessible s.config (s.pc + 4) ∧
        ∃ w0 w1, holdsWord s.mem s.pc w0 ∧ holdsWord s.mem (s.pc + 4) w1 ∧ decode w0 w1 = .ok i := by
  simp only [← accessFault_eq_none_iff_accessible, holdsWord_iff]
  unfold State.fetch State.fetchWords State.fetchWord
  cases h0 : accessFault s.config s.pc with
  | some f => simp
  | none =>
    cases h1 : accessFault s.config (s.pc + 4) with
    | some f => simp
    | none =>
      cases h2 : s.mem.word s.pc.toNat with
      | error b => simp
      | ok w0 =>
        cases h3 : s.mem.word (s.pc + 4).toNat with
        | error b => simp
        | ok w1 =>
          simp only [true_and, Except.ok.injEq]
          constructor
          · intro h
            cases hd : decode w0 w1 with
            | ok j => rw [hd] at h; exact ⟨w0, w1, rfl, rfl, by rw [hd]; simpa using h⟩
            | error e => rw [hd] at h; cases h
          · rintro ⟨v0, v1, rfl, rfl, hd⟩
            rw [hd]

/-- A fetch at a misaligned PC. -/
theorem State.fetch_of_accessFault {s : State} {f : Fault} (h : accessFault s.config s.pc = some f) :
    s.fetch = .error f := by
  simp only [State.fetch, State.fetchWords, h]

/-- A fetch whose second word does not pass the checks. -/
theorem State.fetch_of_accessFault_second {s : State} {f : Fault} (h : accessFault s.config s.pc = none)
    (h' : accessFault s.config (s.pc + 4) = some f) : s.fetch = .error f := by
  simp only [State.fetch, State.fetchWords, h, h']

/-- A fetch of words that are no instruction (R91). -/
theorem State.fetch_of_illegal {s : State} {w0 w1 : Word} {e : Illegal} (h : accessible s.config s.pc)
    (h' : accessible s.config (s.pc + 4)) (h0 : holdsWord s.mem s.pc w0) (h1 : holdsWord s.mem (s.pc + 4) w1)
    (hd : decode w0 w1 = .error e) : s.fetch = .error (.illegalInstruction s.pc) := by
  rw [← accessFault_eq_none_iff_accessible] at h h'
  rw [holdsWord_iff] at h0 h1
  simp only [State.fetch, State.fetchWords, State.fetchWord, h, h', h0, h1, hd]

/-- An instruction that decodes and the step around it (R25): all that a step in Running does with it. -/
theorem step_of_fetch {s u : State} {i : Instr} (hr : s.run = .running) (he : s.yieldsTo u)
    (hf : s.fetch = .ok i) : step s = u.commit (exec i u) := by
  have hu : u.run = .running := by rw [State.eq_of_yieldsTo he]; exact hr
  rw [step_of_yieldsTo he, State.processorStep_of_running _ hu, State.fetch_of_yieldsTo he, hf]

/-- A fetch that faults, and the step around it. -/
theorem step_of_fetch_error {s u : State} {f : Fault} (hr : s.run = .running) (he : s.yieldsTo u)
    (hf : s.fetch = .error f) : step s = .next (u.raise f) := by
  have hu : u.run = .running := by rw [State.eq_of_yieldsTo he]; exact hr
  rw [step_of_yieldsTo he, State.processorStep_of_running _ hu, State.fetch_of_yieldsTo he, hf]

/-- Everything a step that answers a next state can be: a Reset, a Confirm, a state out of Running that stays, a fault of
the fetch, an instruction that completes, or one that faults. `u` is the state with this step's host entry consumed. -/
theorem step_cases {s t : State} (h : step s = .next t) :
    ∃ u : State, u = { s with hostEvents := s.hostEvents.tail } ∧
      ((∃ v, s.hostEvents = .reset v :: u.hostEvents ∧ t = u.hostReset v) ∨
        (s.hostEvents = .confirm :: u.hostEvents ∧ t = u.hostConfirm) ∨
        ((s.hostEvents = [] ∨ s.hostEvents = .idle :: u.hostEvents) ∧
          ((s.run ≠ .running ∧ t = u) ∨
            (s.run = .running ∧ ∃ f, u.fetch = .error f ∧ t = u.raise f) ∨
            (s.run = .running ∧ ∃ i, u.fetch = .ok i ∧ (exec i u = .next t ∨ ∃ f, exec i u = .fault f ∧ t = u.raise f))))) := by
  have key : ∀ u : State, u.run = s.run → u.processorStep exec = .next t →
      ((s.run ≠ .running ∧ t = u) ∨
        (s.run = .running ∧ ∃ f, u.fetch = .error f ∧ t = u.raise f) ∨
        (s.run = .running ∧ ∃ i, u.fetch = .ok i ∧ (exec i u = .next t ∨ ∃ f, exec i u = .fault f ∧ t = u.raise f))) := by
    intro u hu hs
    by_cases hr : s.run = .running
    · rw [State.processorStep_of_running _ (hu.trans hr)] at hs
      cases hf : u.fetch with
      | error f =>
        rw [hf] at hs
        injection hs with hs
        exact .inr (.inl ⟨hr, f, rfl, hs.symm⟩)
      | ok i =>
        have hs : u.commit (exec i u) = .next t := by simpa only [hf] using hs
        refine .inr (.inr ⟨hr, i, rfl, ?_⟩)
        cases hx : exec i u with
        | next v => rw [hx] at hs; exact .inl hs
        | fault f => rw [hx] at hs; injection hs with hs; exact .inr ⟨f, rfl, hs.symm⟩
        | refused r => rw [hx] at hs; cases hs
    · rw [State.processorStep_of_not_running _ (by rw [hu]; exact hr)] at hs
      injection hs with hs
      exact .inl ⟨hr, hs.symm⟩
  refine ⟨_, rfl, ?_⟩
  cases he : s.hostEvents with
  | nil =>
    rw [step_unattended he] at h
    refine .inr (.inr ⟨.inl rfl, key _ rfl ?_⟩)
    cases s
    simp only at he
    subst he
    exact h
  | cons e rest =>
    cases e with
    | idle =>
      rw [step_idle he] at h
      exact .inr (.inr ⟨.inr rfl, key _ rfl h⟩)
    | confirm =>
      rw [step_confirm he] at h
      injection h with h
      exact .inr (.inl ⟨rfl, h.symm⟩)
    | reset v =>
      rw [step_reset he] at h
      injection h with h
      exact .inl ⟨v, rfl, h.symm⟩

/-! ## Runs of a program (R257) -/

/-- The steps of a run are steps of the machine. -/
theorem run_of_runsTo {k : Nat} {s t : State} (h : runsTo k s t) : Host.Core.run Sys2Proof.core k s = .next t := by
  induction k generalizing s with
  | zero =>
    obtain rfl : s = t := h
    rfl
  | succ k ih =>
    obtain ⟨-, -, u, hu, h⟩ := h
    rw [run_succ_of_next k hu]
    exact ih h

/-- Two stretches of one run: the longer goes on from the end of the shorter. -/
theorem runsTo_split {j d : Nat} {s t u : State} (hj : runsTo j s u) (h : runsTo (j + d) s t) : runsTo d u t := by
  induction j generalizing s with
  | zero =>
    obtain rfl : s = u := hj
    rwa [Nat.zero_add] at h
  | succ j ih =>
    obtain ⟨-, -, v, hv, hj⟩ := hj
    rw [Nat.succ_add] at h
    obtain ⟨-, -, w, hw, h⟩ := h
    rw [hv] at hw
    injection hw with hw
    subst hw
    exact ih hj h

/-- No run goes on from a state in which it has ended or faulted. -/
theorem runsTo_of_not_goesOn {k : Nat} {s t : State} (hs : s.goesOn = false) (h : runsTo k s t) : k = 0 ∧ s = t := by
  cases k with
  | zero => exact ⟨rfl, h⟩
  | succ k => exact absurd h.1 (by rw [hs]; exact Bool.false_ne_true)

/-- The last step of a run. -/
theorem runsTo_succ_iff (k : Nat) (s t : State) :
    runsTo (k + 1) s t ↔ ∃ u, runsTo k s u ∧ u.goesOn = true ∧ u.resetNext = false ∧ step u = .next t := by
  induction k generalizing s with
  | zero =>
    constructor
    · rintro ⟨h1, h2, u, hu, rfl⟩
      exact ⟨s, rfl, h1, h2, hu⟩
    · rintro ⟨u, rfl, h1, h2, hu⟩
      exact ⟨h1, h2, t, hu, rfl⟩
  | succ k ih =>
    constructor
    · rintro ⟨h1, h2, u, hu, h⟩
      obtain ⟨v, hv, hx⟩ := (ih u).1 h
      exact ⟨v, ⟨h1, h2, u, hu, hv⟩, hx⟩
    · rintro ⟨v, ⟨h1, h2, u, hu, hv⟩, hx⟩
      exact ⟨h1, h2, u, hu, (ih u).2 ⟨v, hv, hx⟩⟩

end Sys2Proof.Machine
end

