-- ==== Sys2Proof/Tests/Slice0.lean ====
section
/-! SUPPORT. Tests: the vectors of spec/95_test_vectors.md (each theorem names its vectors), one ill-formed term for each check
of WellFormed.lean, a word for every constructor, and a witness for the hypotheses of every statement that has some. -/

namespace Sys2Proof.Tests

open Sys2Proof Sys2Proof.Machine

/-! ## Helpers -/

/-- The next state of an outcome. -/
def nextOf : Host.Outcome State Fault Refusal → Option State
  | .next t => some t
  | .fault _ => none
  | .refused _ => none

/-- The fault of an outcome. -/
def faultOf : Host.Outcome State Fault Refusal → Option Fault
  | .next _ => none
  | .fault f => some f
  | .refused _ => none

/-- The vectors' state before the instruction: pc = 0x100, R1 and R2 and ST as given, the rest 0. -/
def before (r1 r2 st : Word) : State :=
  { State.reset with pc := 0x100, regs := ⟨r1, r2, 0, 0, 0, 0⟩, st := Flags.ofWord st }

/-- The vectors' state with SP as given and a word in memory. -/
def withStack (sp a v : Word) (s : State) : State := { s.storeWord a v with sp := sp }

/-- The outcome of the instruction that W0 and W1 decode to; none where they are illegal. -/
def run1 (w0 w1 : Word) (s : State) : Option (Host.Outcome State Fault Refusal) :=
  match decode w0 w1 with
  | .ok i => some (exec i s)
  | .error _ => none

/-- R1 and ST after the instruction with these words (the columns of 2.2 and 2.3), with PC at the next instruction. -/
def aluAfter (w0 w1 r1 r2 st : Word) : Option (Word × Word) :=
  match run1 w0 w1 (before r1 r2 st) with
  | some (.next t) => if t.pc = 0x108 then some (t.regs.r1, t.st.toWord) else none
  | _ => none

/-- What the instruction with these words leaves, read by `f`. -/
def after {α : Type} (w0 w1 : Word) (s : State) (f : State → α) : Option α :=
  match run1 w0 w1 s with
  | some (.next t) => some (f t)
  | _ => none

/-- The fault the instruction with these words raises. -/
def faults (w0 w1 : Word) (s : State) : Option Fault :=
  match run1 w0 w1 s with
  | some (.fault f) => some f
  | _ => none

/-! ## WellFormed: an ill-formed term for each check -/

/-- The six aliases are refused as spellings; a primary mnemonic passes (R82). -/
theorem test_wf_alias : (Instr.jpe 0).wf = false ∧ (Instr.jpne 0).wf = false ∧ (Instr.jple 0).wf = false ∧
    (Instr.jpge 0).wf = false ∧ (Instr.chk 0).wf = false ∧ Instr.brk.wf = false ∧ (Instr.jpz 0).wf = true := by decide

/-- An unassigned opcode (E2, E13). -/
theorem test_wf_opcode : legalWord 0 = false ∧ legalWord 0x000000000000018F = false := by decide

/-- The reserved byte and the fields a format does not use (E3, E6, E7, E10). -/
theorem test_wf_mask : legalWord 0x0000000100002120 = false ∧ legalWord 0x0000000001002120 = false ∧
    legalWord 0x0000000000010120 = false ∧ legalWord 0x000000000000014B = false := by decide

/-- Register and selector fields out of range (E4, E5, E8, E9), and ra = 0 and ra = 7. -/
theorem test_wf_fields : legalWord 0x0000000000007120 = false ∧ legalWord 0x0000000000000120 = false ∧
    legalWord 0x0000000000004116 = false ∧ legalWord 0x0000000000000116 = false ∧
    legalWord 0x0000000000000024 = false ∧ legalWord 0x0000000000000724 = false := by decide

/-- Legal words pass (E1, E11, E12). -/
theorem test_wf_legal : legalWord 0x0000000000002120 = true ∧ legalWord 0x0000000000FF0130 = true ∧
    legalWord 0xFFFFFFF800000049 = true := by decide

/-! ## Decoding: a word written out from R85 to R90 for every constructor -/

/-- The words of the transport instructions. -/
theorem test_decode_transport :
    decode 0x00000310 0xDEADBEEF = .ok (.ldi .r3 0xDEADBEEF) ∧
    decode 0x00000111 0x00002000 = .ok (.ld .r1 0x2000) ∧
    decode 0x00002112 0 = .ok (.ldr .r1 .r2) ∧
    decode 0x00000113 0x00002004 = .ok (.st .r1 0x2004) ∧
    decode 0x00002114 0 = .ok (.str .r1 .r2) ∧
    decode 0x00005415 0 = .ok (.mov .r4 .r5) ∧
    decode 0x00001116 0 = .ok (.ldsr .r1 .pc) ∧
    decode 0x00002116 0 = .ok (.ldsr .r1 .sp) ∧
    decode 0x00003116 0 = .ok (.ldsr .r1 .st) ∧
    decode 0x00001117 0 = .ok (.stsr .r1 .pc) ∧
    decode 0x00002117 0 = .ok (.stsr .r1 .sp) ∧
    decode 0x00003117 0 = .ok (.stsr .r1 .st) :=
  ⟨rfl, rfl, rfl, rfl, rfl, rfl, rfl, rfl, rfl, rfl, rfl, rfl⟩

/-- The words of the arithmetic instructions. -/
theorem test_decode_arithmetic :
    decode 0x00002120 0 = .ok (.add .r1 .r2) ∧
    decode 0x00002121 0 = .ok (.sub .r1 .r2) ∧
    decode 0x00002122 0 = .ok (.addc .r1 .r2) ∧
    decode 0x00002123 0 = .ok (.subc .r1 .r2) ∧
    decode 0x00000124 0 = .ok (.cpl .r1) ∧
    decode 0x00000125 0x10 = .ok (.inc .r1 0x10) ∧
    decode 0x00000126 1 = .ok (.dec .r1 1) ∧
    decode 0x00002127 0 = .ok (.cmp .r1 .r2) ∧
    decode 0x00000128 0 = .ok (.inv .r1) ∧
    decode 0x00002129 0 = .ok (.and .r1 .r2) ∧
    decode 0x0000212A 0 = .ok (.or .r1 .r2) ∧
    decode 0x0000212B 0 = .ok (.xor .r1 .r2) :=
  ⟨rfl, rfl, rfl, rfl, rfl, rfl, rfl, rfl, rfl, rfl, rfl, rfl⟩

/-- The words of the shift instructions. -/
theorem test_decode_shift :
    decode 0x00FF0130 0 = .ok (.shl .r1 0xFF) ∧
    decode 0x00210131 0 = .ok (.shr .r1 0x21) ∧
    decode 0x00080132 0 = .ok (.rotl .r1 8) ∧
    decode 0x00040133 0 = .ok (.rotr .r1 4) ∧
    decode 0x00002134 0 = .ok (.shlr .r1 .r2) ∧
    decode 0x00002135 0 = .ok (.shrr .r1 .r2) ∧
    decode 0x00002136 0 = .ok (.rotlr .r1 .r2) ∧
    decode 0x00002137 0 = .ok (.rotrr .r1 .r2) ∧
    decode 0x00C80138 0 = .ok (.sra .r1 0xC8) ∧
    decode 0x00002139 0 = .ok (.srar .r1 .r2) ∧
    decode 0x0000013A 0 = .ok (.rtlx .r1) ∧
    decode 0x0000013B 0 = .ok (.rtrx .r1) :=
  ⟨rfl, rfl, rfl, rfl, rfl, rfl, rfl, rfl, rfl, rfl, rfl, rfl⟩

/-- The words of the control instructions. -/
theorem test_decode_control :
    decode 0x00000140 0 = .ok (.push .r1) ∧
    decode 0x00000241 0 = .ok (.pop .r2) ∧
    decode 0x00000042 0 = .ok (.pushsta) ∧
    decode 0x00000043 0 = .ok (.popsta) ∧
    decode 0x00000044 0 = .ok (.pusha) ∧
    decode 0x00000045 0 = .ok (.popa) ∧
    decode 0x00000046 0x400 = .ok (.call 0x400) ∧
    decode 0x00000347 0 = .ok (.sbra .r3) ∧
    decode 0x00000048 0 = .ok (.ret) ∧
    decode 0x00000049 0xFFFFFFF8 = .ok (.jmp 0xFFFFFFF8) ∧
    decode 0x0000014A 0 = .ok (.bra .r1) ∧
    decode 0x0000004B 0 = .ok (.nop) ∧
    decode 0x0000004C 1 = .ok (.halt 1) :=
  ⟨rfl, rfl, rfl, rfl, rfl, rfl, rfl, rfl, rfl, rfl, rfl, rfl, rfl⟩

/-- The words of the branch instructions. -/
theorem test_decode_branch :
    decode 0x00000050 0x400 = .ok (.jpz 0x400) ∧
    decode 0x00000051 0x400 = .ok (.jpnz 0x400) ∧
    decode 0x00000052 0x400 = .ok (.jpc 0x400) ∧
    decode 0x00000053 0x400 = .ok (.jpnc 0x400) ∧
    decode 0x00000054 0x400 = .ok (.jpo 0x400) ∧
    decode 0x00000055 0x400 = .ok (.jpno 0x400) ∧
    decode 0x00000056 0x400 = .ok (.jpp 0x400) ∧
    decode 0x00000057 0x400 = .ok (.jpn 0x400) ∧
    decode 0x00000058 0x400 = .ok (.jpbc 0x400) ∧
    decode 0x00000059 0x400 = .ok (.jpnbc 0x400) ∧
    decode 0x0000005A 0x400 = .ok (.jpd 0x400) ∧
    decode 0x0000005B 0x400 = .ok (.jpnd 0x400) ∧
    decode 0x0000005C 0x400 = .ok (.jpb 0x400) ∧
    decode 0x0000005D 0x400 = .ok (.jpa 0x400) ∧
    decode 0x0000005E 0x400 = .ok (.jpbe 0x400) ∧
    decode 0x0000005F 0x400 = .ok (.jpae 0x400) ∧
    decode 0x00000060 0x400 = .ok (.jpl 0x400) ∧
    decode 0x00000061 0x400 = .ok (.jpg 0x400) ∧
    decode 0x00000062 0x400 = .ok (.jpng 0x400) ∧
    decode 0x00000063 0x400 = .ok (.jpnl 0x400) :=
  ⟨rfl, rfl, rfl, rfl, rfl, rfl, rfl, rfl, rfl, rfl, rfl, rfl, rfl, rfl, rfl, rfl, rfl, rfl, rfl, rfl⟩

/-- The words of the bit instructions. -/
theorem test_decode_bit :
    decode 0x001F0170 0 = .ok (.bit .r1 31) ∧
    decode 0x00FF0171 0 = .ok (.set .r1 255) ∧
    decode 0x001F0172 0 = .ok (.clr .r1 31) ∧
    decode 0x00002173 0 = .ok (.bitr .r1 .r2) ∧
    decode 0x00002174 0 = .ok (.setr .r1 .r2) ∧
    decode 0x00002175 0 = .ok (.clrr .r1 .r2) ∧
    decode 0x00040176 0 = .ok (.bzf .r1 4) ∧
    decode 0x00001177 0 = .ok (.bzfr .r1 .r1) :=
  ⟨rfl, rfl, rfl, rfl, rfl, rfl, rfl, rfl⟩

/-- The words of the io and debug instructions. -/
theorem test_decode_io_debug :
    decode 0x00000180 0x10 = .ok (.out .r1 0x10) ∧
    decode 0x00000281 0xFFFFFFFF = .ok (.inp .r2 0xFFFFFFFF) ∧
    decode 0x00000090 2 = .ok (.checkpoint 2) ∧
    decode 0x00000091 0 = .ok (.breakpoint) ∧
    decode 0x00000092 3 = .ok (.pragma 3) :=
  ⟨rfl, rfl, rfl, rfl, rfl⟩

/-- The words of the aliases are those of JPZ, JPNZ, JPNG, JPNL, CHECKPOINT and BREAKPOINT (R82). -/
theorem test_encode_alias : encode (.jpe 0x400) = (0x50, 0x400) ∧ encode (.jpne 0x400) = (0x51, 0x400) ∧
    encode (.jple 0x400) = (0x62, 0x400) ∧ encode (.jpge 0x400) = (0x63, 0x400) ∧ encode (.chk 2) = (0x90, 2) ∧
    encode .brk = (0x91, 0) := by decide

/-- The memory image of LDI R1,0x00010000 (2.8), little endian, W0 first. -/
theorem test_bytes_ldi : decodeBytes [0x10, 0x01, 0, 0, 0, 0, 0x01, 0, 0xAA] = .ok (.ldi .r1 0x00010000, [0xAA]) ∧
    encodeBytes (.ldi .r1 0x00010000) = [0x10, 0x01, 0, 0, 0, 0, 0x01, 0] := ⟨rfl, rfl⟩

/-- The opcode table's numbering: bit 0 is the least significant bit of W0, and W1 follows. -/
theorem test_decodeTableWord : decodeTableWord 64 0x0001000000000110 = some (.ldi .r1 0x00010000) ∧
    decodeTableWord 32 0x0001000000000110 = some (.ldi .r1 0) ∧ decodeTableWord 64 0 = none := ⟨rfl, rfl, rfl⟩

/-! ## Arithmetic, logic, shifts: vectors of 2.2 and 2.3 -/

/-- A2 and A3. -/
theorem test_add :
    aluAfter 0x00002120 0x00000000 0x7FFFFFFF 0x00000001 0x00 = some (0x80000000, 0x0E) ∧
    aluAfter 0x00002120 0x00000000 0xFFFFFFFF 0x00000001 0x00 = some (0x00000000, 0x32) := by decide

/-- A8 and A10. -/
theorem test_sub :
    aluAfter 0x00002121 0x00000000 0x00000003 0x00000005 0x00 = some (0xFFFFFFFE, 0x04) ∧
    aluAfter 0x00002121 0x00000000 0x80000000 0x00000001 0x00 = some (0x7FFFFFFF, 0x18) := by decide

/-- A13 and A16. -/
theorem test_addc :
    aluAfter 0x00002122 0x00000000 0xFFFFFFFF 0x00000000 0x10 = some (0x00000000, 0x32) ∧
    aluAfter 0x00002122 0x00000000 0x7FFFFFFF 0x00000000 0x10 = some (0x80000000, 0x0E) := by decide

/-- A17 and A19. -/
theorem test_subc :
    aluAfter 0x00002123 0x00000000 0x00000005 0x00000003 0x00 = some (0x00000002, 0x12) ∧
    aluAfter 0x00002123 0x00000000 0xFFFFFFFF 0x00000000 0x10 = some (0x00000000, 0x32) := by decide

/-- A24 and A25. -/
theorem test_cpl :
    aluAfter 0x00000124 0x00000000 0x00000000 0 0x00 = some (0x00000000, 0x32) ∧
    aluAfter 0x00000124 0x00000000 0x80000000 0 0x00 = some (0x80000000, 0x0E) := by decide

/-- A27 and A29. -/
theorem test_inc :
    aluAfter 0x00000125 0x00000001 0xFFFFFFFF 0 0x00 = some (0x00000000, 0x32) ∧
    aluAfter 0x00000125 0x00000010 0x7FFFFFF0 0 0x00 = some (0x80000000, 0x0C) := by decide

/-- A31 and A32. -/
theorem test_dec :
    aluAfter 0x00000126 0x00000001 0x00000000 0 0x00 = some (0xFFFFFFFF, 0x04) ∧
    aluAfter 0x00000126 0x00000001 0x80000000 0 0x00 = some (0x7FFFFFFF, 0x18) := by decide

/-- A34 and A37. -/
theorem test_cmp :
    aluAfter 0x00002127 0x00000000 0x00000003 0x00000005 0x00 = some (0x00000003, 0x04) ∧
    aluAfter 0x00002127 0x00000000 0xFFFFFFFF 0x00000001 0x00 = some (0xFFFFFFFF, 0x16) := by decide

/-- A39 and A40. -/
theorem test_inv :
    aluAfter 0x00000128 0x00000000 0x00000000 0 0x1A = some (0xFFFFFFFF, 0x1E) ∧
    aluAfter 0x00000128 0x00000000 0xFFFFFFFF 0 0x1A = some (0x00000000, 0x3A) := by decide

/-- A41 and A42. -/
theorem test_and :
    aluAfter 0x00002129 0x00000000 0xF0F0F0F0 0x0F0F0F0F 0x1A = some (0x00000000, 0x3A) ∧
    aluAfter 0x00002129 0x00000000 0x80000001 0x80000000 0x00 = some (0x80000000, 0x04) := by decide

/-- A43 and A44. -/
theorem test_or :
    aluAfter 0x0000212A 0x00000000 0x00000000 0x00000000 0x1A = some (0x00000000, 0x3A) ∧
    aluAfter 0x0000212A 0x00000000 0x80000000 0x00000001 0x00 = some (0x80000001, 0x04) := by decide

/-- A45 and A46. -/
theorem test_xor :
    aluAfter 0x0000212B 0x00000000 0xAAAAAAAA 0xAAAAAAAA 0x1A = some (0x00000000, 0x3A) ∧
    aluAfter 0x0000212B 0x00000000 0xAAAAAAAA 0x55555555 0x00 = some (0xFFFFFFFF, 0x04) := by decide

/-- S3 and S4. -/
theorem test_shl :
    aluAfter 0x00000130 0x00000000 0x12345678 0 0x10 = some (0x12345678, 0x10) ∧
    aluAfter 0x00200130 0x00000000 0x00000003 0 0x00 = some (0x00000000, 0x30) := by decide

/-- S7 and S10. -/
theorem test_shr :
    aluAfter 0x00010131 0x00000000 0x80000001 0 0x00 = some (0x40000000, 0x10) ∧
    aluAfter 0x00210131 0x00000000 0xFFFFFFFF 0 0x10 = some (0x00000000, 0x20) := by decide

/-- S13 and S17. -/
theorem test_sra :
    aluAfter 0x001F0138 0x00000000 0x80000000 0 0x00 = some (0xFFFFFFFF, 0x04) ∧
    aluAfter 0x00200138 0x00000000 0x7FFFFFFF 0 0x10 = some (0x00000000, 0x20) := by decide

/-- S20 and S24. -/
theorem test_rotl :
    aluAfter 0x00080132 0x00000000 0x12345678 0 0x00 = some (0x34567812, 0x00) ∧
    aluAfter 0x00050132 0x00000000 0x00000000 0 0x10 = some (0x00000000, 0x20) := by decide

/-- S26 and S27. -/
theorem test_rotr :
    aluAfter 0x00040133 0x00000000 0x12345678 0 0x00 = some (0x81234567, 0x14) ∧
    aluAfter 0x00200133 0x00000000 0x12345678 0 0x00 = some (0x12345678, 0x00) := by decide

/-- S29 and S30. -/
theorem test_shlr :
    aluAfter 0x00002134 0x00000000 0x00000001 0x00000004 0x00 = some (0x00000010, 0x00) ∧
    aluAfter 0x00002134 0x00000000 0xFFFFFFFF 0x00000100 0x10 = some (0x00000000, 0x20) := by decide

/-- S32 and S33. -/
theorem test_shrr :
    aluAfter 0x00002135 0x00000000 0x000000F0 0x00000004 0x00 = some (0x0000000F, 0x00) ∧
    aluAfter 0x00002135 0x00000000 0xFFFFFFFF 0xFFFFFFFF 0x10 = some (0x00000000, 0x20) := by decide

/-- S34. -/
theorem test_rotlr :
    aluAfter 0x00002136 0x00000000 0x12345678 0x00000104 0x00 = some (0x23456781, 0x10) := by decide

/-- S35. -/
theorem test_rotrr :
    aluAfter 0x00002137 0x00000000 0x12345678 0x80000004 0x00 = some (0x81234567, 0x14) := by decide

/-- S36 and S37. -/
theorem test_srar :
    aluAfter 0x00002139 0x00000000 0xFFFFFF00 0x00000004 0x00 = some (0xFFFFFFF0, 0x04) ∧
    aluAfter 0x00002139 0x00000000 0x80000000 0x80000000 0x00 = some (0xFFFFFFFF, 0x14) := by decide

/-- S38 and S40. -/
theorem test_rtlx :
    aluAfter 0x0000013A 0x00000000 0x80000000 0 0x00 = some (0x00000000, 0x30) ∧
    aluAfter 0x0000013A 0x00000000 0x00000000 0 0x10 = some (0x00000001, 0x00) := by decide

/-- S41 and S42. -/
theorem test_rtrx :
    aluAfter 0x0000013B 0x00000000 0x00000001 0 0x00 = some (0x00000000, 0x30) ∧
    aluAfter 0x0000013B 0x00000000 0x00000001 0 0x10 = some (0x80000000, 0x14) := by decide

/-- SUBC in the chaining mode: A20 and A22. -/
theorem test_subc_borrowChain :
    (nextOf (exec (.subc .r1 .r2) { before 5 3 0 with config := { Config.standard with subcMode := .borrowChain } })).map
      (fun t => (t.regs.r1, t.st.toWord)) = some (1, 0x12) ∧
    (nextOf (exec (.subc .r1 .r2) { before 0 0 0 with config := { Config.standard with subcMode := .borrowChain } })).map
      (fun t => (t.regs.r1, t.st.toWord)) = some (0xFFFFFFFF, 0x04) := by decide

/-! ## Transport: vectors of 2.1 -/

/-- T1. -/
theorem test_ldi : after 0x00000310 0xDEADBEEF (before 0 0 0x3F) (fun t => (t.regs.r3, t.st.toWord, t.pc)) =
    some (0xDEADBEEF, 0x3F, 0x108) := by decide

/-- T2 (little endian) and T3 (Misaligned). -/
theorem test_ld :
    after 0x00000111 0x2000 { before 0 0 0 with mem := [(0x2000, 0x44), (0x2001, 0x33), (0x2002, 0x22), (0x2003, 0x11)] }
      (fun t => t.regs.r1) = some 0x11223344 ∧
    faults 0x00000111 0x2002 (before 0 0 0) = some (.misaligned 0x2002) := by decide

/-- T4 and T5: the address register is read first. -/
theorem test_ldr :
    after 0x00002112 0 ((before 0 0x2000 0).storeWord 0x2000 0xCAFEBABE) (fun t => (t.regs.r1, t.regs.r2)) =
      some (0xCAFEBABE, 0x2000) ∧
    after 0x00002212 0 ((before 0 0x2000 0).storeWord 0x2000 0xCAFEBABE) (fun t => t.regs.r2) = some 0xCAFEBABE := by decide

/-- T6: little endian. -/
theorem test_st : after 0x00000113 0x2004 (before 0xA1B2C3D4 0 0) (fun t => t.mem) =
    some [(0x2004, 0xD4), (0x2005, 0xC3), (0x2006, 0xB2), (0x2007, 0xA1)] := by decide

/-- T7 (the top of memory) and T8 (the register holds its own address). -/
theorem test_str :
    after 0x00002114 0 (before 0x55 0xFFFFFFFC 0) (fun t => t.mem) =
      some [(0xFFFFFFFC, 0x55), (0xFFFFFFFD, 0), (0xFFFFFFFE, 0), (0xFFFFFFFF, 0)] ∧
    after 0x00002214 0 (before 0 0x3000 0) (fun t => t.mem) =
      some [(0x3000, 0), (0x3001, 0x30), (0x3002, 0), (0x3003, 0)] := by decide

/-- T9: SF is not set. -/
theorem test_mov : after 0x00005415 0 { before 0 0 0 with regs := ⟨0, 0, 0, 0, 0x80000000, 0⟩ }
    (fun t => (t.regs.r4, t.st.toWord)) = some (0x80000000, 0) := by decide

/-- T10, T11 and T12: PC reads as next_pc. -/
theorem test_ldsr :
    after 0x00001116 0 (before 0 0 0) (fun t => t.regs.r1) = some 0x108 ∧
    after 0x00002116 0 { before 0 0 0 with sp := 0x8000 } (fun t => t.regs.r1) = some 0x8000 ∧
    after 0x00003116 0 (before 0 0 0x2D) (fun t => t.regs.r1) = some 0x2D := by decide

/-- T13, T14 (bits 31..6 ignored), T15 and T16 (a jump). -/
theorem test_stsr :
    after 0x00003117 0 (before 0xFFFFFFFF 0 0) (fun t => t.st.toWord) = some 0x3F ∧
    after 0x00003117 0 (before 0xFFFFFFC1 0 0x3E) (fun t => t.st.toWord) = some 1 ∧
    after 0x00002117 0 (before 0x10000 0 0) (fun t => t.sp) = some 0x10000 ∧
    after 0x00001117 0 (before 0x400 0 0) (fun t => t.pc) = some 0x400 := by decide

/-! ## Program control: vectors of 2.4 -/

/-- P2 (SP wraps) and P5 (Misaligned). -/
theorem test_push :
    after 0x00000140 0 (before 7 0 0) (fun t => (t.sp, t.mem.head?)) = some (0xFFFFFFFC, some (0xFFFFFFFC, 7)) ∧
    faults 0x00000140 0 { before 7 0 0 with sp := 0x8002 } = some (.misaligned 0x7FFE) := by decide

/-- P4: SP wraps. -/
theorem test_pop : after 0x00000241 0 (withStack 0xFFFFFFFC 0xFFFFFFFC 9 (before 0 0 0)) (fun t => (t.regs.r2, t.sp)) =
    some (9, 0) := by decide

/-- P6. -/
theorem test_pushsta : after 0x00000042 0 { before 0 0 0x2D with sp := 0x8000 } (fun t => (t.sp, t.mem)) =
    some (0x7FFC, [(0x7FFC, 0x2D), (0x7FFD, 0), (0x7FFE, 0), (0x7FFF, 0)]) := by decide

/-- P7: reserved bits do not take values. -/
theorem test_popsta : after 0x00000043 0 (withStack 0x7FFC 0x7FFC 0xFFFFFFFF (before 0 0 0))
    (fun t => (t.st.toWord, t.sp)) = some (0x3F, 0x8000) := by decide

/-- P8. -/
theorem test_pusha : after 0x00000044 0 { before 0 0 0x20 with regs := ⟨1, 2, 3, 4, 5, 6⟩, sp := 0x10000 }
    (fun t => (t.sp, [t.mem.byte? 0xFFE4, t.mem.byte? 0xFFE8, t.mem.byte? 0xFFEC, t.mem.byte? 0xFFF0,
      t.mem.byte? 0xFFF4, t.mem.byte? 0xFFF8, t.mem.byte? 0xFFFC])) =
    some (0xFFE4, [some 1, some 2, some 3, some 4, some 5, some 6, some 0x20]) := by decide

/-- P9. -/
theorem test_popa : after 0x00000045 0
    { ((((((before 0 0 0).storeWord 0xFFE4 0xA1).storeWord 0xFFE8 0xA2).storeWord 0xFFEC 0xA3).storeWord 0xFFF0 0xA4).storeWord
      0xFFF4 0xA5 |>.storeWord 0xFFF8 0xA6).storeWord 0xFFFC 0xFFFFFF15 with sp := 0xFFE4 }
    (fun t => (t.regs, t.st.toWord, t.sp)) = some (⟨0xA1, 0xA2, 0xA3, 0xA4, 0xA5, 0xA6⟩, 0x15, 0x10000) := by decide

/-- P10. -/
theorem test_call : after 0x00000046 0x400 { before 0 0 0 with sp := 0x8000 } (fun t => (t.pc, t.sp, t.mem)) =
    some (0x400, 0x7FFC, [(0x7FFC, 0x08), (0x7FFD, 0x01), (0x7FFE, 0), (0x7FFF, 0)]) := by decide

/-- P11. -/
theorem test_sbra : after 0x00000347 0 { before 0 0 0 with regs := ⟨0, 0, 0x500, 0, 0, 0⟩, sp := 0x8000 }
    (fun t => (t.pc, t.sp, t.mem.byte? 0x7FFC)) = some (0x500, 0x7FFC, some 0x08) := by decide

/-- P12. -/
theorem test_ret : after 0x00000048 0 (withStack 0x7FFC 0x7FFC 0x108 (before 0 0 0)) (fun t => (t.pc, t.sp)) =
    some (0x108, 0x8000) := by decide

/-- P13. -/
theorem test_jmp : after 0x00000049 0x100 (before 0 0 0) (fun t => t.pc) = some 0x100 := by decide

/-- P14: no fault at the jump; the next step faults. -/
theorem test_bra :
    after 0x0000014A 0 (before 0x402 0 0) (fun t => (t.pc, t.run)) = some (0x402, .running) ∧
    (nextOf (step { before 0x402 0 0 with pc := 0x402 })).map (fun t => (t.run, t.pc)) =
      some (.faulted (.misaligned 0x402) 0x402, 0x402) := by decide

/-- P15. -/
theorem test_nop : after 0x0000004B 0 (before 0 0 0x15) (fun t => (t.pc, t.st.toWord)) = some (0x108, 0x15) := by decide

/-- P16. -/
theorem test_halt : after 0x0000004C 1 { before 0 0 0 with config := { Config.standard with messages := [(1, "done")] } }
    (fun t => (t.run, t.pc, t.display)) = some (.halted, 0x108, [.halt "done"]) := by decide

/-! ## Conditional jumps: vectors of 2.5 -/

/-- Which of the twenty jumps of R203, in the order of their opcodes, are taken with these flags. -/
def taken (st : Word) : List Bool :=
  [exec (.jpz 0x400), exec (.jpnz 0x400), exec (.jpc 0x400), exec (.jpnc 0x400), exec (.jpo 0x400), exec (.jpno 0x400),
   exec (.jpp 0x400), exec (.jpn 0x400), exec (.jpbc 0x400), exec (.jpnbc 0x400), exec (.jpd 0x400), exec (.jpnd 0x400),
   exec (.jpb 0x400), exec (.jpa 0x400), exec (.jpbe 0x400), exec (.jpae 0x400), exec (.jpl 0x400), exec (.jpg 0x400),
   exec (.jpng 0x400), exec (.jpnl 0x400)].map fun f => (nextOf (f (before 0 0 st))).map (·.pc) == some 0x400

/-- J1. -/
theorem test_jumps_J1 : taken 0x32 =
    [true, false, true, false, false, true, false, true, true, false, false, true, false, false, true, true, false, true, true, true] := by decide

/-- J4. -/
theorem test_jumps_J4 : taken 0x16 =
    [false, true, true, false, false, true, true, false, true, false, false, true, false, true, false, true, true, false, true, false] := by decide

/-- J7. -/
theorem test_jumps_J7 : taken 0x0E =
    [false, true, false, true, true, false, true, false, true, false, false, true, true, false, true, false, false, true, false, true] := by decide

/-- DF = 1: JPD is taken, JPND is not; the aliases are taken with their primary forms (R82). -/
theorem test_jumps_dummy_and_alias : (taken 1)[10]? = some true ∧ (taken 1)[11]? = some false ∧
    [exec (.jpe 0x400), exec (.jpne 0x400), exec (.jple 0x400), exec (.jpge 0x400)].map
      (fun f => (nextOf (f (before 0 0 0x32))).map (·.pc)) = [some 0x400, some 0x108, some 0x400, some 0x400] := by decide

/-- JPP and JPN as named (R187, R188, conflict C1). -/
theorem test_jpp_jpn_asNamed :
    (nextOf (exec (.jpp 0x400) { before 0 0 4 with config := { Config.standard with jppJpnSense := .asNamed } })).map (·.pc) =
      some 0x108 ∧
    (nextOf (exec (.jpn 0x400) { before 0 0 4 with config := { Config.standard with jppJpnSense := .asNamed } })).map (·.pc) =
      some 0x400 := by decide

/-! ## Bits, input and output, debugging, faults: vectors of 2.6 and 2.7 -/

/-- B1, B2 and B3. -/
theorem test_bit :
    after 0x00000170 0 (before 1 0 0x3F) (fun t => t.st.toWord) = some 0x1F ∧
    after 0x001F0170 0 (before 0x7FFFFFFF 0 0) (fun t => t.st.toWord) = some 0x20 ∧
    faults 0x00200170 0 (before 0xFFFFFFFF 0 0) = some (.bitIndexRange 32) := by decide

/-- B4 and B6. -/
theorem test_set :
    after 0x00000171 0 (before 0 0 0) (fun t => t.regs.r1) = some 1 ∧
    faults 0x00FF0171 0 (before 0 0 0) = some (.bitIndexRange 255) := by decide

/-- B5: ZF is not set. -/
theorem test_clr : after 0x001F0172 0 (before 0x80000000 0 0) (fun t => (t.regs.r1, t.st.toWord)) = some (0, 0) := by decide

/-- B7. -/
theorem test_bitr : after 0x00002173 0 (before 0x100 8 0x20) (fun t => t.st.toWord) = some 0 := by decide

/-- B8. -/
theorem test_setr : after 0x00002174 0 (before 0 31 0) (fun t => t.regs.r1) = some 0x80000000 := by decide

/-- B9 and B10. -/
theorem test_clrr :
    after 0x00002175 0 (before 0xFFFFFFFF 0 0) (fun t => t.regs.r1) = some 0xFFFFFFFE ∧
    faults 0x00002175 0 (before 0xFFFFFFFF 0x20 0) = some (.bitIndexRange 32) := by decide

/-- B11 and B12. -/
theorem test_bzf :
    after 0x00040176 0 (before 0 0 0) (fun t => t.regs.r1) = some 0x10 ∧
    after 0x00040176 0 (before 0xFFFFFFFF 0 0x20) (fun t => t.regs.r1) = some 0xFFFFFFEF := by decide

/-- B13 and B14 (the bit number is read before the register is written). -/
theorem test_bzfr :
    after 0x00002177 0 (before 0 31 0) (fun t => (t.regs.r1, t.st.toWord)) = some (0x80000000, 0) ∧
    after 0x00001177 0 (before 3 0 0) (fun t => t.regs.r1) = some 0xB := by decide

/-- X1. -/
theorem test_out : after 0x00000180 0x10 (before 0x41 0 0x2A) (fun t => (t.portLog, t.portHistory, t.st.toWord)) =
    some ([.write 0x10 0x41], [.write 0x10 0x41], 0x2A) := by decide

/-- X2. -/
theorem test_in : after 0x00000281 0xFFFFFFFF { before 0 7 0 with portInputs := [0] }
    (fun t => (t.regs.r2, t.st.toWord, t.portLog, t.portInputs)) =
    some (0, 0, [.read 0xFFFFFFFF 0], []) := by decide

/-- X3. -/
theorem test_checkpoint :
    after 0x00000090 2 { before 0 0 0 with config := { Config.standard with messages := [(1, "one"), (2, "two")] } }
      (fun t => (t.run, t.pc, t.display)) = some (.running, 0x108, [.checkpoint "two"]) := by decide

/-- X4; the display is R231's for a model without source lines. -/
theorem test_breakpoint : after 0x00000091 0 (before 0 0 0) (fun t => (t.run, t.pc, t.display)) =
    some (.breakStopped, 0x108, [.breakpoint 0x100]) := by decide

/-- X5, and the premise of R232. -/
theorem test_pragma :
    faults 0x00000092 3 (before 0 0 0) = some (.refused 0x100) ∧
    after 0x00000092 3 { before 0 0 0 with config := { Config.standard with pragma := .noEffect, messages := [(3, "p")] } }
      (fun t => (t.pc, t.display)) = some (0x108, [.pragma "p"]) := by decide

/-- The first step from the bare reset: nothing is there to fetch (log entry 4). -/
theorem test_reset_step : (nextOf (step State.reset)).map (fun t => t.run) = some (.faulted (.unwritten 0) 0) := by decide

/-- The first instruction placed after reset runs. -/
theorem test_placed_first : (nextOf (step (State.reset.withFetchWord 64 0x0000000500000110))).map
    (fun t => (t.regs.r1, t.pc)) = some (5, 8) := by decide

/-! ## Witnesses: a state and operands that meet the hypotheses of each statement that has some, clause by clause -/

/-- A running machine: R1..R6 = 1..6, SP = 0x8000, PC = 0x100. -/
def bench : State := { State.reset with pc := 0x100, sp := 0x8000, regs := ⟨1, 2, 3, 4, 5, 6⟩ }

/-- The parameters with memory at 0 .. 0x103 only: 0x100 is its last word. -/
def narrow : Config := { Config.standard with memMap := [⟨0, 0x104⟩] }

/-- The bench with the words of ADD R1,R2 at PC. -/
def benchAdd : State := (bench.storeWord 0x100 0x2120).storeWord 0x104 0

theorem accessible_bench {a : Word} (h : a.toNat % 4 = 0) : accessible bench.config a :=
  ⟨h, by
    have := a.isLt
    simp only [mapped, bench, State.reset, State.boot, Config.standard, List.any_cons, List.any_nil, Bool.or_false,
      decide_eq_true_eq]
    omega⟩

theorem not_inWords_single {a : Word} {b : Nat} (h : b < a.toNat ∨ a.toNat + 4 ≤ b) : ¬ inWords [a] b := by
  rintro ⟨c, hc, h'⟩
  rw [List.mem_singleton.1 hc] at h'
  omega

theorem witness_DecodeInvertsEncode : (Instr.bzfr .r6 .r1).wf = true := by decide

theorem witness_EncodeInvertsDecode : decode 0x00FF0130 0 = .ok (.shl .r1 255) := rfl

/-- Both ends of every unassigned range. -/
theorem witness_OpcodeMap : ∀ op ∈ [0x00, 0x0F, 0x18, 0x1F, 0x2C, 0x2F, 0x3C, 0x3F, 0x4D, 0x4F, 0x64, 0x6F, 0x78, 0x7F, 0x82,
    0x8F, 0x93, 0xFF], (op ≤ 0x0F ∨ 0x18 ≤ op ∧ op ≤ 0x1F ∨ 0x2C ≤ op ∧ op ≤ 0x2F ∨ 0x3C ≤ op ∧ op ≤ 0x3F ∨
      0x4D ≤ op ∧ op ≤ 0x4F ∨ 0x64 ≤ op ∧ op ≤ 0x6F ∨ 0x78 ≤ op ∧ op ≤ 0x7F ∨ 0x82 ≤ op ∧ op ≤ 0x8F ∨ 0x93 ≤ op) ∧
    (BitVec.ofNat 32 op).toNat % 256 = op := by decide

/-- The bench with one byte of the word at `a` missing: the last. -/
def benchHole (a : Word) : State :=
  { bench with mem := ((bench.mem.setByte a.toNat 1).setByte (a.toNat + 1) 2).setByte (a.toNat + 2) 3 }

/-- The machine right after a Reset whose image is one instruction at 0. -/
def oneInstruction (w0 w1 : Word) : State :=
  State.boot { Config.standard with memInit := (bench.storeWord 0 w0).storeWord 4 w1 |>.mem } ResetValues.zero

/-- No host entry, and an idle one. -/
theorem witness_StepRunsTheDecodedInstruction :
    benchAdd.run = .running ∧ benchAdd.hostEvents = [] ∧ accessible benchAdd.config benchAdd.pc ∧
    accessible benchAdd.config (benchAdd.pc + 4) ∧ holdsWord benchAdd.mem benchAdd.pc 0x2120 ∧
    holdsWord benchAdd.mem (benchAdd.pc + 4) 0 ∧ decode 0x2120 0 = .ok (.add .r1 .r2) ∧
    ({ benchAdd with hostEvents := [.idle, .confirm] } : State).yieldsTo { benchAdd with hostEvents := [.confirm] } :=
  ⟨rfl, rfl, accessible_bench (by decide), accessible_bench (by decide), by unfold holdsWord; decide,
    by unfold holdsWord; decide, rfl, .inr ⟨_, rfl, rfl⟩⟩

/-- Misaligned by 1 and by 3; PC just past the map; PC + 4 just past it; the first, the fourth and the fifth byte missing;
illegal words. -/
theorem witness_FetchFaultOrder :
    (bench.run = .running ∧ bench.yieldsTo bench ∧
      ({ bench with hostEvents := [.idle] } : State).yieldsTo { bench with hostEvents := [] }) ∧
    (({ bench with pc := 1 } : State).pc.toNat % 4 ≠ 0 ∧ ({ bench with pc := 0xFFFFFFFF } : State).pc.toNat % 4 ≠ 0) ∧
    ((0x104 : Word).toNat % 4 = 0 ∧ mapped narrow 0x104 = false) ∧
    (accessible narrow 0x100 ∧ mapped narrow (0x100 + 4) = false) ∧
    (accessible bench.config bench.pc ∧ accessible bench.config (bench.pc + 4) ∧ firstMissing bench.mem 0x100 0) ∧
    firstMissing (benchHole 0x100).mem 0x100 3 ∧
    (holdsWord (bench.storeWord 0x100 0x2120).mem 0x100 0x2120 ∧
      firstMissing (bench.storeWord 0x100 0x2120).mem (0x100 + 4) 0) ∧
    decode 0 0 = .error (.unassignedOpcode 0) :=
  ⟨⟨rfl, .inl ⟨rfl, rfl⟩, .inr ⟨_, rfl, rfl⟩⟩, by decide, by decide, ⟨⟨by decide, by decide⟩, by decide⟩,
    ⟨accessible_bench (by decide), accessible_bench (by decide), by unfold firstMissing; decide⟩,
    by unfold firstMissing; decide, ⟨by unfold holdsWord; decide, by unfold firstMissing; decide⟩, rfl⟩

/-- Also with the second word at the last address. -/
theorem witness_PlacedInstructionRunsNext :
    accessible bench.config bench.pc ∧ accessible bench.config (bench.pc + 4) ∧
    accessible bench.config 0xFFFFFFF8 ∧ accessible bench.config (0xFFFFFFF8 + 4) :=
  ⟨accessible_bench (by decide), accessible_bench (by decide), accessible_bench (by decide), accessible_bench (by decide)⟩

/-- A step that runs an instruction, from a canonical memory. -/
theorem witness_StepKeepsMemoryCanonical :
    benchAdd.canonical ∧ (nextOf (step benchAdd)).map (fun t => (t.regs.r1, t.run)) = some (3, .running) := by
  unfold State.canonical
  decide

theorem witness_ResetIsCanonical : Memory.wf [(0, 1), (0xFFFFFFFF, 2)] := by decide

theorem witness_StepKeepsTheParameters : (nextOf (step { benchAdd with config := narrow })).isSome = true := by decide

/-- A fault from Running; a stay in Halted and in Faulted with and without host entries. -/
theorem witness_FaultsArePreciseAndFinal :
    (bench.run = .running ∧ (nextOf (step bench)).map (·.run) = some (.faulted (.unwritten 0x100) 0x100)) ∧
    (∀ v rest, ({ bench with run := .halted } : State).hostEvents ≠ .reset v :: rest) ∧
    (∀ v rest, ({ bench with run := .halted, hostEvents := [.confirm] } : State).hostEvents ≠ .reset v :: rest) ∧
    (nextOf (step { bench with run := .halted })).isSome = true ∧
    (nextOf (step { bench with run := .faulted (.refused 0) 0, hostEvents := [.confirm] })).isSome = true :=
  by refine ⟨⟨rfl, by decide⟩, ?_, ?_, by decide, by decide⟩ <;> intro v rest h <;> cases h

/-- Reset; Confirm at a breakpoint and in Running; no entry and an idle one out of Running. -/
theorem witness_HostActionsAndResets :
    ({ bench with hostEvents := [.reset ResetValues.zero, .idle] } : State).hostEvents = .reset ResetValues.zero :: [.idle] ∧
    ({ bench with run := .breakStopped, hostEvents := [.confirm] } : State).run = .breakStopped ∧
    ({ bench with hostEvents := [.confirm] } : State).run ≠ .breakStopped ∧
    ({ bench with run := .halted } : State).run ≠ .running ∧
    ({ bench with run := .halted, hostEvents := [.idle] } : State).hostEvents = .idle :: [] := by decide

/-- Instructions that complete, for the frames: one that writes a register, one that stores, one that halts. -/
theorem witness_frames : (∃ t, exec (.add .r1 .r2) bench = .next t) ∧ (∃ t, exec (.st .r1 0x2000) bench = .next t) ∧
    (∃ t, exec (.halt 1) bench = .next t) ∧ (∃ t, exec (.shl .r1 0) bench = .next t) ∧ ¬ inWords [0x2000] 0x2004 ∧
    ¬ inWords [0x2000] 0x1FFF :=
  ⟨⟨_, rfl⟩, ⟨_, rfl⟩, ⟨_, rfl⟩, ⟨_, rfl⟩, not_inWords_single (by decide), not_inWords_single (by decide)⟩

/-- STSR Rn,ST, POPSTA and POPA complete. -/
theorem witness_DummyFlagChangesOnlyWithTheWholeRegister :
    (∃ t, exec (.stsr .r1 .st) bench = .next t) ∧
    (holdsWord (bench.storeWord 0x8000 1).mem bench.sp 1 ∧ ∃ t, exec .popsta (bench.storeWord 0x8000 1) = .next t) ∧
    (holdsWord ((nextOf (exec .pusha bench)).getD bench).mem (0x7FE4 + 24) 0 ∧
      (nextOf (exec .popa ((nextOf (exec .pusha bench)).getD bench))).isSome = true) :=
  ⟨⟨_, rfl⟩, ⟨by unfold holdsWord; decide, ⟨_, rfl⟩⟩, by unfold holdsWord; decide, by decide⟩

/-- The last word, the last word of a map, misaligned by one, just past a map. -/
theorem witness_MemoryReadAfterWrite :
    accessible bench.config 0xFFFFFFFC ∧ accessible narrow 0x100 ∧ (0x101 : Word).toNat % 4 ≠ 0 ∧
    ((0x104 : Word).toNat % 4 = 0 ∧ mapped narrow 0x104 = false) ∧ ¬ inWords [0xFFFFFFFC] 0xFFFFFFFB :=
  ⟨accessible_bench (by decide), ⟨by decide, by decide⟩, by decide, by decide, not_inWords_single (by decide)⟩

/-- The same addresses for the loads, with a word there, with none, and with its last byte missing; R4 holds 4, R1 holds 1. -/
theorem witness_LoadResults :
    (accessible bench.config 0xFFFFFFFC ∧ holdsWord (bench.storeWord 0xFFFFFFFC 7).mem 0xFFFFFFFC 7) ∧
    (accessible bench.config (bench.reg .r4) ∧ holdsWord (bench.storeWord 4 7).mem (bench.reg .r4) 7) ∧
    ((0x101 : Word).toNat % 4 ≠ 0 ∧ (bench.reg .r1).toNat % 4 ≠ 0) ∧
    ((0x104 : Word).toNat % 4 = 0 ∧ mapped narrow 0x104 = false) ∧
    ((({ bench with regs := ⟨0x104, 0, 0, 0, 0, 0⟩, config := narrow } : State).reg .r1).toNat % 4 = 0 ∧
      mapped narrow (({ bench with regs := ⟨0x104, 0, 0, 0, 0, 0⟩, config := narrow } : State).reg .r1) = false) ∧
    (firstMissing bench.mem 0xFFFFFFFC 0 ∧ firstMissing (benchHole 0xFFFFFFFC).mem 0xFFFFFFFC 3) ∧
    (firstMissing bench.mem (bench.reg .r4) 0 ∧ firstMissing (benchHole 4).mem (bench.reg .r4) 3) :=
  ⟨⟨accessible_bench (by decide), by unfold holdsWord; decide⟩, ⟨accessible_bench (by decide), by unfold holdsWord; decide⟩,
    by decide, by decide, by decide, by unfold firstMissing; decide, by unfold firstMissing; decide⟩

/-- The same addresses for the stores. -/
theorem witness_StoreResults :
    accessible bench.config 0xFFFFFFFC ∧ accessible bench.config (bench.reg .r4) ∧ (0x101 : Word).toNat % 4 ≠ 0 ∧
    (bench.reg .r1).toNat % 4 ≠ 0 ∧ mapped narrow 0x104 = false ∧
    mapped narrow (({ bench with regs := ⟨0x104, 0, 0, 0, 0, 0⟩, config := narrow } : State).reg .r1) = false :=
  ⟨accessible_bench (by decide), accessible_bench (by decide), by decide, by decide, by decide, by decide⟩

/-- The third term is 0 in each mode; the chaining mode. -/
theorem witness_SubcResults :
    subcTerm bench.config.subcMode bench.st.cf = 0 ∧
    subcTerm .borrowChain true = 0 ∧
    ({ bench with config := { Config.standard with subcMode := .borrowChain } } : State).config.subcMode = .borrowChain := by
  decide

theorem witness_MultiwordArithmeticChains :
    (∃ t u, exec (.add .r1 .r3) bench = .next t ∧ exec (.addc .r2 .r4) t = .next u) ∧
    (∃ t u, exec (.shl .r1 1) bench = .next t ∧ exec (.rtlx .r2) t = .next u) ∧
    (∃ t u, exec (.shr .r2 1) bench = .next t ∧ exec (.rtrx .r1) t = .next u) :=
  ⟨⟨_, _, rfl, rfl⟩, ⟨_, _, rfl, rfl⟩, ⟨_, _, rfl, rfl⟩⟩

theorem witness_RotatesAreRepeatedOneBitSteps : (1 : Byte) ≠ 0 ∧ (255 : Byte) ≠ 0 := by decide

/-- SP at 0x8000; at 0, where SP - 4 wraps; misaligned; SP - 4 just past a map. -/
theorem witness_PushResults :
    accessible bench.config (bench.sp - 4) ∧ accessible bench.config (0 - 4) ∧
    ({ bench with sp := 0x8002 } : State).sp.toNat % 4 ≠ 0 ∧
    (({ bench with sp := 0x108, config := narrow } : State).sp.toNat % 4 = 0 ∧
      mapped narrow (({ bench with sp := 0x108, config := narrow } : State).sp - 4) = false) :=
  ⟨accessible_bench (by decide), accessible_bench (by decide), by decide, by decide⟩

/-- A word at SP; SP misaligned; just past a map; no word there, and one whose last byte is missing. -/
theorem witness_PopResults :
    (accessible bench.config bench.sp ∧ holdsWord (bench.storeWord 0x8000 7).mem bench.sp 7) ∧
    ({ bench with sp := 0x8002 } : State).sp.toNat % 4 ≠ 0 ∧
    (({ bench with sp := 0x104, config := narrow } : State).sp.toNat % 4 = 0 ∧
      mapped narrow ({ bench with sp := 0x104, config := narrow } : State).sp = false) ∧
    firstMissing bench.mem bench.sp 0 ∧ firstMissing (benchHole 0x8000).mem bench.sp 3 :=
  ⟨⟨accessible_bench (by decide), by unfold holdsWord; decide⟩, by decide, by decide, by unfold firstMissing; decide,
    by unfold firstMissing; decide⟩

/-- The addresses of a list are mapped. -/
theorem mapped_of_all {c : Config} {as : List Word} (h : as.all (mapped c) = true) : ∀ a ∈ as, mapped c a = true :=
  List.all_eq_true.1 h

/-- All seven mapped, also where they wrap; SP misaligned; the last address of PUSHA, and the first, not mapped. -/
theorem witness_PushAllResult :
    (bench.sp.toNat % 4 = 0 ∧ ∀ a ∈ pushAddrs bench.sp, mapped bench.config a = true) ∧
    (∀ a ∈ pushAddrs 12, mapped bench.config a = true) ∧
    ({ bench with sp := 0x8002 } : State).sp.toNat % 4 ≠ 0 ∧
    (pushAddrs 0x1C = [0x18, 0x14, 0x10, 0xC, 8, 4] ++ 0 :: [] ∧
      (∀ b ∈ ([0x18, 0x14, 0x10, 0xC, 8, 4] : List Word), mapped { Config.standard with memMap := [⟨4, 0x100⟩] } b = true) ∧
      mapped { Config.standard with memMap := [⟨4, 0x100⟩] } 0 = false) ∧
    (pushAddrs 0x108 = [] ++ 0x104 :: [0x100, 0xFC, 0xF8, 0xF4, 0xF0, 0xEC] ∧ mapped narrow 0x104 = false) :=
  ⟨⟨by decide, mapped_of_all (by decide)⟩, mapped_of_all (by decide), by decide,
    ⟨by decide, mapped_of_all (by decide), by decide⟩, by decide, by decide⟩

/-- All seven words there; SP misaligned; the second address of POPA not mapped; its first word, and the last byte of its
second, missing. -/
theorem witness_PopAllResult :
    (bench.sp.toNat % 4 = 0 ∧ ∀ a ∈ popAddrs bench.sp, mapped bench.config a = true) ∧
    (∀ k ∈ [0, 4, 8, 12, 16, 20, 24], ∃ v : Word,
      ((nextOf (exec .pusha bench)).getD bench).mem.word ((0x7FE4 : Word) + BitVec.ofNat 32 k).toNat = .ok v) ∧
    ({ bench with sp := 0x8002 } : State).sp.toNat % 4 ≠ 0 ∧
    (popAddrs 0x100 = [0x100] ++ 0x104 :: [0x108, 0x10C, 0x110, 0x114, 0x118] ∧ mapped narrow 0x100 = true ∧
      mapped narrow 0x104 = false) ∧
    (popAddrs bench.sp = [] ++ 0x8000 :: [0x8004, 0x8008, 0x800C, 0x8010, 0x8014, 0x8018] ∧
      firstMissing bench.mem 0x8000 0) ∧
    (popAddrs bench.sp = [0x8000] ++ 0x8004 :: [0x8008, 0x800C, 0x8010, 0x8014, 0x8018] ∧
      holdsWord ((benchHole 0x8004).storeWord 0x8000 7).mem 0x8000 7 ∧
      firstMissing ((benchHole 0x8004).storeWord 0x8000 7).mem 0x8004 3) := by
  refine ⟨⟨by decide, mapped_of_all (by decide)⟩, ?_, by decide, by decide, ⟨by decide, by unfold firstMissing; decide⟩,
    by decide, by unfold holdsWord; decide, by unfold firstMissing; decide⟩
  intro k hk
  simp only [List.mem_cons, List.not_mem_nil, or_false] at hk
  rcases hk with rfl | rfl | rfl | rfl | rfl | rfl | rfl <;> exact ⟨_, rfl⟩

theorem witness_PopaRestoresWhatPushaSaved : (nextOf (exec .pusha bench)).isSome = true ∧
    (nextOf (exec .pusha { bench with sp := 12 })).isSome = true := by decide

theorem witness_CallResults :
    accessible bench.config (bench.sp - 4) ∧ ({ bench with sp := 0x8002 } : State).sp.toNat % 4 ≠ 0 ∧
    (({ bench with sp := 0x108, config := narrow } : State).sp.toNat % 4 = 0 ∧
      mapped narrow (({ bench with sp := 0x108, config := narrow } : State).sp - 4) = false) :=
  ⟨accessible_bench (by decide), by decide, by decide⟩

theorem witness_CallThenRetReturns : (∃ t, exec (.call 0x400) bench = .next t) ∧ ∃ t, exec (.sbra .r1) bench = .next t :=
  ⟨⟨_, rfl⟩, ⟨_, rfl⟩⟩

/-- The words of a JMP to its own address, with host entries that are no Reset. -/
theorem witness_JumpsAndNop :
    let s : State := { oneInstruction 0x49 0 with hostEvents := [.idle, .confirm] }
    s.run = .running ∧ (∀ v, HostEvent.reset v ∉ s.hostEvents) ∧ accessible s.config s.pc ∧
    accessible s.config (s.pc + 4) ∧ holdsWord s.mem s.pc 0x49 ∧ holdsWord s.mem (s.pc + 4) 0 ∧
    decode 0x49 0 = .ok (.jmp s.pc) :=
  ⟨rfl, fun v h => by simp at h, ⟨by decide, by decide⟩, ⟨by decide, by decide⟩, by unfold holdsWord; decide,
    by unfold holdsWord; decide, rfl⟩

/-- Targets of each kind; a stack access that meets memory; a jump to an odd address, and to one that is even and no
multiple of 4, without and with an idle entry. -/
theorem witness_BadTargetsFaultAtTheNextFetch :
    (bench.jumpTarget (.jmp 0x401) = some 0x401 ∧ bench.jumpTarget (.bra .r3) = some 3 ∧
      bench.jumpTarget (.stsr .r3 .pc) = some 3 ∧ bench.jumpTarget (.jpge 0x402) = some 0x402) ∧
    (accessible bench.config (bench.sp - 4) ∧ accessible bench.config bench.sp ∧
      holdsWord (bench.storeWord 0x8000 0x401).mem bench.sp 0x401) ∧
    (∃ t, exec (.jmp 0x401) { bench with hostEvents := [.idle] } = .next t ∧ t.yieldsTo { t with hostEvents := [] }) ∧
    (nextOf (exec (.jmp 0x401) bench)).map (fun t => (t.run, t.hostEvents, t.pc)) = some (.running, [], 0x401) ∧
    (nextOf (exec (.jmp 0x402) bench)).map (fun t => (t.run, t.hostEvents, t.pc)) = some (.running, [], 0x402) ∧
    (0x401 : Word).toNat % 4 ≠ 0 ∧ (0x402 : Word).toNat % 4 ≠ 0 :=
  ⟨by decide, ⟨accessible_bench (by decide), accessible_bench (by decide), by unfold holdsWord; decide⟩,
    ⟨_, rfl, .inr ⟨_, rfl, rfl⟩⟩, by decide, by decide, by decide, by decide⟩

theorem witness_HaltStopsUntilReset :
    ({ bench with run := .halted, hostEvents := [.idle, .confirm] } : State).run = .halted ∧
    (∀ v, HostEvent.reset v ∉ ({ bench with run := .halted, hostEvents := [.idle, .confirm] } : State).hostEvents) ∧
    ({ bench with run := .halted, hostEvents := [.reset ResetValues.zero] } : State).hostEvents =
      .reset ResetValues.zero :: [] :=
  ⟨rfl, fun v h => by simp at h, rfl⟩

theorem witness_ConditionalJumpTable :
    bench.config.jppJpnSense = .asTabulated ∧
    ({ bench with config := { Config.standard with jppJpnSense := .asNamed } } : State).config.jppJpnSense = .asNamed := by
  decide

theorem witness_ComplementaryJumps :
    ((Flags.ofWord 0x20).zf = true ∧ (Flags.ofWord 0x20).of = (Flags.ofWord 0x20).sf) ∧
    ((Flags.ofWord 0x24).zf = true ∧ (Flags.ofWord 0x24).of ≠ (Flags.ofWord 0x24).sf) := by decide

theorem witness_BranchesAfterAComparison :
    (∃ t, exec (.cmp .r1 .r2) bench = .next t) ∧ (∃ t, exec (.sub .r1 .r2) bench = .next t) ∧
    (∃ t, exec (.dec .r1 7) bench = .next t) ∧ bench.config.jppJpnSense = .asTabulated ∧
    ∃ t, exec (.cmp .r1 .r2) { bench with config := { Config.standard with jppJpnSense := .asNamed } } = .next t ∧
      t.config.jppJpnSense = .asNamed :=
  ⟨⟨_, rfl⟩, ⟨_, rfl⟩, ⟨_, rfl⟩, rfl, _, rfl, rfl⟩

/-- Bit 31 is the last, 32 the first that faults. -/
theorem witness_BitResults_BitNumbersAbove31Fault :
    (0 : Byte).toNat ≤ 31 ∧ (31 : Byte).toNat ≤ 31 ∧ 31 < (32 : Byte).toNat ∧ 31 < (255 : Byte).toNat ∧
    (bench.reg .r6).toNat ≤ 31 ∧ 31 < (({ bench with regs := ⟨32, 0, 0, 0, 0, 0⟩ } : State).reg .r1).toNat := by decide

theorem witness_BitThenBzfCopiesABit : (0 : Byte).toNat ≤ 31 ∧ (31 : Byte).toNat ≤ 31 ∧ Reg.r1 ≠ Reg.r2 := by decide

theorem witness_PortAccesses :
    ({ bench with portInputs := [9, 8] } : State).portInputs = 9 :: [8] ∧
    ∃ t, exec (.inp .r1 0x10) { bench with portInputs := [9, 8] } = .next t :=
  ⟨rfl, _, rfl⟩

theorem witness_BreakpointResumesAfterConfirm :
    (∃ t, exec .breakpoint { bench with hostEvents := [.idle, .idle, .confirm, .idle] } = .next t) ∧
    ({ bench with hostEvents := [.idle, .idle, .confirm, .idle] } : State).hostEvents =
      List.replicate 2 .idle ++ .confirm :: [.idle] :=
  ⟨⟨_, rfl⟩, rfl⟩

theorem witness_PragmaInBothReadings :
    bench.config.pragma = .refuse ∧
    ({ bench with config := { Config.standard with pragma := .noEffect } } : State).config.pragma = .noEffect := by decide

/-- A run that ends with its one HALT; a run that is in a JMP to itself; a Reset that starts a run. -/
theorem witness_RunsEndOnlyWhereHaltExecutes :
    (∃ t, endsIn 1 (oneInstruction 0x4C 1) t) ∧
    ((oneInstruction 0x49 0).starts ∧ runsTo 1 (oneInstruction 0x49 0) (oneInstruction 0x49 0) ∧
      (oneInstruction 0x49 0).run = .running ∧ (oneInstruction 0x49 0).fetch = .ok (.jmp (oneInstruction 0x49 0).pc) ∧
      ∀ v, HostEvent.reset v ∉ (oneInstruction 0x49 0).hostEvents) ∧
    ({ bench with run := .halted, hostEvents := [.reset ResetValues.zero] } : State).hostEvents =
      .reset ResetValues.zero :: [] :=
  ⟨⟨_, ⟨oneInstruction 0x4C 1, ResetValues.zero, rfl⟩, ⟨rfl, rfl, _, rfl, rfl⟩, rfl⟩,
    ⟨⟨oneInstruction 0x49 0, ResetValues.zero, rfl⟩, ⟨rfl, rfl, _, rfl, rfl⟩, rfl, rfl, fun v h => by cases h⟩, rfl⟩

/-- A Halted machine to which the host gives a Reset and that then halts again: no run from the Halted state ends, and the
next run begins after the Reset (R257). -/
theorem test_no_run_from_halted (k : Nat) (t : State) :
    ¬ endsIn k { oneInstruction 0x4C 1 with run := .halted, hostEvents := [.reset ResetValues.zero] } t := by
  rintro ⟨⟨b, v, h⟩, -⟩
  cases congrArg State.run h

/-- The environment is not reset: after a Reset its next answer is the one it was about to give (R271). -/
theorem test_reset_keeps_the_environment (p : Word) :
    let s : State := { bench with portLog := [.write 1 2], portHistory := [.write 1 2] }
    (s.hostReset ResetValues.zero).portLog = [] ∧
      (s.hostReset ResetValues.zero).portAnswer p = Config.portAnswer [.write 1 2] p := ⟨rfl, rfl⟩

/-- A fault of each cause that an instruction can raise. -/
theorem witness_ExecutionNeedsNoPrivilege :
    faultOf (exec (.ld .r1 0x101) bench) = some (.misaligned 0x101) ∧
    faultOf (exec (.st .r1 0x104) { bench with config := narrow }) = some (.busError 0x104) ∧
    faultOf (exec .ret bench) = some (.unwritten 0x8000) ∧
    faultOf (exec (.set .r1 32) bench) = some (.bitIndexRange 32) ∧
    faultOf (exec (.pragma 0) bench) = some (.refused 0x100) := by decide

end Sys2Proof.Tests
end

section
/-! PROOFS. The parameters of R7 (`State.config`) over a step: each operation that instructions are made of keeps them, so
each instruction does, and so does every transition that `step_cases` lists (O13). -/

namespace Sys2Proof.Machine

variable {s t : State}

/-! ## What an instruction that goes through the stack, and PRAGMA, can complete with -/

/-- A POP that completes read the word at SP (R162). -/
theorem execPop_eq_next {n : Reg} (h : execPop n s = .next t) :
    ∃ v, s.memRead s.sp = .ok v ∧ t = ((s.setSp (s.sp + 4)).setReg n v).advance := by
  unfold execPop at h
  split at h
  next v u hp =>
    obtain ⟨hv, rfl⟩ := (State.pop_eq_ok_iff s u v).1 hp
    exact ⟨v, hv, (Host.Outcome.next.inj h).symm⟩
  next => cases h

/-- A POPSTA that completes read the word at SP (R164). -/
theorem execPopsta_eq_next (h : execPopsta s = .next t) :
    ∃ v, s.memRead s.sp = .ok v ∧ t = ((s.setSp (s.sp + 4)).setSt (Flags.ofWord v)).advance := by
  unfold execPopsta at h
  split at h
  next v u hp =>
    obtain ⟨hv, rfl⟩ := (State.pop_eq_ok_iff s u v).1 hp
    exact ⟨v, hv, (Host.Outcome.next.inj h).symm⟩
  next => cases h

/-- A RET that completes read its target at SP (R169). -/
theorem execRet_eq_next (h : execRet s = .next t) :
    ∃ v, s.memRead s.sp = .ok v ∧ t = (s.setSp (s.sp + 4)).setPc v := by
  unfold execRet at h
  split at h
  next v u hp =>
    obtain ⟨hv, rfl⟩ := (State.pop_eq_ok_iff s u v).1 hp
    exact ⟨v, hv, (Host.Outcome.next.inj h).symm⟩
  next => cases h

/-- A PUSHA that completes passed its seven checks (R165). -/
theorem execPusha_eq_next (h : execPusha s = .next t) :
    firstFault s.config (pushAddrs s.sp) = none ∧ t = (s.storeAll.setSp (s.sp - 28)).advance := by
  unfold execPusha at h
  split at h
  next => cases h
  next hn => exact ⟨hn, (Host.Outcome.next.inj h).symm⟩

/-- A POPA that completes passed its seven checks and read its seven words (R166). -/
theorem execPopa_eq_next (h : execPopa s = .next t) :
    firstFault s.config (popAddrs s.sp) = none ∧
      ∃ u, s.loadAll = .ok u ∧ t = (u.setSp (s.sp + 28)).advance := by
  unfold execPopa at h
  split at h
  next => cases h
  next hn =>
    split at h
    next u hu => exact ⟨hn, u, hu, (Host.Outcome.next.inj h).symm⟩
    next => cases h

/-- A PRAGMA completes only under the premise that it has no effect (R232). -/
theorem execPragma_eq_next {m : Word} (h : execPragma m s = .next t) :
    s.config.pragma = .noEffect ∧ t = (s.displayed (.pragma (s.message m))).advance := by
  unfold execPragma at h
  split at h
  next => cases h
  next hp => exact ⟨hp, (Host.Outcome.next.inj h).symm⟩

/-! ## The parameters over the accesses and the host's Confirm -/

theorem State.push_config {v : Word} (h : s.push v = .ok t) : t.config = s.config := by
  obtain ⟨-, rfl⟩ := (State.push_eq_ok_iff s t v).1 h
  simp only [State.setSp_config, State.storeWord_config]

theorem State.loadAll_config (h : s.loadAll = .ok t) : t.config = s.config := by
  rcases State.loadAll_cases s with ⟨_, _, _, _, _, _, _, -, -, -, -, -, -, -, hs⟩ | ⟨_, hs⟩
  · obtain rfl := Except.ok.inj (hs.symm.trans h)
    rfl
  · cases hs.symm.trans h

@[simp] theorem State.hostConfirm_config (s : State) : s.hostConfirm.config = s.config := by
  unfold State.hostConfirm
  split
  · exact State.setRun_config _ _
  · rfl

/-! ## The parameters over the two ends of a meaning -/

/-- A meaning that ends by finish keeps what its accesses keep: the advance writes PC only. -/
theorem finish_config {r : Except Fault State} (h : finish r = .next t) (hr : ∀ u, r = .ok u → u.config = s.config) :
    t.config = s.config := by
  obtain ⟨u, hu, rfl⟩ := finish_eq_next h
  exact (State.advance_config u).trans (hr u hu)

/-- `finish_config` where no access may fault. -/
theorem finish_ok_config {u : State} (h : finish (.ok u) = .next t) (hu : u.config = s.config) : t.config = s.config :=
  finish_config h fun _ e => Except.ok.inj e ▸ hu

/-- A meaning that loads PC keeps what its accesses keep. -/
theorem finishAt_config {p : Word} {r : Except Fault State} (h : finishAt p r = .next t)
    (hr : ∀ u, r = .ok u → u.config = s.config) : t.config = s.config := by
  obtain ⟨u, hu, rfl⟩ := finishAt_eq_next h
  exact (State.setPc_config u p).trans (hr u hu)

/-- `finishAt_config` where no access may fault. -/
theorem finishAt_ok_config {p : Word} {u : State} (h : finishAt p (.ok u) = .next t) (hu : u.config = s.config) :
    t.config = s.config :=
  finishAt_config h fun _ e => Except.ok.inj e ▸ hu

/-! ## The parameters over the operations that several instructions share -/

theorem arith_config {n : Reg} {o : AluOut} (h : arith n o s = .next t) : t.config = s.config :=
  finish_ok_config h rfl

theorem logic_config {n : Reg} {r : Word} (h : logic n r s = .next t) : t.config = s.config :=
  finish_ok_config h rfl

theorem shiftBy_config {k : ShiftKind} {n : Reg} {c : NumOperand} (h : shiftBy k n c s = .next t) :
    t.config = s.config :=
  finish_ok_config h rfl

theorem rotateThrough_config {n : Reg} {o : Word × Bool} (h : rotateThrough n o s = .next t) : t.config = s.config :=
  finish_ok_config h rfl

theorem condJump_config {cond : Cond} {d : Word} (h : condJump cond d s = .next t) : t.config = s.config := by
  rw [condJump_eq] at h
  obtain rfl := Host.Outcome.next.inj h
  rfl

theorem load_config {n : Reg} {m : MemOperand} (h : load n m s = .next t) : t.config = s.config := by
  obtain ⟨v, -, rfl⟩ := load_eq_next h
  rfl

theorem store_config {n : Reg} {m : MemOperand} (h : store n m s = .next t) : t.config = s.config := by
  obtain ⟨-, rfl⟩ := store_eq_next h
  simp only [State.advance_config, State.storeWord_config]

/-! ## The parameters over every instruction and every step -/

/-- No instruction writes a parameter: each is made of operations that keep them. -/
theorem exec_config {i : Instr} (h : exec i s = .next t) : t.config = s.config := by
  cases i with
  | add | sub | addc | subc | cpl | inc | dec => exact arith_config h
  | inv | and | or | xor => exact logic_config h
  | shl | shr | rotl | rotr | shlr | shrr | rotlr | rotrr | sra | srar => exact shiftBy_config h
  | rtlx | rtrx => exact rotateThrough_config h
  | jpz | jpe | jpnz | jpne | jpc | jpnc | jpo | jpno | jpp | jpn | jpbc | jpnbc | jpd | jpnd | jpb | jpa | jpbe | jpae
  | jpl | jpg | jpng | jple | jpnl | jpge => exact condJump_config h
  | bit | bitr =>
    obtain ⟨-, rfl⟩ := testBit_eq_next h
    rfl
  | set | setr =>
    obtain ⟨-, rfl⟩ := setBit_eq_next h
    rfl
  | clr | clrr =>
    obtain ⟨-, rfl⟩ := clearBit_eq_next h
    rfl
  | bzf | bzfr =>
    obtain ⟨-, rfl⟩ := copyInvertedZf_eq_next h
    rfl
  | ld | ldr => exact load_config h
  | st | str => exact store_config h
  | push | pushsta => exact finish_config h fun _ hp => State.push_config hp
  | call | sbra => exact finishAt_config h fun _ hp => State.push_config hp
  | ldi | mov | ldsr | cmp | nop | halt | out | inp | checkpoint | chk | breakpoint | brk => exact finish_ok_config h rfl
  | jmp | bra => exact finishAt_ok_config h rfl
  | stsr n sr =>
    cases sr with
    | pc => exact finishAt_ok_config h rfl
    | sp | st => exact finish_ok_config h rfl
  | pop =>
    obtain ⟨v, -, rfl⟩ := execPop_eq_next h
    rfl
  | popsta =>
    obtain ⟨v, -, rfl⟩ := execPopsta_eq_next h
    rfl
  | ret =>
    obtain ⟨v, -, rfl⟩ := execRet_eq_next h
    rfl
  | pusha =>
    obtain ⟨-, rfl⟩ := execPusha_eq_next h
    simp only [State.advance_config, State.setSp_config, State.storeAll_config]
  | popa =>
    obtain ⟨-, u, hu, rfl⟩ := execPopa_eq_next h
    simp only [State.advance_config, State.setSp_config, State.loadAll_config hu]
  | pragma =>
    obtain ⟨-, rfl⟩ := execPragma_eq_next h
    rfl

/-- No transition of the machine writes a parameter: not the host's, not a fault, not an instruction. -/
theorem step_config (h : step s = .next t) : t.config = s.config := by
  obtain ⟨u, hu, hc⟩ := step_cases h
  have hus : u.config = s.config := by rw [hu]
  rcases hc with ⟨v, -, rfl⟩ | ⟨-, rfl⟩ | ⟨-, ⟨-, rfl⟩ | ⟨-, f, -, rfl⟩ | ⟨-, i, -, hx | ⟨f, -, rfl⟩⟩⟩
  · exact (State.hostReset_config u v).trans hus
  · exact (State.hostConfirm_config u).trans hus
  · exact hus
  · exact (State.raise_config u f).trans hus
  · exact (exec_config hx).trans hus
  · exact (State.raise_config u f).trans hus

/-- Settles O13, by the cases of a step: each keeps `State.config`. -/
theorem stepKeepsTheParameters : Obligations.StepKeepsTheParameters :=
  fun _ _ => step_config

end Sys2Proof.Machine
end

section
/-! PROOFS. The state (10_state.md): the registers and flags that a completing instruction leaves as they were, from one
frame that every instruction is held to (O19, O20, O21); ST as a word (O29); a step around its instruction (O7); the state
after reset (O12, O16); the six registers as cells (O18). -/

namespace Sys2Proof.Machine

variable {s t : State} {f g : Flags}

/-! ## Flags kept outside a row of the table of R29 -/

/-- `g` has the flags of `f` wherever the row is blank (R29). -/
structure FlagsKept (row : FlagRow) (f g : Flags) : Prop where
  zf : row.zf = false → g.zf = f.zf
  cf : row.cf = false → g.cf = f.cf
  of : row.of = false → g.of = f.of
  sf : row.sf = false → g.sf = f.sf
  bf : row.bf = false → g.bf = f.bf
  df : row.df = false → g.df = f.df

theorem FlagsKept.refl (row : FlagRow) (f : Flags) : FlagsKept row f f :=
  ⟨fun _ => rfl, fun _ => rfl, fun _ => rfl, fun _ => rfl, fun _ => rfl, fun _ => rfl⟩

theorem flagsKept_of_full_row : FlagsKept ⟨true, true, true, true, true, true⟩ f g :=
  ⟨nofun, nofun, nofun, nofun, nofun, nofun⟩

theorem flagsKept_arith (f : Flags) (o : AluOut) : FlagsKept ⟨true, true, true, true, true, false⟩ f (f.arith o) :=
  ⟨nofun, nofun, nofun, nofun, nofun, fun _ => rfl⟩

theorem flagsKept_resultFlags (f : Flags) (r : Word) :
    FlagsKept ⟨true, false, false, true, false, false⟩ f (resultFlags f r) :=
  ⟨nofun, fun _ => rfl, fun _ => rfl, nofun, fun _ => rfl, fun _ => rfl⟩

theorem flagsKept_resultFlags_carry (f : Flags) (r : Word) (b : Bool) :
    FlagsKept ⟨true, true, false, true, false, false⟩ f { resultFlags f r with cf := b } :=
  ⟨nofun, nofun, fun _ => rfl, nofun, fun _ => rfl, fun _ => rfl⟩

theorem flagsKept_bitTest (f : Flags) (b : Bool) : FlagsKept ⟨true, false, false, false, false, false⟩ f (f.bitTest b) :=
  ⟨nofun, fun _ => rfl, fun _ => rfl, fun _ => rfl, fun _ => rfl, fun _ => rfl⟩

/-- Where a bit was shifted out it goes to CF; where none was, CF stays. -/
theorem shiftFlags_eq (f : Flags) (o : ShiftOut) : shiftFlags f o = { resultFlags f o.r with cf := o.out.getD f.cf } := by
  obtain ⟨r, out⟩ := o
  cases out <;> rfl

/-! ## The frame of an instruction (R21 to R23, R29) -/

/-- From `s` to `t` nothing changes in the registers but `rs`, in SP unless `stack`, in PC but the advance unless `jump`,
and in the flags but those of `row`. -/
structure Framed (rs : List Reg) (stack jump : Bool) (row : FlagRow) (s t : State) : Prop where
  reg : ∀ r : Reg, r ∉ rs → t.reg r = s.reg r
  sp : stack = false → t.sp = s.sp
  pc : jump = false → t.pc = s.pc + 8
  flags : FlagsKept row s.st t.st

section
variable {rs : List Reg} {stack jump : Bool} {row : FlagRow}

/-- A write of one register is framed by that register, whatever else is. -/
theorem framed_of_regs_set {n : Reg} {v : Word} (hr : t.regs = s.regs.set n v) (hs : stack = false → t.sp = s.sp)
    (hp : jump = false → t.pc = s.pc + 8) (hf : FlagsKept row s.st t.st) : Framed [n] stack jump row s t where
  reg r hn := by
    rw [List.mem_singleton] at hn
    rw [State.reg, hr, Regs.get_set_of_ne _ _ hn, State.reg]
  sp := hs
  pc := hp
  flags := hf

theorem framed_after {n : Reg} {v : Word} (hf : FlagsKept row s.st f) : Framed [n] stack jump row s (s.after n v f) :=
  framed_of_regs_set rfl (fun _ => rfl) (fun _ => rfl) hf

/-- Where no register is written. -/
theorem framed_of_regs_eq (hr : t.regs = s.regs) (hs : stack = false → t.sp = s.sp) (hp : jump = false → t.pc = s.pc + 8)
    (hf : FlagsKept row s.st t.st) : Framed rs stack jump row s t :=
  ⟨fun r _ => State.reg_congr hr r, hs, hp, hf⟩

/-! ## The frame of each operation that instructions share -/

theorem arith_framed {n : Reg} {o : AluOut} (h : arith n o s = .next t) :
    Framed [n] stack jump ⟨true, true, true, true, true, false⟩ s t := by
  rw [arith_eq] at h
  obtain rfl := Host.Outcome.next.inj h
  exact framed_after (flagsKept_arith _ _)

theorem logic_framed {n : Reg} {r : Word} (h : logic n r s = .next t) :
    Framed [n] stack jump ⟨true, false, false, true, false, false⟩ s t := by
  rw [logic_meaning_eq] at h
  obtain rfl := Host.Outcome.next.inj h
  exact framed_after (flagsKept_resultFlags _ _)

theorem shiftBy_framed {k : ShiftKind} {n : Reg} {c : NumOperand} (h : shiftBy k n c s = .next t) :
    Framed [n] stack jump ⟨true, true, false, true, false, false⟩ s t := by
  rw [shiftBy_eq, shiftFlags_eq] at h
  obtain rfl := Host.Outcome.next.inj h
  exact framed_after (flagsKept_resultFlags_carry _ _ _)

theorem rotateThrough_framed {n : Reg} {o : Word × Bool} (h : rotateThrough n o s = .next t) :
    Framed [n] stack jump ⟨true, true, false, true, false, false⟩ s t := by
  rw [rotateThrough_eq] at h
  obtain rfl := Host.Outcome.next.inj h
  exact framed_after (flagsKept_resultFlags_carry _ _ _)

theorem condJump_framed {cond : Cond} {d : Word} (h : condJump cond d s = .next t) : Framed rs stack true row s t := by
  rw [condJump_eq] at h
  obtain rfl := Host.Outcome.next.inj h
  exact framed_of_regs_eq rfl (fun _ => rfl) nofun (.refl _ _)

theorem testBit_framed {n : Reg} {k : NumOperand} (h : testBit n k s = .next t) :
    Framed rs stack jump ⟨true, false, false, false, false, false⟩ s t := by
  obtain ⟨-, rfl⟩ := testBit_eq_next h
  exact framed_of_regs_eq rfl (fun _ => rfl) (fun _ => rfl) (flagsKept_bitTest _ _)

theorem load_framed {n : Reg} {m : MemOperand} (h : load n m s = .next t) : Framed [n] stack jump row s t := by
  obtain ⟨v, -, rfl⟩ := load_eq_next h
  exact framed_after (.refl _ _)

theorem store_framed {n : Reg} {m : MemOperand} (h : store n m s = .next t) : Framed rs stack jump row s t := by
  obtain ⟨-, rfl⟩ := store_eq_next h
  exact framed_of_regs_eq rfl (fun _ => rfl) (fun _ => rfl) (.refl _ _)

/-- PUSH and PUSHSTA: SP is all that a push changes of the registers. -/
theorem finish_push_framed {v : Word} (h : finish (s.push v) = .next t) : Framed rs true jump row s t := by
  obtain ⟨u, hu, rfl⟩ := finish_eq_next h
  obtain ⟨-, rfl⟩ := (State.push_eq_ok_iff s u v).1 hu
  exact framed_of_regs_eq rfl nofun (fun _ => rfl) (.refl _ _)

/-- CALL and SBRA. -/
theorem finishAt_push_framed {v p : Word} (h : finishAt p (s.push v) = .next t) : Framed rs true true row s t := by
  obtain ⟨u, hu, rfl⟩ := finishAt_eq_next h
  obtain ⟨-, rfl⟩ := (State.push_eq_ok_iff s u v).1 hu
  exact framed_of_regs_eq rfl nofun nofun (.refl _ _)

/-- An advance over a state whose registers, flags and PC are the old ones. -/
theorem finish_ok_framed {u : State} (h : finish (.ok u) = .next t) (hr : u.regs = s.regs)
    (hs : stack = false → u.sp = s.sp) (hp : u.pc = s.pc) (hf : FlagsKept row s.st u.st) :
    Framed rs stack jump row s t := by
  obtain rfl := Host.Outcome.next.inj h
  exact framed_of_regs_eq hr hs (fun _ => by rw [State.advance_pc, hp]) hf

/-- An unconditional jump. -/
theorem finishAt_ok_framed {p : Word} (h : finishAt p (.ok s) = .next t) : Framed rs stack true row s t := by
  obtain rfl := Host.Outcome.next.inj h
  exact framed_of_regs_eq rfl (fun _ => rfl) nofun (.refl _ _)

/-- An instruction whose one effect is a register. -/
theorem finish_setReg_framed {u : State} {n : Reg} {v : Word} (h : finish (.ok (u.setReg n v)) = .next t)
    (hr : u.regs = s.regs) (hs : u.sp = s.sp) (hp : u.pc = s.pc) (hf : u.st = s.st) :
    Framed [n] stack jump row s t := by
  obtain rfl := Host.Outcome.next.inj h
  refine framed_of_regs_set (v := v) ?_ (fun _ => hs) (fun _ => ?_) ?_
  · rw [State.advance_regs, State.setReg_regs, hr]
  · rw [State.advance_pc, State.setReg_pc, hp]
  · rw [State.advance_st, State.setReg_st, hf]
    exact .refl _ _

end

/-! ## What POPSTA and POPA load ST from -/

/-- A word that an access read is held. -/
theorem State.holdsWord_of_memRead {a v : Word} (h : s.memRead a = .ok v) : holdsWord s.mem a v := by
  obtain ⟨-, hw⟩ := (State.memRead_eq_ok_iff s a v).1 h
  exact (holdsWord_iff _ _ _).2 hw

/-- A POPA that completes loaded six registers, and the flags from the word at SP + 24 (R166). -/
theorem execPopa_loads (h : execPopa s = .next t) :
    ∃ (r : Regs) (v : Word), holdsWord s.mem (s.sp + 24) v ∧
      t = (({ s with regs := r, st := Flags.ofWord v } : State).setSp (s.sp + 28)).advance := by
  obtain ⟨-, u, hu, rfl⟩ := execPopa_eq_next h
  rcases State.loadAll_cases s with ⟨_, _, _, _, _, _, v, -, -, -, -, -, -, hv, hs⟩ | ⟨_, hs⟩
  · obtain rfl := Except.ok.inj (hs.symm.trans hu)
    exact ⟨_, v, hv, rfl⟩
  · cases hs.symm.trans hu

theorem mem_writesRegs_popa (n : Reg) : n ∈ writesRegs .popa := by
  cases n <;> decide

/-! ## The frame of every instruction -/

/-- Every instruction that completes keeps what its rows of the tables of R21 to R23 and R29 leave out. -/
theorem exec_framed {i : Instr} (h : exec i s = .next t) :
    Framed (writesRegs i) (writesSp i) (transfersControl i) (flagRow i) s t := by
  cases i with
  | add | sub | addc | subc | cpl | inc | dec => exact arith_framed h
  | inv | and | or | xor => exact logic_framed h
  | shl | shr | rotl | rotr | shlr | shrr | rotlr | rotrr | sra | srar => exact shiftBy_framed h
  | rtlx | rtrx => exact rotateThrough_framed h
  | jpz | jpe | jpnz | jpne | jpc | jpnc | jpo | jpno | jpp | jpn | jpbc | jpnbc | jpd | jpnd | jpb | jpa | jpbe | jpae
  | jpl | jpg | jpng | jple | jpnl | jpge => exact condJump_framed h
  | bit | bitr => exact testBit_framed h
  | set | setr =>
    obtain ⟨-, rfl⟩ := setBit_eq_next h
    exact framed_after (.refl _ _)
  | clr | clrr =>
    obtain ⟨-, rfl⟩ := clearBit_eq_next h
    exact framed_after (.refl _ _)
  | bzf | bzfr =>
    obtain ⟨-, rfl⟩ := copyInvertedZf_eq_next h
    exact framed_after (.refl _ _)
  | ld | ldr => exact load_framed h
  | st | str => exact store_framed h
  | push | pushsta => exact finish_push_framed h
  | call | sbra => exact finishAt_push_framed h
  | ldi | mov | ldsr | inp => exact finish_setReg_framed h rfl rfl rfl rfl
  | cmp => exact finish_ok_framed h rfl (fun _ => rfl) rfl (flagsKept_arith _ _)
  | nop | halt | out | checkpoint | chk | breakpoint | brk =>
    exact finish_ok_framed h rfl (fun _ => rfl) rfl (.refl _ _)
  | jmp | bra => exact finishAt_ok_framed h
  | stsr n sr =>
    cases sr with
    | pc => exact finishAt_ok_framed h
    | sp => exact finish_ok_framed h rfl nofun rfl (.refl _ _)
    | st => exact finish_ok_framed h rfl (fun _ => rfl) rfl flagsKept_of_full_row
  | pop =>
    obtain ⟨v, -, rfl⟩ := execPop_eq_next h
    exact framed_of_regs_set rfl nofun (fun _ => rfl) (.refl _ _)
  | popsta =>
    obtain ⟨v, -, rfl⟩ := execPopsta_eq_next h
    exact framed_of_regs_eq rfl nofun (fun _ => rfl) flagsKept_of_full_row
  | ret =>
    obtain ⟨v, -, rfl⟩ := execRet_eq_next h
    exact framed_of_regs_eq rfl nofun nofun (.refl _ _)
  | pusha =>
    obtain ⟨-, rfl⟩ := execPusha_eq_next h
    refine framed_of_regs_eq ?_ nofun (fun _ => ?_) ?_
    · rw [State.advance_regs, State.setSp_regs, State.storeAll_regs]
    · rw [State.advance_pc, State.setSp_pc, State.storeAll_pc]
    · rw [State.advance_st, State.setSp_st, State.storeAll_st]
      exact .refl _ _
  | popa =>
    obtain ⟨r, v, -, rfl⟩ := execPopa_loads h
    exact ⟨fun n hn => absurd (mem_writesRegs_popa n) hn, nofun, fun _ => rfl, flagsKept_of_full_row⟩
  | pragma =>
    obtain ⟨-, rfl⟩ := execPragma_eq_next h
    exact framed_of_regs_eq rfl (fun _ => rfl) (fun _ => rfl) (.refl _ _)

/-- Settles O19: the register part of `exec_framed`. -/
theorem registerFrame : Obligations.RegisterFrame := by
  intro i s t h
  have hf := exec_framed h
  exact ⟨hf.reg, hf.sp, hf.pc⟩

/-! ## CF where a shift or rotate has count 0 -/

theorem shiftCount_imm_of_eq_zero {k : Byte} (h : (k == 0) = true) : s.shiftCount (.imm k) = 0 := by
  obtain rfl := eq_of_beq h
  rfl

theorem shiftCount_reg_of_eq_zero {c : Reg} (h : (s.reg c &&& s.config.shiftCountMask == 0) = true) :
    s.shiftCount (.reg c) = 0 := by
  rw [State.shiftCount, eq_of_beq h]
  rfl

/-- No step of the shift is taken, so no bit goes to CF (R140, R141). -/
theorem shiftBy_cf_of_count_zero {k : ShiftKind} {n : Reg} {c : NumOperand} (h : shiftBy k n c s = .next t)
    (hc : s.shiftCount c = 0) : t.st.cf = s.st.cf := by
  rw [shiftBy_eq, hc] at h
  obtain rfl := Host.Outcome.next.inj h
  rfl

theorem exec_cf_of_countIsZero {i : Instr} (h : exec i s = .next t) (hz : s.countIsZero i = true) :
    t.st.cf = s.st.cf := by
  cases i with
  | shl | shr | sra | rotl | rotr => exact shiftBy_cf_of_count_zero h (shiftCount_imm_of_eq_zero hz)
  | shlr | shrr | srar | rotlr | rotrr => exact shiftBy_cf_of_count_zero h (shiftCount_reg_of_eq_zero hz)
  | _ => exact absurd hz Bool.false_ne_true

/-- Settles O20: the flag part of `exec_framed`, and the count 0. -/
theorem flagFrame : Obligations.FlagFrame := by
  intro i s t h
  obtain ⟨hzf, hcf, hof, hsf, hbf, hdf⟩ := (exec_framed h).flags
  exact ⟨hzf, hcf, hof, hsf, hbf, hdf, exec_cf_of_countIsZero h⟩

/-! ## DF (R30) -/

/-- The column DF of R29: only the three instructions that load ST as a whole write it. -/
theorem flagRow_df {i : Instr} (hst : ∀ n, i ≠ .stsr n .st) (hpopsta : i ≠ .popsta) (hpopa : i ≠ .popa) :
    (flagRow i).df = false := by
  cases i with
  | stsr n sr =>
    cases sr with
    | st => exact absurd rfl (hst n)
    | pc | sp => rfl
  | popsta => exact absurd rfl hpopsta
  | popa => exact absurd rfl hpopa
  | _ => rfl

theorem execStsr_st_df {n : Reg} (h : execStsr n .st s = .next t) : t.st.df = (s.reg n).getLsbD 0 := by
  obtain rfl := Host.Outcome.next.inj h
  rfl

theorem execPopsta_df {v : Word} (hv : holdsWord s.mem s.sp v) (h : execPopsta s = .next t) :
    t.st.df = v.getLsbD 0 := by
  obtain ⟨w, hw, rfl⟩ := execPopsta_eq_next h
  obtain rfl := holdsWord_unique hv (State.holdsWord_of_memRead hw)
  rfl

theorem execPopa_df {v : Word} (hv : holdsWord s.mem (s.sp + 24) v) (h : execPopa s = .next t) :
    t.st.df = v.getLsbD 0 := by
  obtain ⟨_, w, hw, rfl⟩ := execPopa_loads h
  obtain rfl := holdsWord_unique hv hw
  rfl

theorem execJpd_eq (d : Word) (s : State) : execJpd d s = .next (s.jumped (if s.st.df then d else s.pc + 8)) :=
  condJump_eq .d d s

theorem execJpnd_eq (d : Word) (s : State) : execJpnd d s = .next (s.jumped (if s.st.df then s.pc + 8 else d)) := by
  rw [execJpnd, condJump_eq, Cond.holds]
  cases s.st.df <;> rfl

/-- Settles O21: DF is in no row of `exec_framed` but those of the three instructions that load ST. -/
theorem dummyFlagChangesOnlyWithTheWholeRegister : Obligations.DummyFlagChangesOnlyWithTheWholeRegister :=
  ⟨fun _ _ _ h hst hpopsta hpopa => (exec_framed h).flags.df (flagRow_df hst hpopsta hpopa),
    fun _ _ _ => execStsr_st_df, fun _ _ _ => execPopsta_df, fun _ _ _ => execPopa_df, execJpd_eq, execJpnd_eq⟩

/-! ## ST as a word (R26, R27) -/

/-- The mask of the six bits that ST holds. -/
theorem getLsbD_flagMask (i : Nat) : (0x3F : Word).getLsbD i = decide (i < 6) := by
  have h : (0x3F : Word).toNat = 2 ^ 6 - 1 := rfl
  rw [BitVec.getLsbD, h, Nat.testBit_two_pow_sub_one]

theorem toWord_ofWord (v : Word) : (Flags.ofWord v).toWord = v &&& 0x3F := by
  apply BitVec.eq_of_getLsbD_eq
  intro i _
  rw [getLsbD_toWord, BitVec.getLsbD_and, getLsbD_flagMask]
  rcases i with _ | _ | _ | _ | _ | _ | i <;> simp [Flags.ofWord]

theorem ofWord_toWord (f : Flags) : Flags.ofWord f.toWord = f := by
  simp only [Flags.ofWord, getLsbD_toWord]
  rfl

theorem toWord_lt (f : Flags) : f.toWord.toNat < 64 := by
  have hz := f.zf.toNat_le
  have hc := f.cf.toNat_le
  have ho := f.of.toNat_le
  have hs := f.sf.toNat_le
  have hb := f.bf.toNat_le
  have hd := f.df.toNat_le
  rw [toNat_toWord]
  omega

/-- Settles O29, bit by bit. -/
theorem statusRegisterReadsBack : Obligations.StatusRegisterReadsBack :=
  ⟨toWord_ofWord, ofWord_toWord, toWord_lt⟩

/-! ## A step around its instruction (R25, R241) -/

/-- Settles O7: the fetch succeeds, and the step commits what the instruction answers. -/
theorem stepRunsTheDecodedInstruction : Obligations.StepRunsTheDecodedInstruction := by
  intro s u w0 w1 i hrun hyield h0 h1 hw0 hw1 hdecode
  have hfetch : s.fetch = .ok i := (State.fetch_eq_ok_iff s i).2 ⟨h0, h1, w0, w1, hw0, hw1, hdecode⟩
  rw [step_of_fetch hrun hyield hfetch]
  cases exec i u <;> rfl

/-! ## The state after reset (R36) -/

theorem wf_nil : Memory.wf [] := ⟨.nil, nofun⟩

/-- A Reset makes memory the image, so the image's form is all that counts. -/
theorem boot_canonical {c : Config} (v : ResetValues) (h : Memory.wf c.memInit) : (State.boot c v).canonical :=
  ⟨h, h⟩

/-- Settles O12: State.reset is a boot state whose image lists nothing. -/
theorem resetIsCanonical : Obligations.ResetIsCanonical :=
  ⟨boot_canonical ResetValues.zero wf_nil, fun _ v h => boot_canonical v h⟩

theorem reset_reg (r : Reg) : State.reset.reg r = 0 := by
  cases r <;> rfl

theorem reset_st_toWord : State.reset.st.toWord = 0 := by
  decide

/-- Settles O16: the fields of `State.boot`, ST below 64 as in every state. -/
theorem resetState : Obligations.ResetState :=
  ⟨fun _ _ => ⟨rfl, rfl, toWord_lt _, rfl, rfl, rfl⟩, rfl, reset_reg, rfl, reset_st_toWord, rfl⟩

/-! ## The registers as cells (R20, R21) -/

/-- Settles O18, by the read-after-write law of the register file. -/
theorem registerReadAfterWrite : Obligations.RegisterReadAfterWrite :=
  State.reg_setReg

end Sys2Proof.Machine
end

section
/-! PROOFS. Memory (20_memory.md): what a completing instruction stores, said once; from it the bytes it leaves as they were
(O22) and, over the cases of a step, the canonical form (O11). The two primitives every access uses (O23); the default memory
map (O24). -/

namespace Sys2Proof.Machine

variable {s t : State}

/-! ## What an instruction does to memory -/

/-- The memory that an instruction storing to the words at `as` leaves behind in `s`: the old one, the old one with one
aligned word written, or that of PUSHA with its seven. -/
inductive MemoryAfter (s : State) : List Word → Memory → Prop where
  | kept : MemoryAfter s [] s.mem
  | word (a v : Word) (ha : a.toNat % 4 = 0) : MemoryAfter s [a] (s.storeWord a v).mem
  | pushAll (hsp : s.sp.toNat % 4 = 0) : MemoryAfter s (pushAddrs s.sp) s.storeAll.mem

theorem MemoryAfter.byte? {as : List Word} {m : Memory} (h : MemoryAfter s as m) {b : Nat} (hb : ¬ inWords as b) :
    m.byte? b = s.mem.byte? b := by
  cases h with
  | kept => rfl
  | word => exact byte?_storeWord_of_not_inWords hb
  | pushAll => exact State.byte?_storeAll s hb

theorem MemoryAfter.wf {as : List Word} {m : Memory} (h : MemoryAfter s as m) (hs : s.mem.wf) : Memory.wf m := by
  cases h with
  | kept => exact hs
  | word a v ha => exact Memory.wf_setWord v hs (room_of_aligned ha)
  | pushAll hsp => exact State.wf_storeAll hsp hs

/-! ## The memory after each operation that instructions share -/

theorem memoryAfter_of_mem_eq (h : t.mem = s.mem) : MemoryAfter s [] t.mem :=
  h ▸ .kept

/-- An instruction that advances and accesses no memory. -/
theorem finish_ok_memoryAfter {u : State} (h : finish (.ok u) = .next t) (hu : u.mem = s.mem) :
    MemoryAfter s [] t.mem := by
  obtain rfl := Host.Outcome.next.inj h
  exact memoryAfter_of_mem_eq hu

/-- An unconditional jump. -/
theorem finishAt_ok_memoryAfter {p : Word} (h : finishAt p (.ok s) = .next t) : MemoryAfter s [] t.mem := by
  obtain rfl := Host.Outcome.next.inj h
  exact .kept

theorem condJump_memoryAfter {cond : Cond} {d : Word} (h : condJump cond d s = .next t) : MemoryAfter s [] t.mem := by
  rw [condJump_eq] at h
  obtain rfl := Host.Outcome.next.inj h
  exact .kept

theorem load_memoryAfter {n : Reg} {m : MemOperand} (h : load n m s = .next t) : MemoryAfter s [] t.mem := by
  obtain ⟨v, -, rfl⟩ := load_eq_next h
  exact .kept

theorem store_memoryAfter {n : Reg} {m : MemOperand} (h : store n m s = .next t) :
    MemoryAfter s [s.effAddr m] t.mem := by
  obtain ⟨⟨haligned, -⟩, rfl⟩ := store_eq_next h
  exact .word _ _ haligned

theorem State.push_memoryAfter {v : Word} (h : s.push v = .ok t) : MemoryAfter s [s.sp - 4] t.mem := by
  obtain ⟨hpass, rfl⟩ := (State.push_eq_ok_iff s t v).1 h
  obtain ⟨haligned, -⟩ := (accessFault_eq_none_iff _ _).1 hpass
  exact .word _ _ haligned

/-- PUSH and PUSHSTA. -/
theorem finish_push_memoryAfter {v : Word} (h : finish (s.push v) = .next t) : MemoryAfter s [s.sp - 4] t.mem := by
  obtain ⟨u, hu, rfl⟩ := finish_eq_next h
  rw [State.advance_mem]
  exact State.push_memoryAfter hu

/-- CALL and SBRA. -/
theorem finishAt_push_memoryAfter {v p : Word} (h : finishAt p (s.push v) = .next t) :
    MemoryAfter s [s.sp - 4] t.mem := by
  obtain ⟨u, hu, rfl⟩ := finishAt_eq_next h
  rw [State.setPc_mem]
  exact State.push_memoryAfter hu

/-- Where PUSHA's first address SP - 4 passes its check, SP is a multiple of 4. -/
theorem sp_aligned_of_firstFault_pushAddrs (h : firstFault s.config (pushAddrs s.sp) = none) : s.sp.toNat % 4 = 0 := by
  have hpass := (firstFault_eq_none_iff _ _).1 h (s.sp - 4) List.mem_cons_self
  obtain ⟨haligned, -⟩ := (accessFault_eq_none_iff _ _).1 hpass
  exact (toNat_sub_mod_four s.sp 4 rfl).symm.trans haligned

/-! ## The memory after every instruction -/

/-- Every instruction that completes stores aligned words, to the addresses of `State.storesTo` and no others. -/
theorem exec_memoryAfter {i : Instr} (h : exec i s = .next t) : MemoryAfter s (s.storesTo i) t.mem := by
  cases i with
  | add | sub | addc | subc | cpl | inc | dec | inv | and | or | xor | cmp
  | shl | shr | rotl | rotr | shlr | shrr | rotlr | rotrr | sra | srar | rtlx | rtrx
  | ldi | mov | ldsr | nop | halt | out | inp | checkpoint | chk | breakpoint | brk => exact finish_ok_memoryAfter h rfl
  | jmp | bra => exact finishAt_ok_memoryAfter h
  | jpz | jpe | jpnz | jpne | jpc | jpnc | jpo | jpno | jpp | jpn | jpbc | jpnbc | jpd | jpnd | jpb | jpa | jpbe | jpae
  | jpl | jpg | jpng | jple | jpnl | jpge => exact condJump_memoryAfter h
  | stsr n sr =>
    cases sr with
    | pc => exact finishAt_ok_memoryAfter h
    | sp | st => exact finish_ok_memoryAfter h rfl
  | bit | bitr =>
    obtain ⟨-, rfl⟩ := testBit_eq_next h
    exact .kept
  | set | setr =>
    obtain ⟨-, rfl⟩ := setBit_eq_next h
    exact .kept
  | clr | clrr =>
    obtain ⟨-, rfl⟩ := clearBit_eq_next h
    exact .kept
  | bzf | bzfr =>
    obtain ⟨-, rfl⟩ := copyInvertedZf_eq_next h
    exact .kept
  | ld | ldr => exact load_memoryAfter h
  | st | str => exact store_memoryAfter h
  | push | pushsta => exact finish_push_memoryAfter h
  | call | sbra => exact finishAt_push_memoryAfter h
  | pop =>
    obtain ⟨v, -, rfl⟩ := execPop_eq_next h
    exact .kept
  | popsta =>
    obtain ⟨v, -, rfl⟩ := execPopsta_eq_next h
    exact .kept
  | ret =>
    obtain ⟨v, -, rfl⟩ := execRet_eq_next h
    exact .kept
  | pusha =>
    obtain ⟨hpass, rfl⟩ := execPusha_eq_next h
    rw [State.advance_mem, State.setSp_mem]
    exact .pushAll (sp_aligned_of_firstFault_pushAddrs hpass)
  | popa =>
    obtain ⟨r, v, -, rfl⟩ := execPopa_loads h
    exact .kept
  | pragma =>
    obtain ⟨-, rfl⟩ := execPragma_eq_next h
    exact .kept

/-- Settles O22: the bytes that `MemoryAfter` leaves. -/
theorem memoryFrame : Obligations.MemoryFrame :=
  fun _ _ _ h _ hb => (exec_memoryAfter h).byte? hb

/-! ## The canonical form over every step (R52, R62) -/

@[simp] theorem State.hostConfirm_mem (s : State) : s.hostConfirm.mem = s.mem := by
  unfold State.hostConfirm
  split
  · exact State.setRun_mem _ _
  · rfl

/-- A Reset takes the image's form; an instruction writes aligned words; every other transition leaves memory. -/
theorem step_mem_wf (hs : s.canonical) (h : step s = .next t) : t.mem.wf := by
  obtain ⟨hmem, himage⟩ := hs
  obtain ⟨u, hu, hc⟩ := step_cases h
  have hum : Memory.wf u.mem := by rw [hu]; exact hmem
  rcases hc with ⟨v, -, rfl⟩ | ⟨-, rfl⟩ | ⟨-, ⟨-, rfl⟩ | ⟨-, f, -, rfl⟩ | ⟨-, i, -, hx | ⟨f, -, rfl⟩⟩⟩
  · rw [State.hostReset_mem, hu]
    exact himage
  · rw [State.hostConfirm_mem]
    exact hum
  · exact hum
  · exact hum
  · exact (exec_memoryAfter hx).wf hum
  · exact hum

/-- Settles O11: memory by the cases of a step; the image is a parameter, which no step changes. -/
theorem stepKeepsMemoryCanonical : Obligations.StepKeepsMemoryCanonical := by
  intro s t hs h
  refine ⟨step_mem_wf hs h, ?_⟩
  rw [step_config h]
  exact hs.2

/-! ## MemWrite and MemRead (R52, R55, R57) -/

/-- Both accesses make the same check of their address, and its fault is theirs. -/
theorem access_of_accessFault {a : Word} {f : Fault} (v : Word) (h : accessFault s.config a = some f) :
    s.memWrite a v = .error f ∧ s.memRead a = .error f :=
  ⟨State.memWrite_of_accessFault h, State.memRead_of_accessFault h⟩

/-- Settles O23: the store of an accessible word, and the two faults of the address check. -/
theorem memoryReadAfterWrite : Obligations.MemoryReadAfterWrite := by
  intro s a v
  refine ⟨fun h => ?_, fun h => access_of_accessFault v (accessFault_of_misaligned _ h),
    fun h hunmapped => access_of_accessFault v (accessFault_of_unmapped _ h hunmapped)⟩
  have hheld := holdsWord_storeWord s a v
  exact ⟨s.storeWord a v, State.memWrite_of_accessible v h, hheld, State.memRead_of_holds h hheld,
    fun _ => byte?_storeWord_of_not_inWords, rfl⟩

/-! ## The default memory map (R59) -/

theorem mapped_standard (a : Word) : mapped Config.standard a = true := by
  have hlt : a.toNat < 4294967296 := a.isLt
  simp [mapped, Config.standard, hlt]

/-- Settles O24: BusError needs an unmapped address, and the default map has none. -/
theorem defaultMemoryMapHoldsEveryAddress : Obligations.DefaultMemoryMapHoldsEveryAddress := by
  refine fun a => ⟨mapped_standard a, fun h => ?_⟩
  rcases accessFault_cases h with ⟨-, hf⟩ | ⟨-, hunmapped, -⟩
  · cases hf
  · rw [mapped_standard] at hunmapped
    cases hunmapped

end Sys2Proof.Machine
end

section
/-! PROOFS. From an instruction to its words and back (R82 to R91), format by format; the words where
State.withFetchWord puts them, and the step that then runs the instruction (O9). -/

namespace Sys2Proof

/-! ## Words joined and taken apart -/

theorem toNat_append_eq_add {m n : Nat} (x : BitVec m) (y : BitVec n) : (x ++ y).toNat = 2 ^ n * x.toNat + y.toNat := by
  rw [BitVec.toNat_append, ← Nat.shiftLeft_add_eq_or_of_lt y.isLt, Nat.shiftLeft_eq, Nat.mul_comm]

/-- W0 as a number (R85). -/
theorem packW0_toNat (imm8 : Byte) (rb ra : BitVec 4) (op : BitVec 8) :
    (packW0 imm8 rb ra op).toNat = 65536 * imm8.toNat + 4096 * rb.toNat + 256 * ra.toNat + op.toNat := by
  simp only [packW0, toNat_append_eq_add, BitVec.ofNat_eq_ofNat, BitVec.toNat_ofNat]
  omega

/-- The fields of a packed W0 are those it was packed from (R85). -/
theorem fieldsOf_packW0 (imm8 : Byte) (rb ra : BitVec 4) (op : BitVec 8) (w1 : Word) :
    fieldsOf (packW0 imm8 rb ra op) w1 = ⟨0, imm8, rb, ra, op, w1⟩ := by
  have hop := op.isLt
  have hra := ra.isLt
  have hrb := rb.isLt
  have himm8 := imm8.isLt
  simp only [fieldsOf, Fields.mk.injEq, ← BitVec.toNat_inj, BitVec.extractLsb'_toNat, packW0_toNat,
    Nat.shiftRight_eq_div_pow, BitVec.ofNat_eq_ofNat, BitVec.toNat_ofNat, and_true]
  omega

/-! ## Each format decodes what it encodes (R87)

The hypothesis of each lemma is the row of the opcode map (R90) for its opcode, on the fields that the format packs. -/

theorem regOfField_number (r : Reg) : regOfField r.number = .ok r := by
  cases r <;> rfl

theorem srOfField_number (sr : SR) : srOfField sr.number = .ok sr := by
  cases sr <;> rfl

/-- The words of a packed W0 decode by the row of its opcode. -/
theorem decode_packW0 (imm8 : Byte) (rb ra : BitVec 4) (op : BitVec 8) (w1 : Word) :
    decode (packW0 imm8 rb ra op) w1 = Fields.instr ⟨0, imm8, rb, ra, op, w1⟩ := by
  rw [decode, fieldsOf_packW0]

theorem decode_encodeN {op : BitVec 8} {i : Instr}
    (row : Fields.instr ⟨0, 0, 0, 0, op, 0⟩ = Fields.n ⟨0, 0, 0, 0, op, 0⟩ i) :
    decode (encodeN op).1 (encodeN op).2 = .ok i := by
  rw [encodeN, decode_packW0, row]
  rfl

theorem decode_encodeR {op : BitVec 8} {a : Reg} {i : Reg → Instr}
    (row : Fields.instr ⟨0, 0, 0, a.number, op, 0⟩ = Fields.r ⟨0, 0, 0, a.number, op, 0⟩ i) :
    decode (encodeR op a).1 (encodeR op a).2 = .ok (i a) := by
  rw [encodeR, decode_packW0, row, Fields.r, regOfField_number]
  rfl

theorem decode_encodeRR {op : BitVec 8} {a b : Reg} {i : Reg → Reg → Instr}
    (row : Fields.instr ⟨0, 0, b.number, a.number, op, 0⟩ = Fields.rr ⟨0, 0, b.number, a.number, op, 0⟩ i) :
    decode (encodeRR op a b).1 (encodeRR op a b).2 = .ok (i a b) := by
  rw [encodeRR, decode_packW0, row, Fields.rr, regOfField_number, regOfField_number]
  rfl

theorem decode_encodeRS {op : BitVec 8} {a : Reg} {sr : SR} {i : Reg → SR → Instr}
    (row : Fields.instr ⟨0, 0, sr.number, a.number, op, 0⟩ = Fields.rs ⟨0, 0, sr.number, a.number, op, 0⟩ i) :
    decode (encodeRS op a sr).1 (encodeRS op a sr).2 = .ok (i a sr) := by
  rw [encodeRS, decode_packW0, row, Fields.rs, regOfField_number, srOfField_number]
  rfl

theorem decode_encodeRI8 {op : BitVec 8} {a : Reg} {k : Byte} {i : Reg → Byte → Instr}
    (row : Fields.instr ⟨0, k, 0, a.number, op, 0⟩ = Fields.ri8 ⟨0, k, 0, a.number, op, 0⟩ i) :
    decode (encodeRI8 op a k).1 (encodeRI8 op a k).2 = .ok (i a k) := by
  rw [encodeRI8, decode_packW0, row, Fields.ri8, regOfField_number]
  rfl

theorem decode_encodeRI32 {op : BitVec 8} {a : Reg} {v : Word} {i : Reg → Word → Instr}
    (row : Fields.instr ⟨0, 0, 0, a.number, op, v⟩ = Fields.ri32 ⟨0, 0, 0, a.number, op, v⟩ i) :
    decode (encodeRI32 op a v).1 (encodeRI32 op a v).2 = .ok (i a v) := by
  rw [encodeRI32, decode_packW0, row, Fields.ri32, regOfField_number]
  rfl

theorem decode_encodeI32 {op : BitVec 8} {d : Word} {i : Word → Instr}
    (row : Fields.instr ⟨0, 0, 0, 0, op, d⟩ = Fields.i32 ⟨0, 0, 0, 0, op, d⟩ i) :
    decode (encodeI32 op d).1 (encodeI32 op d).2 = .ok (i d) := by
  rw [encodeI32, decode_packW0, row]
  rfl

/-- The words of an instruction decode to its primary form: each opcode is in the row of its mnemonic (R90, R82). -/
theorem decode_encode (i : Instr) : decode (encode i).1 (encode i).2 = .ok i.canonical := by
  cases i with
  | pushsta | popsta | pusha | popa | ret | nop | breakpoint | brk => exact decode_encodeN rfl
  | cpl | inv | rtlx | rtrx | push | pop | sbra | bra => exact decode_encodeR rfl
  | ldr | str | mov | add | sub | addc | subc | cmp | and | or | xor | shlr | shrr | rotlr | rotrr | srar
  | bitr | setr | clrr | bzfr => exact decode_encodeRR rfl
  | ldsr | stsr => exact decode_encodeRS rfl
  | shl | shr | rotl | rotr | sra | bit | set | clr | bzf => exact decode_encodeRI8 rfl
  | ldi | ld | st | inc | dec | out | inp => exact decode_encodeRI32 rfl
  | call | jmp | halt | checkpoint | chk | pragma
  | jpz | jpe | jpnz | jpne | jpc | jpnc | jpo | jpno | jpp | jpn | jpbc | jpnbc | jpd | jpnd | jpb | jpa | jpbe | jpae
  | jpl | jpg | jpng | jple | jpnl | jpge => exact decode_encodeI32 rfl

namespace Machine

variable {s : State}

/-! ## The instruction placed at PC (R65, R84) -/

/-- I = W1 ++ W0 (R84). -/
theorem withFetchWord_of_words (s : State) (w0 w1 : Word) :
    s.withFetchWord 64 (w0.toNat + 2 ^ 32 * w1.toNat) = s.placed w0 w1 := by
  have hw : BitVec.ofNat 64 ((w0.toNat + 2 ^ 32 * w1.toNat) % 2 ^ 64) = w1 ++ w0 := by
    rw [← BitVec.toNat_inj, toNat_append_eq_add, BitVec.toNat_ofNat]
    have h0 := w0.isLt
    have h1 := w1.isLt
    omega
  simp only [State.withFetchWord, hw, BitVec.extractLsb'_append_eq_left, BitVec.extractLsb'_append_eq_right]

/-- The mask clears bits 1 and 0, which a multiple of 4 has clear. -/
theorem and_alignMask_of_aligned {a : Word} (h : a.toNat % 4 = 0) : a &&& 0xFFFFFFFC = a := by
  have hmask : (0xFFFFFFFC : Word) = BitVec.allOnes 32 <<< 2 := rfl
  rw [hmask, ← BitVec.shiftLeft_ushiftRight, ← BitVec.toNat_inj, BitVec.toNat_shiftLeft, BitVec.toNat_ushiftRight,
    Nat.shiftLeft_eq, Nat.shiftRight_eq_div_pow]
  have hlt := a.isLt
  omega

/-- At an aligned PC, placing two words is two stores, in Running with no host action waiting. -/
theorem placed_of_aligned (h : s.pc.toNat % 4 = 0) (w0 w1 : Word) :
    s.placed w0 w1 =
      { (s.storeWord s.pc w0).storeWord (s.pc + 4) w1 with run := .running, hostEvents := [] } := by
  rw [State.placed, and_alignMask_of_aligned h]
  rfl

/-- Two words stored one after the other are both held: the second lies above the first, or wraps around to address 0. -/
theorem holdsWord_storeWord_next {a : Word} (h : a.toNat % 4 = 0) (w0 w1 : Word) :
    holdsWord ((s.storeWord a w0).storeWord (a + 4) w1).mem a w0 ∧
      holdsWord ((s.storeWord a w0).storeWord (a + 4) w1).mem (a + 4) w1 := by
  have hnext : (a + 4).toNat % 4 = 0 := (toNat_add_mod_four a 4 rfl).trans h
  have hne : a + 4 ≠ a := by bv_omega
  exact ⟨(holdsWord_storeWord_of_disjoint (disjoint_of_aligned hnext h hne)).2 (holdsWord_storeWord s a w0),
    holdsWord_storeWord _ (a + 4) w1⟩

/-- The fetch after words were placed at an accessible PC is their decoding: it sees the stores (R65). -/
theorem fetch_placed {w0 w1 : Word} {i : Instr} (h0 : accessible s.config s.pc)
    (h1 : accessible s.config (s.pc + 4)) (hd : decode w0 w1 = .ok i) : (s.placed w0 w1).fetch = .ok i := by
  obtain ⟨hw0, hw1⟩ := holdsWord_storeWord_next (s := s) h0.1 w0 w1
  rw [placed_of_aligned h0.1, State.fetch_eq_ok_iff]
  exact ⟨h0, h1, w0, w1, hw0, hw1, hd⟩

/-- Settles O9: the placed words are fetched and decode to the primary form, which the step then runs. -/
theorem placedInstructionRunsNext : Obligations.PlacedInstructionRunsNext := by
  intro s i h0 h1
  have hfetch := fetch_placed h0 h1 (decode_encode i)
  rw [withFetchWord_of_words]
  rw [placed_of_aligned h0.1] at hfetch ⊢
  exact ⟨rfl, rfl, rfl, rfl, rfl, rfl, step_of_fetch rfl (State.yieldsTo_self rfl) hfetch⟩

end Machine

end Sys2Proof
end

section
/-! PROOFS. From words back to the instruction (R87 to R91, R96): every field record lies in one row of the opcode map, so
what the decoder answers is settled format by format (O1 to O6). -/

namespace Sys2Proof

/-! ## Decoding and encoding (O1) -/

/-- Settles O1: a well-formed instruction is its own primary form, which its words decode to. -/
theorem decodeInvertsEncode : Obligations.DecodeInvertsEncode := by
  refine ⟨fun i hwf => ?_, decode_encode⟩
  have hcanonical : i.canonical = i := of_decide_eq_true hwf
  rw [decode_encode, hcanonical]

/-! ## What a field and a format accept (R87, R89, R91) -/

theorem regOfField_eq_ok_iff (field : BitVec 4) (r : Reg) : regOfField field = .ok r ↔ field = r.number := by
  constructor
  · intro h
    unfold regOfField at h
    split at h <;> cases h <;> exact BitVec.eq_of_toNat_eq ‹_›
  · rintro rfl
    exact regOfField_number r

theorem srOfField_eq_ok_iff (field : BitVec 4) (sr : SR) : srOfField field = .ok sr ↔ field = sr.number := by
  constructor
  · intro h
    unfold srOfField at h
    split at h <;> cases h <;> exact BitVec.eq_of_toNat_eq ‹_›
  · rintro rfl
    exact srOfField_number sr

/-- "The values 0 and 7..15 are not registers" (R85). -/
theorem exists_eq_number_iff (field : BitVec 4) :
    (∃ r : Reg, field = r.number) ↔ 1 ≤ field.toNat ∧ field.toNat ≤ 6 := by
  constructor
  · rintro ⟨r, rfl⟩
    cases r <;> decide
  · rintro ⟨hlo, hhi⟩
    have hr : ∃ r, regOfField field = .ok r := by
      unfold regOfField
      interval_cases field.toNat <;> exact ⟨_, rfl⟩
    simpa only [regOfField_eq_ok_iff] using hr

/-- Only 1, 2 and 3 select a special register (R89). -/
theorem exists_eq_srNumber_iff (field : BitVec 4) :
    (∃ sr : SR, field = sr.number) ↔ 1 ≤ field.toNat ∧ field.toNat ≤ 3 := by
  constructor
  · rintro ⟨sr, rfl⟩
    cases sr <;> decide
  · rintro ⟨hlo, hhi⟩
    have hsr : ∃ sr, srOfField field = .ok sr := by
      unfold srOfField
      interval_cases field.toNat <;> exact ⟨_, rfl⟩
    simpa only [srOfField_eq_ok_iff] using hsr

namespace Fields

variable {f : Fields}

/-- What R91 asks of every format before it answers. -/
theorem check_eq_ok_iff (f : Fields) (unusedZero : Bool) (answer : Except Illegal Instr) (j : Instr) :
    f.check unusedZero answer = .ok j ↔ f.zero = 0 ∧ unusedZero = true ∧ answer = .ok j := by
  unfold Fields.check
  split_ifs <;> simp_all

/-- The reserved byte and the fields that a format does not use are 0 (R87). -/
def unusedZero (f : Fields) : Format → Prop
  | .n => f.zero = 0 ∧ f.imm8 = 0 ∧ f.rb = 0 ∧ f.ra = 0 ∧ f.imm32 = 0
  | .r => f.zero = 0 ∧ f.imm8 = 0 ∧ f.rb = 0 ∧ f.imm32 = 0
  | .rr | .rs => f.zero = 0 ∧ f.imm8 = 0 ∧ f.imm32 = 0
  | .ri8 => f.zero = 0 ∧ f.rb = 0 ∧ f.imm32 = 0
  | .ri32 => f.zero = 0 ∧ f.imm8 = 0 ∧ f.rb = 0
  | .i32 | .m => f.zero = 0 ∧ f.imm8 = 0 ∧ f.rb = 0 ∧ f.ra = 0

theorem n_eq_ok_iff {i j : Instr} : f.n i = .ok j ↔ f.unusedZero .n ∧ i = j := by
  simp [Fields.n, check_eq_ok_iff, unusedZero, and_assoc]

theorem r_eq_ok_iff {i : Reg → Instr} {j : Instr} :
    f.r i = .ok j ↔ f.unusedZero .r ∧ ∃ a, f.ra = a.number ∧ i a = j := by
  simp only [Fields.r, check_eq_ok_iff, ← regOfField_eq_ok_iff]
  cases regOfField f.ra <;> simp [unusedZero, and_assoc]

theorem rr_eq_ok_iff {i : Reg → Reg → Instr} {j : Instr} :
    f.rr i = .ok j ↔ f.unusedZero .rr ∧ ∃ a, f.ra = a.number ∧ ∃ b, f.rb = b.number ∧ i a b = j := by
  simp only [Fields.rr, check_eq_ok_iff, ← regOfField_eq_ok_iff]
  cases regOfField f.ra <;> cases regOfField f.rb <;> simp [unusedZero, and_assoc]

theorem rs_eq_ok_iff {i : Reg → SR → Instr} {j : Instr} :
    f.rs i = .ok j ↔ f.unusedZero .rs ∧ ∃ a, f.ra = a.number ∧ ∃ sr, f.rb = sr.number ∧ i a sr = j := by
  simp only [Fields.rs, check_eq_ok_iff, ← regOfField_eq_ok_iff, ← srOfField_eq_ok_iff]
  cases regOfField f.ra <;> cases srOfField f.rb <;> simp [unusedZero, and_assoc]

theorem ri8_eq_ok_iff {i : Reg → Byte → Instr} {j : Instr} :
    f.ri8 i = .ok j ↔ f.unusedZero .ri8 ∧ ∃ a, f.ra = a.number ∧ i a f.imm8 = j := by
  simp only [Fields.ri8, check_eq_ok_iff, ← regOfField_eq_ok_iff]
  cases regOfField f.ra <;> simp [unusedZero, and_assoc]

theorem ri32_eq_ok_iff {i : Reg → Word → Instr} {j : Instr} :
    f.ri32 i = .ok j ↔ f.unusedZero .ri32 ∧ ∃ a, f.ra = a.number ∧ i a f.imm32 = j := by
  simp only [Fields.ri32, check_eq_ok_iff, ← regOfField_eq_ok_iff]
  cases regOfField f.ra <;> simp [unusedZero, and_assoc]

theorem i32_eq_ok_iff {i : Word → Instr} {j : Instr} : f.i32 i = .ok j ↔ f.unusedZero .i32 ∧ i f.imm32 = j := by
  simp [Fields.i32, check_eq_ok_iff, unusedZero, and_assoc]

theorem m_eq_ok_iff {i : Word → Instr} {j : Instr} : f.m i = .ok j ↔ f.unusedZero .m ∧ i f.imm32 = j := by
  simp [Fields.m, check_eq_ok_iff, unusedZero, and_assoc]

/-! ## The rows of the opcode map (R90) -/

/-- The row of the opcode map in which a field record lies, by its format: the decoder reads the format's fields, and the
encoder packs the mnemonic's operands with the same opcode. -/
inductive Row (f : Fields) : Format → Prop
  | n {i : Instr} (decoded : f.instr = f.n i) (encoded : encode i = encodeN f.op) : Row f .n
  | r {i : Reg → Instr} (decoded : f.instr = f.r i) (encoded : ∀ a, encode (i a) = encodeR f.op a) : Row f .r
  | rr {i : Reg → Reg → Instr} (decoded : f.instr = f.rr i) (encoded : ∀ a b, encode (i a b) = encodeRR f.op a b) :
    Row f .rr
  | rs {i : Reg → SR → Instr} (decoded : f.instr = f.rs i) (encoded : ∀ a sr, encode (i a sr) = encodeRS f.op a sr) :
    Row f .rs
  | ri8 {i : Reg → Byte → Instr} (decoded : f.instr = f.ri8 i)
    (encoded : ∀ a k, encode (i a k) = encodeRI8 f.op a k) : Row f .ri8
  | ri32 {i : Reg → Word → Instr} (decoded : f.instr = f.ri32 i)
    (encoded : ∀ a v, encode (i a v) = encodeRI32 f.op a v) : Row f .ri32
  | i32 {i : Word → Instr} (decoded : f.instr = f.i32 i) (encoded : ∀ d, encode (i d) = encodeI32 f.op d) : Row f .i32
  | m {i : Word → Instr} (decoded : f.instr = f.m i) (encoded : ∀ d, encode (i d) = encodeI32 f.op d) : Row f .m

/-- Every assigned opcode has its row. -/
theorem row_of_ofOpcode {fmt : Format} (h : Format.ofOpcode f.op.toNat = some fmt) : f.Row fmt := by
  obtain ⟨zero, imm8, rb, ra, ⟨⟨op, hop⟩⟩, imm32⟩ := f
  change Format.ofOpcode op = some fmt at h
  unfold Format.ofOpcode at h
  split_ifs at h with hri32 hrr hrr' hrs hr hri8 hn hi32 hm <;> cases h
  · fin_cases hri32 <;> exact .ri32 rfl fun _ _ => rfl
  · fin_cases hrr <;> exact .rr rfl fun _ _ => rfl
  · fin_cases hrr' <;> exact .rr rfl fun _ _ => rfl
  · fin_cases hrs <;> exact .rs rfl fun _ _ => rfl
  · fin_cases hr <;> exact .r rfl fun _ => rfl
  · fin_cases hri8 <;> exact .ri8 rfl fun _ _ => rfl
  · fin_cases hn <;> exact .n rfl rfl
  · rcases hi32 with hlist | ⟨hlo, hhi⟩
    · fin_cases hlist <;> exact .i32 rfl fun _ => rfl
    · interval_cases op <;> exact .i32 rfl fun _ => rfl
  · fin_cases hm <;> exact .m rfl fun _ => rfl

/-- Every other opcode is rejected, by its number: a number with a row in the decoder is an assigned one. -/
theorem instr_of_unassigned (h : Format.ofOpcode f.op.toNat = none) :
    f.instr = .error (.unassignedOpcode f.op.toNat) := by
  unfold Fields.instr
  split
  case h_79 => rfl
  all_goals
    next assigned =>
      rw [assigned] at h
      cases h

/-! ## Two words from their fields (O2) -/

/-- W0 with its fields in place, the reserved byte among them (R85). -/
def w0 (f : Fields) : Word := f.zero ++ f.imm8 ++ f.rb ++ f.ra ++ f.op

theorem packW0_of_zero (h : f.zero = 0) : packW0 f.imm8 f.rb f.ra f.op = f.w0 := by
  rw [w0, h]
  rfl

/-- No bit of W0 lies outside its fields (R85). -/
theorem w0_fieldsOf (w0 w1 : Word) : (fieldsOf w0 w1).w0 = w0 := by
  have hlt := w0.isLt
  simp only [Fields.w0, fieldsOf, ← BitVec.toNat_inj, toNat_append_eq_add, BitVec.extractLsb'_toNat,
    Nat.shiftRight_eq_div_pow]
  omega

/-- Fields that decode are those of the instruction's words, format by format. -/
theorem encode_of_instr {j : Instr} (h : f.instr = .ok j) : encode j = (f.w0, f.imm32) := by
  cases hfmt : Format.ofOpcode f.op.toNat with
  | none => rw [instr_of_unassigned hfmt] at h; cases h
  | some fmt =>
    cases row_of_ofOpcode hfmt with
    | n decoded encoded =>
      obtain ⟨⟨hz, hk, hb, ha, hv⟩, rfl⟩ := n_eq_ok_iff.1 (decoded ▸ h)
      rw [encoded, encodeN, ← packW0_of_zero hz, hk, hb, ha, hv]
    | r decoded encoded =>
      obtain ⟨⟨hz, hk, hb, hv⟩, a, ha, rfl⟩ := r_eq_ok_iff.1 (decoded ▸ h)
      rw [encoded, encodeR, ← packW0_of_zero hz, hk, hb, ha, hv]
    | rr decoded encoded =>
      obtain ⟨⟨hz, hk, hv⟩, a, ha, b, hb, rfl⟩ := rr_eq_ok_iff.1 (decoded ▸ h)
      rw [encoded, encodeRR, ← packW0_of_zero hz, hk, hb, ha, hv]
    | rs decoded encoded =>
      obtain ⟨⟨hz, hk, hv⟩, a, ha, sr, hb, rfl⟩ := rs_eq_ok_iff.1 (decoded ▸ h)
      rw [encoded, encodeRS, ← packW0_of_zero hz, hk, hb, ha, hv]
    | ri8 decoded encoded =>
      obtain ⟨⟨hz, hb, hv⟩, a, ha, rfl⟩ := ri8_eq_ok_iff.1 (decoded ▸ h)
      rw [encoded, encodeRI8, ← packW0_of_zero hz, hb, ha, hv]
    | ri32 decoded encoded =>
      obtain ⟨⟨hz, hk, hb⟩, a, ha, rfl⟩ := ri32_eq_ok_iff.1 (decoded ▸ h)
      rw [encoded, encodeRI32, ← packW0_of_zero hz, hk, hb, ha]
    | i32 decoded encoded =>
      obtain ⟨⟨hz, hk, hb, ha⟩, rfl⟩ := i32_eq_ok_iff.1 (decoded ▸ h)
      rw [encoded, encodeI32, ← packW0_of_zero hz, hk, hb, ha]
    | m decoded encoded =>
      obtain ⟨⟨hz, hk, hb, ha⟩, rfl⟩ := m_eq_ok_iff.1 (decoded ▸ h)
      rw [encoded, encodeI32, ← packW0_of_zero hz, hk, hb, ha]

end Fields

/-- Settles O2: the words are rebuilt from their fields; the instruction is its own primary form because its words decode
to that form as well. -/
theorem encodeInvertsDecode : Obligations.EncodeInvertsDecode := by
  intro w0 w1 i h
  have hwords : encode i = (w0, w1) := by
    rw [Fields.encode_of_instr h, Fields.w0_fieldsOf]
    rfl
  have hcanonical : decode w0 w1 = .ok i.canonical := by
    simpa only [hwords] using decode_encode i
  rw [h, Except.ok.injEq] at hcanonical
  exact ⟨hwords, decide_eq_true hcanonical.symm⟩

/-! ## The masks of R87 (O3) -/

namespace Fields

variable {f : Fields}

/-- The 64-bit instruction word `W1 ++ W0` with its fields in place (R84, R85). -/
def word (f : Fields) : BitVec 64 := f.imm32 ++ f.w0

theorem word_fieldsOf (w0 w1 : Word) : (fieldsOf w0 w1).word = w1 ++ w0 := by
  rw [Fields.word, w0_fieldsOf]
  rfl

theorem toNat_word (f : Fields) :
    f.word.toNat = 4294967296 * f.imm32.toNat + 16777216 * f.zero.toNat + 65536 * f.imm8.toNat + 4096 * f.rb.toNat +
      256 * f.ra.toNat + f.op.toNat := by
  simp only [word, w0, toNat_append_eq_add]
  omega

/-- Different fields make different words. -/
theorem word_inj {f g : Fields} : f.word = g.word ↔ f = g := by
  obtain ⟨zero, imm8, rb, ra, op, imm32⟩ := f
  obtain ⟨zero', imm8', rb', ra', op', imm32'⟩ := g
  simp only [← BitVec.toNat_inj, toNat_word, mk.injEq]
  omega

/-- The fields of two words, and-ed one by one. -/
def and (f g : Fields) : Fields :=
  ⟨f.zero &&& g.zero, f.imm8 &&& g.imm8, f.rb &&& g.rb, f.ra &&& g.ra, f.op &&& g.op, f.imm32 &&& g.imm32⟩

theorem word_and (f g : Fields) : f.word &&& g.word = (f.and g).word := by
  have h0 : f.w0 &&& g.w0 = (f.and g).w0 := by
    change (f.zero ++ f.imm8 ++ f.rb ++ f.ra ++ f.op) &&& (g.zero ++ g.imm8 ++ g.rb ++ g.ra ++ g.op) = _
    simp only [BitVec.and_append]
    rfl
  change (f.imm32 ++ f.w0) &&& (g.imm32 ++ g.w0) = (f.and g).imm32 ++ (f.and g).w0
  rw [BitVec.and_append, h0]
  rfl

end Fields

/-- The mask of a format as fields: all ones where the format fixes the field. -/
def Format.maskFields : Format → Fields
  | .n => ⟨.allOnes 8, .allOnes 8, .allOnes 4, .allOnes 4, .allOnes 8, .allOnes 32⟩
  | .r => ⟨.allOnes 8, .allOnes 8, .allOnes 4, 0, .allOnes 8, .allOnes 32⟩
  | .rr | .rs => ⟨.allOnes 8, .allOnes 8, 0, 0, .allOnes 8, .allOnes 32⟩
  | .ri8 => ⟨.allOnes 8, 0, .allOnes 4, 0, .allOnes 8, .allOnes 32⟩
  | .ri32 => ⟨.allOnes 8, .allOnes 8, .allOnes 4, 0, .allOnes 8, 0⟩
  | .i32 | .m => ⟨.allOnes 8, .allOnes 8, .allOnes 4, .allOnes 4, .allOnes 8, 0⟩

theorem Format.word_maskFields (fmt : Format) : fmt.maskFields.word = fmt.mask := by
  cases fmt <;> rfl

namespace Fields

variable {f : Fields}

/-- `I & mask == match` says that the fields which the format does not use are 0 (R87). -/
theorem masked_eq_match_iff (f : Fields) (fmt : Format) :
    f.word &&& fmt.mask = f.op.setWidth 64 ↔ f.unusedZero fmt := by
  have hmatch : f.op.setWidth 64 = word ⟨0, 0, 0, 0, f.op, 0⟩ := by
    rw [← BitVec.toNat_inj, toNat_word, BitVec.toNat_setWidth]
    simp only [BitVec.ofNat_eq_ofNat, BitVec.toNat_ofNat]
    omega
  rw [hmatch, ← Format.word_maskFields, word_and, word_inj]
  cases fmt <;>
    simp only [and, Format.maskFields, unusedZero, mk.injEq, BitVec.and_allOnes, BitVec.ofNat_eq_ofNat, BitVec.and_zero,
      true_and, and_true]

/-- A word is legal when its opcode is assigned and the mask and ranges of that opcode's format hold (R87, R91). -/
theorem legalWord_word (f : Fields) :
    legalWord f.word = true ↔
      ∃ fmt, Format.ofOpcode f.op.toNat = some fmt ∧ f.unusedZero fmt ∧ fmt.fieldsOk f.ra.toNat f.rb.toNat = true := by
  have hfields : f.word.extractLsb' 0 8 = f.op ∧ f.word.extractLsb' 8 4 = f.ra ∧ f.word.extractLsb' 12 4 = f.rb := by
    simp only [← BitVec.toNat_inj, BitVec.extractLsb'_toNat, toNat_word, Nat.shiftRight_eq_div_pow]
    omega
  obtain ⟨hop, hra, hrb⟩ := hfields
  simp only [legalWord, hop, hra, hrb, ← masked_eq_match_iff]
  cases Format.ofOpcode f.op.toNat <;> simp

/-- A row accepts exactly the fields whose unused ones are 0 and whose registers are in range. -/
theorem Row.accepts_iff {fmt : Format} (row : f.Row fmt) :
    (∃ j, f.instr = .ok j) ↔ f.unusedZero fmt ∧ fmt.fieldsOk f.ra.toNat f.rb.toNat = true := by
  cases row with
  | n decoded => simp [decoded, n_eq_ok_iff, Format.fieldsOk]
  | r decoded => simp [decoded, r_eq_ok_iff, Format.fieldsOk, exists_eq_number_iff]
  | rr decoded => simp [decoded, rr_eq_ok_iff, Format.fieldsOk, and_assoc, exists_eq_number_iff]
  | rs decoded =>
    simp [decoded, rs_eq_ok_iff, Format.fieldsOk, and_assoc, exists_eq_number_iff, exists_eq_srNumber_iff]
  | ri8 decoded => simp [decoded, ri8_eq_ok_iff, Format.fieldsOk, exists_eq_number_iff]
  | ri32 decoded => simp [decoded, ri32_eq_ok_iff, Format.fieldsOk, exists_eq_number_iff]
  | i32 decoded => simp [decoded, i32_eq_ok_iff, Format.fieldsOk]
  | m decoded => simp [decoded, m_eq_ok_iff, Format.fieldsOk]

end Fields

/-- Settles O3: the opcode's row in the decoder and the opcode's format in the map accept the same words. -/
theorem decodeAcceptsExactlyTheLegalWords : Obligations.DecodeAcceptsExactlyTheLegalWords := by
  intro w0 w1
  rw [← Fields.word_fieldsOf, Fields.legalWord_word, decode]
  cases hfmt : Format.ofOpcode (fieldsOf w0 w1).op.toNat with
  | none => simp [Fields.instr_of_unassigned hfmt]
  | some fmt => simp [(Fields.row_of_ofOpcode hfmt).accepts_iff]

/-! ## The opcode table as numbers (O4) -/

@[simp] theorem Reg.toNat_number (r : Reg) : r.number.toNat = r.index := by
  cases r <;> rfl

theorem packW0_eq_w0Of (imm8 : Byte) (rb ra : BitVec 4) (op : BitVec 8) :
    packW0 imm8 rb ra op = w0Of op.toNat ra.toNat rb.toNat imm8.toNat := by
  rw [← BitVec.toNat_inj, packW0_toNat, w0Of, BitVec.toNat_ofNat]
  omega

theorem encodeN_eq_w0Of (op : BitVec 8) : encodeN op = (w0Of op.toNat 0 0 0, 0) := by
  simp [encodeN, packW0_eq_w0Of]

theorem encodeR_eq_w0Of (op : BitVec 8) (a : Reg) : encodeR op a = (w0Of op.toNat a.index 0 0, 0) := by
  simp [encodeR, packW0_eq_w0Of]

theorem encodeRR_eq_w0Of (op : BitVec 8) (a b : Reg) : encodeRR op a b = (w0Of op.toNat a.index b.index 0, 0) := by
  simp [encodeRR, packW0_eq_w0Of]

theorem encodeRS_eq_w0Of (op : BitVec 8) (a : Reg) (sr : SR) :
    encodeRS op a sr = (w0Of op.toNat a.index sr.number.toNat 0, 0) := by
  simp [encodeRS, packW0_eq_w0Of]

theorem encodeRI8_eq_w0Of (op : BitVec 8) (a : Reg) (k : Byte) :
    encodeRI8 op a k = (w0Of op.toNat a.index 0 k.toNat, 0) := by
  simp [encodeRI8, packW0_eq_w0Of]

theorem encodeRI32_eq_w0Of (op : BitVec 8) (a : Reg) (v : Word) :
    encodeRI32 op a v = (w0Of op.toNat a.index 0 0, v) := by
  simp [encodeRI32, packW0_eq_w0Of]

theorem encodeI32_eq_w0Of (op : BitVec 8) (d : Word) : encodeI32 op d = (w0Of op.toNat 0 0 0, d) := by
  simp [encodeI32, packW0_eq_w0Of]

/-- The numbers that R90 leaves out have no format. -/
theorem ofOpcode_eq_none_of_unassigned {op : Nat}
    (h : op ≤ 0x0F ∨ 0x18 ≤ op ∧ op ≤ 0x1F ∨ 0x2C ≤ op ∧ op ≤ 0x2F ∨ 0x3C ≤ op ∧ op ≤ 0x3F ∨ 0x4D ≤ op ∧ op ≤ 0x4F ∨
      0x64 ≤ op ∧ op ≤ 0x6F ∨ 0x78 ≤ op ∧ op ≤ 0x7F ∨ 0x82 ≤ op ∧ op ≤ 0x8F ∨ 0x93 ≤ op) :
    Format.ofOpcode op = none := by
  simp only [Format.ofOpcode, List.mem_cons, List.not_mem_nil, or_false]
  split_ifs
  case neg => rfl
  all_goals omega

theorem toNat_op_fieldsOf (w0 w1 : Word) : (fieldsOf w0 w1).op.toNat = w0.toNat % 256 :=
  BitVec.extractLsb'_toNat ..

/-- Settles O4: each mnemonic's row packs the number and the fields of R90, format by format; the numbers left have no
format, so no row. -/
theorem opcodeMap : Obligations.OpcodeMap := by
  refine ⟨fun n a v k => ?_, fun w0 w1 => ?_⟩
  · simp only [encode, encodeN_eq_w0Of, encodeR_eq_w0Of, encodeRR_eq_w0Of, encodeRS_eq_w0Of, encodeRI8_eq_w0Of,
      encodeRI32_eq_w0Of, encodeI32_eq_w0Of, SR.number, BitVec.ofNat_eq_ofNat, BitVec.reduceToNat, and_self]
  · rw [← toNat_op_fieldsOf w0 w1]
    intro op hop
    exact Fields.instr_of_unassigned (ofOpcode_eq_none_of_unassigned hop)

/-! ## Words written out (O5) and aliases (O6) -/

/-- Settles O5: the decoder evaluates on each word. -/
theorem sampleWordsDecode : Obligations.SampleWordsDecode :=
  ⟨rfl, rfl, rfl, rfl, rfl, rfl, rfl, rfl, rfl, rfl, rfl, rfl, rfl, rfl, rfl, rfl, rfl, rfl, rfl⟩

/-- Settles O6: an alias has its primary mnemonic's arm in the encoder and its condition or operation in exec (R82). -/
theorem aliasesAreTheirPrimary : Obligations.AliasesAreTheirPrimary := by
  intro v s
  exact ⟨⟨rfl, rfl⟩, ⟨rfl, rfl⟩, ⟨rfl, rfl⟩, ⟨rfl, rfl⟩, ⟨rfl, rfl⟩, ⟨rfl, rfl⟩⟩

end Sys2Proof
end

section
/-! PROOFS. The faults of a fetch, in the order of the checks (1) to (4) of R244, and the step around each (O8). -/

namespace Sys2Proof.Machine

variable {s u : State}

/-- A fetch whose first word misses a byte (R37). -/
theorem State.fetch_of_firstMissing {b : Nat} (h : accessible s.config s.pc) (h' : accessible s.config (s.pc + 4))
    (hb : firstMissing s.mem s.pc b) : s.fetch = .error (.unwritten (s.pc + BitVec.ofNat 32 b)) := by
  rw [← accessFault_eq_none_iff_accessible] at h h'
  simp only [State.fetch, State.fetchWords, h, h', State.fetchWord_of_firstMissing hb]

/-- A fetch whose first word is there and whose second misses a byte. -/
theorem State.fetch_of_firstMissing_second {w0 : Word} {b : Nat} (h : accessible s.config s.pc)
    (h' : accessible s.config (s.pc + 4)) (h0 : holdsWord s.mem s.pc w0) (hb : firstMissing s.mem (s.pc + 4) b) :
    s.fetch = .error (.unwritten (s.pc + 4 + BitVec.ofNat 32 b)) := by
  have hw0 : s.fetchWord s.pc = .ok w0 := by
    rw [State.fetchWord, (holdsWord_iff s.mem s.pc w0).1 h0]
  rw [← accessFault_eq_none_iff_accessible] at h h'
  simp only [State.fetch, State.fetchWords, h, h', hw0, State.fetchWord_of_firstMissing hb]

/-- The transition of R256 for a fault of the fetch, with PC at the instruction. -/
theorem step_of_fetch_fault {f : Fault} (hr : s.run = .running) (he : s.yieldsTo u) (hf : s.fetch = .error f) :
    step s = .next { u with run := .faulted f s.pc } := by
  have hpc : u.pc = s.pc := by rw [State.eq_of_yieldsTo he]
  rw [step_of_fetch_error hr he hf, ← hpc]
  rfl

/-- Settles O8: a lemma about the fetch for each check of R244, in their order. -/
theorem fetchFaultOrder : Obligations.FetchFaultOrder := by
  intro s u hr he
  refine ⟨fun hmis => ?_, fun hal hmap => ?_, fun h0 hmap => ?_, fun h0 h1 => ⟨fun b hb => ?_, fun w0 b hw0 hb => ?_,
    fun w0 w1 e hw0 hw1 hd => ?_⟩⟩ <;> apply step_of_fetch_fault hr he
  · exact State.fetch_of_accessFault (accessFault_of_misaligned s.config hmis)
  · exact State.fetch_of_accessFault (accessFault_of_unmapped s.config hal hmap)
  · have hal : (s.pc + 4).toNat % 4 = 0 := (toNat_add_mod_four s.pc 4 rfl).trans h0.1
    exact State.fetch_of_accessFault_second ((accessFault_eq_none_iff_accessible s.config s.pc).2 h0)
      (accessFault_of_unmapped s.config hal hmap)
  · exact State.fetch_of_firstMissing h0 h1 hb
  · exact State.fetch_of_firstMissing_second h0 h1 hw0 hb
  · exact State.fetch_of_illegal h0 h1 hw0 hw1 hd

end Sys2Proof.Machine
end

section
/-! PROOFS. Transport (40_transport.md): a load and a store over both addressing modes of R118, whose two mnemonics differ in
the operand alone (O26, O27); the special registers (O28); LDI and MOV (O25). -/

namespace Sys2Proof.Machine

variable {s : State} {n : Reg} {m : MemOperand}

/-! ## A load at the address of its operand (R111, R112) -/

theorem load_of_holds {v : Word} (h : accessible s.config (s.effAddr m)) (hv : holdsWord s.mem (s.effAddr m) v) :
    load n m s = .next (s.after n v s.st) :=
  load_of_read (State.memRead_of_holds h hv)

theorem load_of_accessFault {f : Fault} (h : accessFault s.config (s.effAddr m) = some f) : load n m s = .fault f :=
  load_of_error (State.memRead_of_accessFault h)

theorem load_of_firstMissing {b : Nat} (h : accessible s.config (s.effAddr m)) (hb : firstMissing s.mem (s.effAddr m) b) :
    load n m s = .fault (.unwritten (s.effAddr m + BitVec.ofNat 32 b)) :=
  load_of_error (State.memRead_of_firstMissing h hb)

/-- Settles O26: each clause is one of `load`, at `Daddr` for LD and at the content of Ra for LDR. -/
theorem loadResults : Obligations.LoadResults := by
  intro s n a d v
  refine ⟨fun h hv => ?done_ld, fun h hv => ?done_ldr, fun h => ?misaligned_ld, fun h => ?misaligned_ldr,
    fun h hmap => ?unmapped_ld, fun h hmap => ?unmapped_ldr, fun b h hb => ?unwritten_ld, fun b h hb => ?unwritten_ldr⟩
  case done_ld => exact load_of_holds (m := .absolute d) h hv
  case done_ldr => exact load_of_holds (m := .indirect a) h hv
  case misaligned_ld => exact load_of_accessFault (m := .absolute d) (accessFault_of_misaligned _ h)
  case misaligned_ldr => exact load_of_accessFault (m := .indirect a) (accessFault_of_misaligned _ h)
  case unmapped_ld => exact load_of_accessFault (m := .absolute d) (accessFault_of_unmapped _ h hmap)
  case unmapped_ldr => exact load_of_accessFault (m := .indirect a) (accessFault_of_unmapped _ h hmap)
  case unwritten_ld => exact load_of_firstMissing (m := .absolute d) h hb
  case unwritten_ldr => exact load_of_firstMissing (m := .indirect a) h hb

/-! ## A store at the address of its operand (R113, R114) -/

theorem store_of_accessible (h : accessible s.config (s.effAddr m)) :
    store n m s = .next (s.storeWord (s.effAddr m) (s.reg n)).advance := by
  rw [store, State.memWrite_of_accessible _ h, finish_ok]

theorem store_of_accessFault {f : Fault} (h : accessFault s.config (s.effAddr m) = some f) : store n m s = .fault f := by
  rw [store, State.memWrite_of_accessFault h, finish_error]

/-- A store that meets memory: the word is held, every byte outside it stays, and of the rest only PC advances. -/
theorem store_frame (h : accessible s.config (s.effAddr m)) :
    ∃ t, store n m s = .next t ∧ holdsWord t.mem (s.effAddr m) (s.reg n) ∧
      (∀ b, ¬ inWords [s.effAddr m] b → t.mem.byte? b = s.mem.byte? b) ∧ t = { s with mem := t.mem, pc := s.pc + 8 } :=
  ⟨_, store_of_accessible h, holdsWord_storeWord s _ _, fun _ => byte?_storeWord_of_not_inWords, rfl⟩

/-- Settles O27: each clause is one of `store`, at `Daddr` for ST and at the content of Ra for STR. -/
theorem storeResults : Obligations.StoreResults := by
  intro s n a d
  refine ⟨fun h => ?done_st, fun h => ?done_str, fun h => ?misaligned_st, fun h => ?misaligned_str,
    fun h hmap => ?unmapped_st, fun h hmap => ?unmapped_str⟩
  case done_st => exact store_frame (m := .absolute d) h
  case done_str => exact store_frame (m := .indirect a) h
  case misaligned_st => exact store_of_accessFault (m := .absolute d) (accessFault_of_misaligned _ h)
  case misaligned_str => exact store_of_accessFault (m := .indirect a) (accessFault_of_misaligned _ h)
  case unmapped_st => exact store_of_accessFault (m := .absolute d) (accessFault_of_unmapped _ h hmap)
  case unmapped_str => exact store_of_accessFault (m := .indirect a) (accessFault_of_unmapped _ h hmap)

/-! ## The special registers (R116, R117) -/

/-- A read of ST as the number that its flags make up (R27). -/
theorem toWord_eq_ofNat (f : Flags) :
    f.toWord = BitVec.ofNat 32 (32 * f.zf.toNat + 16 * f.cf.toNat + 8 * f.of.toNat + 4 * f.sf.toNat + 2 * f.bf.toNat
      + f.df.toNat) := by
  rw [← toNat_toWord, BitVec.ofNat_toNat, BitVec.setWidth_eq]

theorem execLdsr_eq (n : Reg) (sr : SR) (s : State) : execLdsr n sr s = .next (s.after n (s.readSR sr) s.st) := rfl

/-- Settles O28: LDSR writes what `State.readSR` reads; STSR Rn,ST loads `Flags.ofWord`, which reads back masked. -/
theorem specialRegisterTransfers : Obligations.SpecialRegisterTransfers := by
  intro s n
  refine ⟨execLdsr_eq n .pc s, execLdsr_eq n .sp s, ?ldsr_st, rfl, rfl, rfl, ?stsr_st⟩
  case ldsr_st =>
    rw [← toWord_eq_ofNat]
    exact execLdsr_eq n .st s
  case stsr_st =>
    exact ⟨Flags.ofWord (s.reg n), rfl, toWord_ofWord _, rfl, rfl, rfl, rfl, rfl, rfl⟩

/-! ## LDI and MOV (R110, R115) -/

theorem execLdi_eq (n : Reg) (v : Word) (s : State) : execLdi n v s = .next (s.after n v s.st) := rfl

theorem execMov_eq (d r : Reg) (s : State) : execMov d r s = .next (s.after d (s.reg r) s.st) := rfl

/-- Settles O25: the equations of the two meanings. -/
theorem ldiAndMovResults : Obligations.LdiAndMovResults :=
  fun s n a v => ⟨execLdi_eq n v s, execMov_eq n a s⟩

end Sys2Proof.Machine
end

section
/-! PROOFS. Arithmetic and logic (41_arithmetic_logic.md): the results of the adder, of the subtraction and of the logic rule
(O30, O31, O33); SUBC with its third term (O32); and the idioms for 64-bit numbers (O34), where each word's instruction is one
column of a sum: the result, with its carry as the digit above, is the exact value. -/

namespace Sys2Proof.Machine

/-! ## The adder and the subtraction as meanings (R120, R121) -/

theorem arith_addC_eq (n : Reg) (a b : Word) (c : Bool) (s : State) :
    arith n (addC a b c) s = .next (s.after n (a + b + BitVec.ofNat 32 c.toNat) (sumFlags s.st a b c)) := by
  rw [arith_eq, addC_r, arith_addC]

theorem arith_addC_false_eq (n : Reg) (a b : Word) (s : State) :
    arith n (addC a b false) s = .next (s.after n (a + b) (sumFlags s.st a b false)) := by
  rw [arith_eq, addC_r_false, arith_addC]

theorem arith_subC_eq (n : Reg) (a b : Word) (s : State) :
    arith n (subC a b) s = .next (s.after n (a - b) (differenceFlags s.st a b)) := by
  rw [arith_eq, subC_r, arith_subC]

theorem execCmp_eq (x y : Reg) (s : State) :
    execCmp x y s = .next { s with st := differenceFlags s.st (s.reg x) (s.reg y), pc := s.pc + 8 } := by
  rw [execCmp, finish_ok, arith_subC]
  rfl

/-- Settles O30: each of the three is one pass through the adder, INC's second operand being any word. -/
theorem additionResults : Obligations.AdditionResults := fun s x y v =>
  ⟨⟨encodeRR_eq_w0Of 0x20 x y, arith_addC_false_eq x (s.reg x) (s.reg y) s⟩,
    ⟨encodeRR_eq_w0Of 0x22 x y, arith_addC_eq x (s.reg x) (s.reg y) s.st.cf s⟩,
    ⟨encodeRI32_eq_w0Of 0x25 x v, arith_addC_false_eq x (s.reg x) v s⟩⟩

/-- Settles O31: SUB, DEC and CPL are one subtraction on different operands; CMP keeps its flags alone. -/
theorem subtractionResults : Obligations.SubtractionResults := fun s x y v =>
  ⟨⟨encodeRR_eq_w0Of 0x21 x y, arith_subC_eq x (s.reg x) (s.reg y) s⟩,
    ⟨encodeRI32_eq_w0Of 0x26 x v, arith_subC_eq x (s.reg x) v s⟩,
    ⟨encodeR_eq_w0Of 0x24 x, arith_subC_eq x 0 (s.reg x) s⟩,
    ⟨encodeRR_eq_w0Of 0x27 x y, execCmp_eq x y s⟩⟩

/-- Settles O33: the logic rule of R130 on the result of each. -/
theorem logicResults : Obligations.LogicResults := fun s x y =>
  ⟨⟨encodeR_eq_w0Of 0x28 x, logic_meaning_eq x (~~~(s.reg x)) s⟩,
    ⟨encodeRR_eq_w0Of 0x29 x y, logic_meaning_eq x (s.reg x &&& s.reg y) s⟩,
    ⟨encodeRR_eq_w0Of 0x2A x y, logic_meaning_eq x (s.reg x ||| s.reg y) s⟩,
    ⟨encodeRR_eq_w0Of 0x2B x y, logic_meaning_eq x (s.reg x ^^^ s.reg y) s⟩⟩

/-! ## SUBC (R125) -/

/-- The flags of SUBC's difference, in the terms of R125. -/
theorem arith_subK (f : Flags) (a b : Word) (k : Int) :
    f.arith (subK a b k) =
      { zf := decide ((subK a b k).r = 0), cf := decide ((b.toNat : Int) ≤ a.toNat + k),
        of := !signedOk (a.toInt - b.toInt + k), sf := (subK a b k).r.msb,
        bf := decide (((b.toNat % 16 : Nat) : Int) ≤ (a.toNat % 16 : Nat) + k), df := f.df } := by
  simp only [Flags.arith, Flags.mk.injEq, and_true]
  refine ⟨?zf, ?cf, ?of, ?sf, ?bf⟩
  case zf => rfl
  case cf =>
    simp only [subK, decide_eq_decide]
    omega
  case of =>
    rw [subK, signedOk, ← decide_not, decide_eq_decide]
    omega
  case sf => exact (BitVec.msb_eq_getLsbD_last (subK a b k).r).symm
  case bf =>
    simp only [subK, decide_eq_decide]
    omega

theorem toInt_not_eq (b : Word) : (~~~b).toInt = -b.toInt - 1 := by
  have hn : (~~~b).toNat = 2 ^ 32 - 1 - b.toNat := by simp
  rcases toInt_cases b with ⟨h, hi⟩ | ⟨h, hi⟩ <;> rcases toInt_cases (~~~b) with ⟨h', hi'⟩ | ⟨h', hi'⟩ <;> omega

/-- `a - b + (c - 1)` and `a + NOT b + c` differ by 2^32. -/
theorem subK_pred_toNat (a b : Word) (c : Bool) :
    (subK a b (c.toNat - 1)).r.toNat = (a.toNat + (~~~b).toNat + c.toNat) % 2 ^ 32 := by
  have hsub := subK_r_toNat a b (c.toNat - 1)
  have hn : (~~~b).toNat = 2 ^ 32 - 1 - b.toNat := by simp
  have hb := b.isLt
  omega

theorem subK_pred_r (a b : Word) (c : Bool) : (subK a b (c.toNat - 1)).r = a + ~~~b + BitVec.ofNat 32 c.toNat := by
  rw [← BitVec.toNat_inj, subK_pred_toNat, BitVec.toNat_add, BitVec.toNat_add, BitVec.toNat_ofNat]
  omega

theorem arith_subK_pred (f : Flags) (a b : Word) (c : Bool) :
    f.arith (subK a b (c.toNat - 1)) = sumFlags f a (~~~b) c := by
  have hn : (~~~b).toNat = 2 ^ 32 - 1 - b.toNat := by simp
  have hb := b.isLt
  simp only [arith_subK, sumFlags, Flags.mk.injEq, and_true]
  refine ⟨?zf, ?cf, ?of, ?sf, ?bf⟩
  case zf => simp only [← BitVec.toNat_inj, subK_pred_toNat, BitVec.toNat_zero, BitVec.ofNat_eq_ofNat]
  case cf =>
    rw [decide_eq_decide]
    omega
  case of =>
    rw [toInt_not_eq]
    congr 2
    omega
  case sf => rw [BitVec.msb_eq_decide, subK_pred_toNat]
  case bf =>
    rw [decide_eq_decide]
    omega

/-- With the third term `c - 1`, SUBC is one pass through the adder with carry-in `c`; for `c = 1` that pass is SUB. -/
theorem arith_subK_pred_eq (n : Reg) (a b : Word) (c : Bool) (s : State) :
    arith n (subK a b (c.toNat - 1)) s = arith n (addC a (~~~b) c) s := by
  rw [arith_eq, subK_pred_r, arith_subK_pred, arith_addC_eq]

/-- Settles O32: `subK` is R125's integer formula for any third term; both coincidences are its pass through the adder. -/
theorem subcResults : Obligations.SubcResults := by
  intro s x y a b k
  have hexec : exec (.subc x y) s = arith x (subK a b k) s := rfl
  refine ⟨⟨(subK a b k).r, subK_r_toNat a b k, ?flags⟩, fun hk => ?sub, fun hmode => ?chain⟩
  case flags => rw [hexec, arith_eq, arith_subK]
  case sub =>
    rw [hexec, hk]
    exact arith_subK_pred_eq x a b true s
  case chain =>
    have hk : k = s.st.cf.toNat - 1 := by simp only [k, hmode]
    rw [hexec, hk, arith_subK_pred_eq, arith_addC_eq]

/-! ## One word as a column of a 64-bit number: the result, and CF as the digit next to it (R124, R152, R153) -/

/-- A column of an addition: the word, with CF as the digit above it, is the sum of two words and the carry from below. -/
theorem toNat_add_sumFlags_cf (f : Flags) (a b : Word) (c : Bool) :
    (a + b + BitVec.ofNat 32 c.toNat).toNat + 2 ^ 32 * (sumFlags f a b c).cf.toNat = a.toNat + b.toNat + c.toNat := by
  have ha := a.isLt
  have hb := b.isLt
  have hc := c.toNat_le
  simp only [sumFlags, BitVec.toNat_add, BitVec.toNat_ofNat]
  by_cases h : 2 ^ 32 ≤ a.toNat + b.toNat + c.toNat <;>
    simp only [h, decide_true, decide_false, Bool.toNat_true, Bool.toNat_false] <;> omega

/-- A column of a shift to the left: twice the word, with the bit that comes from below. -/
theorem toNat_rotateLeftThrough (v : Word) (c : Bool) :
    (rotateLeftThrough v c).1.toNat + 2 ^ 32 * (rotateLeftThrough v c).2.toNat = 2 * v.toNat + c.toNat := by
  have hor : (v <<< 1) ||| (BitVec.ofBool c).setWidth 32 = (v <<< 1) + (BitVec.ofBool c).setWidth 32 := by
    refine (BitVec.add_eq_or_of_and_eq_zero _ _ ?_).symm
    ext i
    rcases i with _ | i <;> simp
  have hv := v.isLt
  have hc := c.toNat_le
  simp only [rotateLeftThrough, hor, ← BitVec.testBit_toNat, Nat.toNat_testBit, BitVec.toNat_add, BitVec.toNat_shiftLeft,
    BitVec.toNat_setWidth, BitVec.toNat_ofBool]
  omega

/-- A column of a shift to the right: twice the result, with the bit moved out, is the word with the bit from above. -/
theorem toNat_rotateRightThrough (v : Word) (c : Bool) :
    2 * (rotateRightThrough v c).1.toNat + (rotateRightThrough v c).2.toNat = v.toNat + 2 ^ 32 * c.toNat := by
  have hor : (v >>> 1) ||| ((BitVec.ofBool c).setWidth 32 <<< 31) = (v >>> 1) + ((BitVec.ofBool c).setWidth 32 <<< 31) := by
    refine (BitVec.add_eq_or_of_and_eq_zero _ _ ?_).symm
    ext i hi
    by_cases h : i < 31
    · simp [h]
    · simp [BitVec.getLsbD_of_ge v (1 + i) (by omega)]
  have hv := v.isLt
  have hc := c.toNat_le
  simp only [rotateRightThrough, hor, ← BitVec.testBit_toNat, Nat.toNat_testBit, BitVec.toNat_add, BitVec.toNat_shiftLeft,
    BitVec.toNat_setWidth, BitVec.toNat_ofBool, BitVec.toNat_ushiftRight]
  omega

section
variable {s t u : State} {n : Reg}

@[simp] theorem State.reg_after_self (s : State) (n : Reg) (v : Word) (f : Flags) : (s.after n v f).reg n = v :=
  Regs.get_set_same s.regs n v

theorem arith_addC_column {a b : Word} {c : Bool} (h : arith n (addC a b c) s = .next t) :
    (t.reg n).toNat + 2 ^ 32 * t.st.cf.toNat = a.toNat + b.toNat + c.toNat := by
  rw [arith_addC_eq] at h
  obtain rfl := Host.Outcome.next.inj h
  rw [← toNat_add_sumFlags_cf s.st a b c, State.reg_after_self]
  rfl

theorem rotateThrough_result {o : Word × Bool} (h : rotateThrough n o s = .next t) : (t.reg n, t.st.cf) = o := by
  rw [rotateThrough_eq] at h
  obtain rfl := Host.Outcome.next.inj h
  rw [State.reg_after_self]
  rfl

theorem rotateThrough_left_column {v : Word} {c : Bool} (h : rotateThrough n (rotateLeftThrough v c) s = .next t) :
    (t.reg n).toNat + 2 ^ 32 * t.st.cf.toNat = 2 * v.toNat + c.toNat := by
  rw [← toNat_rotateLeftThrough, ← rotateThrough_result h]

theorem rotateThrough_right_column {v : Word} {c : Bool} (h : rotateThrough n (rotateRightThrough v c) s = .next t) :
    2 * (t.reg n).toNat + t.st.cf.toNat = v.toNat + 2 ^ 32 * c.toNat := by
  rw [← toNat_rotateRightThrough, ← rotateThrough_result h]

/-- SHL by 1 is RTLX with a 0 moved in. -/
theorem execShl_one_eq (n : Reg) (s : State) :
    execShl n 1 s = rotateThrough n (rotateLeftThrough (s.reg n) false) s := by
  have hrot : rotateLeftThrough (s.reg n) false = (s.reg n <<< 1, (s.reg n).getLsbD 31) := by
    simp [rotateLeftThrough]
  rw [hrot]
  rfl

/-- SHR by 1 is RTRX with a 0 moved in. -/
theorem execShr_one_eq (n : Reg) (s : State) :
    execShr n 1 s = rotateThrough n (rotateRightThrough (s.reg n) false) s := by
  have hrot : rotateRightThrough (s.reg n) false = (s.reg n >>> 1, (s.reg n).getLsbD 0) := by
    simp [rotateRightThrough]
  rw [hrot]
  rfl

/-! ## The idioms for 64-bit numbers (O34) -/

/-- R2:R1 as one number. -/
def State.wide (s : State) : Nat := (s.reg .r1).toNat + 2 ^ 32 * (s.reg .r2).toNat

theorem State.wide_lt (s : State) : s.wide < 2 ^ 64 := by
  have h1 := (s.reg .r1).isLt
  have h2 := (s.reg .r2).isLt
  rw [State.wide]
  omega

/-- A 64-bit number and the digit above it, from the value of both. -/
theorem eq_mod_and_carry {w v : Nat} {c : Bool} (hw : w < 2 ^ 64) (h : w + 2 ^ 64 * c.toNat = v) :
    w = v % 2 ^ 64 ∧ c = decide (2 ^ 64 ≤ v) := by
  cases c <;> simp only [Bool.toNat_true, Bool.toNat_false] at h
  · exact ⟨by omega, (decide_eq_false (by omega)).symm⟩
  · exact ⟨by omega, (decide_eq_true (by omega)).symm⟩

/-- The carry of the low column, which ADDC reads, cancels between the two (R124). -/
theorem wide_add_addc (hlow : exec (.add .r1 .r3) s = .next t) (hhigh : exec (.addc .r2 .r4) t = .next u) :
    u.wide + 2 ^ 64 * u.st.cf.toNat = s.wide + ((s.reg .r3).toNat + 2 ^ 32 * (s.reg .r4).toNat) := by
  have hcol1 := arith_addC_column hlow
  have hcol2 := arith_addC_column hhigh
  have ht := (exec_framed hlow).reg
  rw [ht .r2 (by decide), ht .r4 (by decide)] at hcol2
  rw [State.wide, State.wide, (exec_framed hhigh).reg .r1 (by decide)]
  rw [Bool.toNat_false] at hcol1
  omega

/-- The bit that SHL moves out of R1 is the one that RTLX moves into R2 (R152). -/
theorem wide_shl_rtlx (hlow : exec (.shl .r1 1) s = .next t) (hhigh : exec (.rtlx .r2) t = .next u) :
    u.wide + 2 ^ 64 * u.st.cf.toNat = 2 * s.wide := by
  have hcol1 := rotateThrough_left_column ((execShl_one_eq .r1 s).symm.trans hlow)
  have hcol2 := rotateThrough_left_column hhigh
  rw [(exec_framed hlow).reg .r2 (by decide)] at hcol2
  rw [State.wide, State.wide, (exec_framed hhigh).reg .r1 (by decide)]
  rw [Bool.toNat_false] at hcol1
  omega

/-- The bit that SHR moves out of R2 is the one that RTRX moves into R1; the bit moved out of R1 is the remainder (R153). -/
theorem wide_shr_rtrx (hhigh : exec (.shr .r2 1) s = .next t) (hlow : exec (.rtrx .r1) t = .next u) :
    2 * u.wide + u.st.cf.toNat = s.wide := by
  have hcol2 := rotateThrough_right_column ((execShr_one_eq .r2 s).symm.trans hhigh)
  have hcol1 := rotateThrough_right_column hlow
  rw [(exec_framed hhigh).reg .r1 (by decide)] at hcol1
  rw [State.wide, State.wide, (exec_framed hlow).reg .r2 (by decide)]
  rw [Bool.toNat_false] at hcol2
  omega

end

/-- Settles O34: the two columns of each idiom, added up, give R2:R1 and the last carry. -/
theorem multiwordArithmeticChains : Obligations.MultiwordArithmeticChains := by
  intro s t u
  refine ⟨fun hlow hhigh => ?add, fun hlow hhigh => ?left, fun hhigh hlow => ?right⟩
  case add => exact eq_mod_and_carry u.wide_lt (wide_add_addc hlow hhigh)
  case left => exact (eq_mod_and_carry u.wide_lt (wide_shl_rtlx hlow hhigh)).1
  case right =>
    have hhalf := wide_shr_rtrx hhigh hlow
    have hc := u.st.cf.toNat_le
    change u.wide = s.wide / 2
    omega

end Sys2Proof.Machine
end

section
/-! PROOFS. Shift and rotate (42_shift_rotate.md): the closed arithmetic of the repeated one-bit step (O35, O36), which the
register-count forms share (O37); and the rotations through carry on the 33 bits CF ++ Rn (O38). -/

namespace Sys2Proof.Machine

/-! ## The repeated step in arithmetic (R142, R143, R150) -/

theorem toNat_repeated_shl (v : Word) (c : Nat) : (repeated .shl v c).r.toNat = v.toNat * 2 ^ c % 2 ^ 32 := by
  rw [repeated_shl_r, BitVec.toNat_shiftLeft, Nat.shiftLeft_eq]

theorem toNat_repeated_shr (v : Word) (c : Nat) : (repeated .shr v c).r.toNat = v.toNat / 2 ^ c := by
  rw [repeated_shr_r, BitVec.toNat_ushiftRight, Nat.shiftRight_eq_div_pow]

theorem toInt_repeated_sra (v : Word) (c : Nat) : (repeated .sra v c).r.toInt = v.toInt / 2 ^ c := by
  rw [repeated_sra_r, BitVec.toInt_sshiftRight, Int.shiftRight_eq_div_pow, Nat.cast_pow, Nat.cast_ofNat]

/-- Settles O35: an immediate count is a count of `shiftBy_eq`, and each kind has its arithmetic. -/
theorem shiftsAreRepeatedOneBitSteps : Obligations.ShiftsAreRepeatedOneBitSteps := fun s n k =>
  ⟨⟨encodeRI8_eq_w0Of 0x30 n k, shiftBy_eq .shl n (.imm k) s, toNat_repeated_shl (s.reg n) k.toNat⟩,
    ⟨encodeRI8_eq_w0Of 0x31 n k, shiftBy_eq .shr n (.imm k) s, toNat_repeated_shr (s.reg n) k.toNat⟩,
    ⟨encodeRI8_eq_w0Of 0x38 n k, shiftBy_eq .sra n (.imm k) s, toInt_repeated_sra (s.reg n) k.toNat⟩⟩

/-! ## The repeated rotation (R144, R145) -/

theorem repeated_rotl_r_mod (v : Word) (c : Nat) : (repeated .rotl v c).r = v.rotateLeft (c % 32) := by
  rw [repeated_rotl_r, BitVec.rotateLeft_mod_eq_rotateLeft]

theorem repeated_rotr_r_mod (v : Word) (c : Nat) : (repeated .rotr v c).r = v.rotateRight (c % 32) := by
  rw [repeated_rotr_r, BitVec.rotateRight_mod_eq_rotateRight]

/-- The bit that last left bit 31 has entered bit 0. -/
theorem repeated_rotl_out (v : Word) {c : Nat} (h : c ≠ 0) :
    (repeated .rotl v c).out = some ((repeated .rotl v c).r.getLsbD 0) := by
  rw [← rotateLeft_eq, rotateLeft, if_neg h]

/-- The bit that last left bit 0 has entered bit 31. -/
theorem repeated_rotr_out (v : Word) {c : Nat} (h : c ≠ 0) :
    (repeated .rotr v c).out = some ((repeated .rotr v c).r.getLsbD 31) := by
  rw [← rotateRight_eq, rotateRight, if_neg h]

/-- Settles O36: the repeated rotation of R140, its value and the bit it moved last. -/
theorem rotatesAreRepeatedOneBitSteps : Obligations.RotatesAreRepeatedOneBitSteps := by
  intro s n k v
  have hcount (hk : k ≠ 0) : k.toNat ≠ 0 := fun h => hk (BitVec.toNat_inj.1 h)
  exact ⟨⟨encodeRI8_eq_w0Of 0x32 n k, shiftBy_eq .rotl n (.imm k) s, repeated_rotl_r_mod v k.toNat,
      fun hk => repeated_rotl_out v (hcount hk)⟩,
    ⟨encodeRI8_eq_w0Of 0x33 n k, shiftBy_eq .rotr n (.imm k) s, repeated_rotr_r_mod v k.toNat,
      fun hk => repeated_rotr_out v (hcount hk)⟩⟩

/-! ## The count from a register (R146 to R149, R151) -/

/-- Settles O37: a register count is a count of `shiftBy_eq`, and the default mask of SHIFT_COUNT_REG is all ones. -/
theorem registerCountShifts : Obligations.RegisterCountShifts :=
  ⟨fun s n a => ⟨shiftBy_eq .shl n (.reg a) s, shiftBy_eq .shr n (.reg a) s, shiftBy_eq .sra n (.reg a) s,
    shiftBy_eq .rotl n (.reg a) s, shiftBy_eq .rotr n (.reg a) s⟩, fun _ => BitVec.and_allOnes⟩

/-! ## The 33 bits CF ++ Rn (R152, R153) -/

/-- CF is bit 32, above the word. -/
theorem getLsbD_carry_append (c : Bool) (v : Word) (i : Nat) :
    (BitVec.ofBool c ++ v : BitVec 33).getLsbD i = if i < 32 then v.getLsbD i else decide (i = 32) && c := by
  rw [BitVec.getLsbD_append, BitVec.getLsbD_ofBool]
  split
  case isTrue => rfl
  case isFalse h =>
    have hbit : i - 32 = 0 ↔ i = 32 := by omega
    rw [decide_eq_decide.2 hbit]

/-- RTLX bit by bit: bit 0 was CF, bits 1 to 31 and the new CF were each the bit below. -/
theorem rotateLeftThrough_eq_rotateLeft (v : Word) (c : Bool) :
    (BitVec.ofBool (rotateLeftThrough v c).2 ++ (rotateLeftThrough v c).1 : BitVec 33) =
      (BitVec.ofBool c ++ v : BitVec 33).rotateLeft 1 := by
  refine BitVec.eq_of_getLsbD_eq fun i hi => ?_
  rw [BitVec.getLsbD_rotateLeft, getLsbD_carry_append, getLsbD_carry_append, getLsbD_carry_append, rotateLeftThrough]
  cases i with
  | zero => simp
  | succ j =>
    obtain hword | rfl : j + 1 < 32 ∨ j = 31 := by omega
    · have hbelow : j < 32 := by omega
      simp [hword, hbelow, hi]
    · simp

/-- RTRX bit by bit: bits 0 to 30 were each the bit above, bit 31 was CF, the new CF was bit 0. -/
theorem rotateRightThrough_eq_rotateRight (v : Word) (c : Bool) :
    (BitVec.ofBool (rotateRightThrough v c).2 ++ (rotateRightThrough v c).1 : BitVec 33) =
      (BitVec.ofBool c ++ v : BitVec 33).rotateRight 1 := by
  refine BitVec.eq_of_getLsbD_eq fun i hi => ?_
  rw [BitVec.getLsbD_rotateRight, getLsbD_carry_append, getLsbD_carry_append, getLsbD_carry_append, rotateRightThrough]
  obtain hlt | rfl | rfl : i < 31 ∨ i = 31 ∨ i = 32 := by omega
  · have hword : i < 32 := by omega
    have habove : 1 + i < 32 := by omega
    simp [hlt, hword, habove]
  · simp
  · simp

/-- Settles O38: the two parts that the instruction writes are the rotated 33 bits. -/
theorem rotateThroughCarryIsA33BitRotation : Obligations.RotateThroughCarryIsA33BitRotation := fun s n =>
  ⟨⟨encodeR_eq_w0Of 0x3A n, _, _, rotateLeftThrough_eq_rotateLeft (s.reg n) s.st.cf, rotateThrough_eq n _ s⟩,
    ⟨encodeR_eq_w0Of 0x3B n, _, _, rotateRightThrough_eq_rotateRight (s.reg n) s.st.cf, rotateThrough_eq n _ s⟩⟩

end Sys2Proof.Machine
end

section
/-! PROOFS. The stack (43_program_control.md): a push below SP (O39), which is also what a call does before it jumps (O44,
O45); a pop at SP (O40); PUSHA and POPA (O41, O42), which check their seven addresses by one rule, and POPA after PUSHA (O43). -/

namespace Sys2Proof.Machine

variable {s t : State}

/-! ## A push and the PC after it (R161, R163, R167, R168) -/

/-- A push leaves PC as it was, so the instruction that follows is the target of PUSH and PUSHSTA. -/
theorem finish_push_eq_finishAt (s : State) (v : Word) : finish (s.push v) = finishAt (s.pc + 8) (s.push v) := by
  cases h : s.push v with
  | ok u =>
    obtain ⟨-, rfl⟩ := (State.push_eq_ok_iff s u v).1 h
    rfl
  | error f => rfl

/-- Where SP - 4 is accessible: the word is held there, every byte outside it stays, and of the rest SP and PC change. -/
theorem finishAt_push_frame (p v : Word) (h : accessible s.config (s.sp - 4)) :
    ∃ t, finishAt p (s.push v) = .next t ∧ holdsWord t.mem (s.sp - 4) v ∧
      (∀ b, ¬ inWords [s.sp - 4] b → t.mem.byte? b = s.mem.byte? b) ∧
      t = { s with mem := t.mem, sp := s.sp - 4, pc := p } := by
  rw [State.push_of_accessible v h, finishAt_ok]
  exact ⟨_, rfl, holdsWord_storeWord s _ _, fun _ => byte?_storeWord_of_not_inWords, rfl⟩

theorem finish_push_frame (v : Word) (h : accessible s.config (s.sp - 4)) :
    ∃ t, finish (s.push v) = .next t ∧ holdsWord t.mem (s.sp - 4) v ∧
      (∀ b, ¬ inWords [s.sp - 4] b → t.mem.byte? b = s.mem.byte? b) ∧
      t = { s with mem := t.mem, sp := s.sp - 4, pc := s.pc + 8 } := by
  rw [finish_push_eq_finishAt]
  exact finishAt_push_frame (s.pc + 8) v h

theorem finishAt_push_of_accessFault {f : Fault} (p v : Word) (h : accessFault s.config (s.sp - 4) = some f) :
    finishAt p (s.push v) = .fault f := by
  rw [State.push_of_accessFault h, finishAt_error]

theorem finish_push_of_accessFault {f : Fault} (v : Word) (h : accessFault s.config (s.sp - 4) = some f) :
    finish (s.push v) = .fault f := by
  rw [State.push_of_accessFault h, finish_error]

/-- SP - 4 is a multiple of 4 exactly where SP is. -/
theorem accessFault_sp_sub_of_misaligned (h : s.sp.toNat % 4 ≠ 0) :
    accessFault s.config (s.sp - 4) = some (.misaligned (s.sp - 4)) :=
  accessFault_of_misaligned _ ((toNat_sub_mod_four s.sp 4 rfl).trans_ne h)

theorem accessFault_sp_sub_of_unmapped (h : s.sp.toNat % 4 = 0) (hmap : mapped s.config (s.sp - 4) = false) :
    accessFault s.config (s.sp - 4) = some (.busError (s.sp - 4)) :=
  accessFault_of_unmapped _ ((toNat_sub_mod_four s.sp 4 rfl).trans h) hmap

/-- Settles O39: each clause is one of a push, of Rn for PUSH and of ST for PUSHSTA. -/
theorem pushResults : Obligations.PushResults := by
  intro s n
  refine ⟨fun h => ⟨?done_push, ?done_pushsta⟩, fun h => ⟨?misaligned_push, ?misaligned_pushsta⟩,
    fun h hmap => ⟨?unmapped_push, ?unmapped_pushsta⟩⟩
  case done_push => exact finish_push_frame (s.reg n) h
  case done_pushsta => exact finish_push_frame s.st.toWord h
  case misaligned_push => exact finish_push_of_accessFault (s.reg n) (accessFault_sp_sub_of_misaligned h)
  case misaligned_pushsta => exact finish_push_of_accessFault s.st.toWord (accessFault_sp_sub_of_misaligned h)
  case unmapped_push => exact finish_push_of_accessFault (s.reg n) (accessFault_sp_sub_of_unmapped h hmap)
  case unmapped_pushsta => exact finish_push_of_accessFault s.st.toWord (accessFault_sp_sub_of_unmapped h hmap)

/-! ## A pop and what is made of its word (R162, R164, R169) -/

theorem execPop_of_holds {v : Word} (n : Reg) (h : accessible s.config s.sp) (hv : holdsWord s.mem s.sp v) :
    execPop n s = .next { s with regs := s.regs.set n v, sp := s.sp + 4, pc := s.pc + 8 } := by
  rw [execPop, State.pop_of_holds h hv]
  rfl

theorem execPopsta_of_holds {v : Word} (h : accessible s.config s.sp) (hv : holdsWord s.mem s.sp v) :
    execPopsta s = .next { s with st := Flags.ofWord v, sp := s.sp + 4, pc := s.pc + 8 } := by
  rw [execPopsta, State.pop_of_holds h hv]
  rfl

theorem execRet_of_holds {v : Word} (h : accessible s.config s.sp) (hv : holdsWord s.mem s.sp v) :
    execRet s = .next { s with sp := s.sp + 4, pc := v } := by
  rw [execRet, State.pop_of_holds h hv]
  rfl

/-- The three share the pop, so the fault of its read is theirs. -/
theorem pops_of_error {f : Fault} (n : Reg) (h : s.memRead s.sp = .error f) :
    execPop n s = .fault f ∧ execPopsta s = .fault f ∧ execRet s = .fault f := by
  have hpop := State.pop_of_error h
  simp only [execPop, execPopsta, execRet, hpop, finish_error, and_self]

/-- Settles O40: what each makes of the word, and the three faults of its read. -/
theorem popResults : Obligations.PopResults := by
  intro s n v
  refine ⟨fun h hv => ?done, fun h => ?misaligned, fun h hmap => ?unmapped, fun b h hb => ?unwritten⟩
  case done =>
    exact ⟨execPop_of_holds n h hv, ⟨Flags.ofWord v, execPopsta_of_holds h hv, toWord_ofWord v⟩, execRet_of_holds h hv⟩
  case misaligned => exact pops_of_error n (State.memRead_of_accessFault (accessFault_of_misaligned _ h))
  case unmapped => exact pops_of_error n (State.memRead_of_accessFault (accessFault_of_unmapped _ h hmap))
  case unwritten => exact pops_of_error n (State.memRead_of_firstMissing h hb)

/-! ## The check of several aligned addresses (R165, R166, R244) -/

section
variable {c : Config} {as : List Word}

theorem firstFault_of_mapped (hal : ∀ a ∈ as, a.toNat % 4 = 0) (hmap : ∀ a ∈ as, mapped c a = true) :
    firstFault c as = none :=
  (firstFault_eq_none_iff c as).2 fun a ha => (accessFault_eq_none_iff c a).2 ⟨hal a ha, hmap a ha⟩

theorem firstFault_of_unmapped {pre post : List Word} {a : Word} (hal : ∀ a ∈ as, a.toNat % 4 = 0)
    (has : as = pre ++ a :: post) (hpre : ∀ b ∈ pre, mapped c b = true) (ha : mapped c a = false) :
    firstFault c as = some (.busError a) := by
  subst has
  refine firstFault_append_cons c pre post a _ (fun b hb => ?_) (accessFault_of_unmapped c (hal a (by simp)) ha)
  exact (accessFault_eq_none_iff c b).2 ⟨hal b (by simp [hb]), hpre b hb⟩

end

theorem aligned_of_mem_pushAddrs {p a : Word} (h : p.toNat % 4 = 0) (ha : a ∈ pushAddrs p) : a.toNat % 4 = 0 := by
  simp only [pushAddrs, List.mem_cons, List.not_mem_nil, or_false] at ha
  rcases ha with rfl | rfl | rfl | rfl | rfl | rfl | rfl <;> exact (toNat_sub_mod_four p _ rfl).trans h

theorem aligned_of_mem_popAddrs {p a : Word} (h : p.toNat % 4 = 0) (ha : a ∈ popAddrs p) : a.toNat % 4 = 0 := by
  simp only [popAddrs, List.mem_cons, List.not_mem_nil, or_false] at ha
  rcases ha with rfl | rfl | rfl | rfl | rfl | rfl | rfl
  · exact h
  all_goals exact (toNat_add_mod_four p _ rfl).trans h

/-! ## PUSHA (R165) -/

/-- The seven words of PUSHA are in `m`: ST, R6, ..., R1, downwards from SP - 4. -/
def State.SavedIn (s : State) (m : Memory) : Prop :=
  holdsWord m (s.sp - 4) s.st.toWord ∧ holdsWord m (s.sp - 8) (s.reg .r6) ∧ holdsWord m (s.sp - 12) (s.reg .r5) ∧
  holdsWord m (s.sp - 16) (s.reg .r4) ∧ holdsWord m (s.sp - 20) (s.reg .r3) ∧ holdsWord m (s.sp - 24) (s.reg .r2) ∧
  holdsWord m (s.sp - 28) (s.reg .r1)

theorem storeAll_setSp_advance (s : State) (p : Word) :
    (s.storeAll.setSp p).advance = { s with mem := s.storeAll.mem, sp := p, pc := s.pc + 8 } := by
  conv_lhs => rw [State.storeAll_eq]
  generalize s.storeAll.mem = m
  rfl

/-- A PUSHA that completes has saved the seven words; every byte outside them stays, and of the rest SP and PC change. -/
theorem execPusha_frame (h : execPusha s = .next t) :
    s.SavedIn t.mem ∧ (∀ b, ¬ inWords (pushAddrs s.sp) b → t.mem.byte? b = s.mem.byte? b) ∧
      t = { s with mem := t.mem, sp := s.sp - 28, pc := s.pc + 8 } := by
  obtain ⟨-, rfl⟩ := execPusha_eq_next h
  rw [State.advance_mem, State.setSp_mem]
  exact ⟨s.holdsWord_storeAll, fun _ => State.byte?_storeAll s, storeAll_setSp_advance s (s.sp - 28)⟩

theorem execPusha_of_firstFault_none (h : firstFault s.config (pushAddrs s.sp) = none) :
    ∃ t, execPusha s = .next t := by
  simp only [execPusha, h, finish_ok]
  exact ⟨_, rfl⟩

theorem execPusha_of_firstFault {f : Fault} (h : firstFault s.config (pushAddrs s.sp) = some f) :
    execPusha s = .fault f := by
  simp only [execPusha, h, finish_error]

/-- Settles O41: the frame of a PUSHA that completes, and the first address that does not pass. -/
theorem pushAllResult : Obligations.PushAllResult := by
  intro s
  refine ⟨fun h hmap => ?done, fun h => ?misaligned, fun h pre post a has hpre ha => ?unmapped⟩
  case done =>
    have hpass := firstFault_of_mapped (fun _ => aligned_of_mem_pushAddrs h) hmap
    obtain ⟨t, ht⟩ := execPusha_of_firstFault_none hpass
    obtain ⟨⟨hst, h6, h5, h4, h3, h2, h1⟩, hbytes, hrest⟩ := execPusha_frame ht
    exact ⟨t, ht, hst, h6, h5, h4, h3, h2, h1, hbytes, hrest⟩
  case misaligned =>
    exact execPusha_of_firstFault (firstFault_append_cons _ [] _ _ _ nofun (accessFault_sp_sub_of_misaligned h))
  case unmapped =>
    exact execPusha_of_firstFault (firstFault_of_unmapped (fun _ => aligned_of_mem_pushAddrs h) has hpre ha)

/-! ## POPA (R166) -/

theorem execPopa_of_loadAll {u : State} (h : firstFault s.config (popAddrs s.sp) = none) (hload : s.loadAll = .ok u) :
    execPopa s = .next (u.setSp (s.sp + 28)).advance := by
  simp only [execPopa, h, hload, finish_ok]

theorem execPopa_of_firstFault {f : Fault} (h : firstFault s.config (popAddrs s.sp) = some f) :
    execPopa s = .fault f := by
  simp only [execPopa, h, finish_error]

theorem execPopa_of_loadAll_error {f : Fault} (h : firstFault s.config (popAddrs s.sp) = none)
    (hload : s.loadAll = .error f) : execPopa s = .fault f := by
  simp only [execPopa, h, hload, finish_error]

/-- Settles O42: the seven reads of `State.loadAll` after the check of the seven addresses. -/
theorem popAllResult : Obligations.PopAllResult := by
  intro s
  refine ⟨fun h hmap v1 v2 v3 v4 v5 v6 vs h1 h2 h3 h4 h5 h6 hs => ?done, fun h => ?misaligned,
    fun h pre post a has hpre ha => ?unmapped, fun h hmap pre post a b has hpre hb => ?unwritten⟩
  case done =>
    have hpass := firstFault_of_mapped (fun _ => aligned_of_mem_popAddrs h) hmap
    exact ⟨Flags.ofWord vs, toWord_ofWord vs, execPopa_of_loadAll hpass (State.loadAll_of_holds h1 h2 h3 h4 h5 h6 hs)⟩
  case misaligned =>
    exact execPopa_of_firstFault (firstFault_append_cons _ [] _ _ _ nofun (accessFault_of_misaligned _ h))
  case unmapped =>
    exact execPopa_of_firstFault (firstFault_of_unmapped (fun _ => aligned_of_mem_popAddrs h) has hpre ha)
  case unwritten =>
    have hpass := firstFault_of_mapped (fun _ => aligned_of_mem_popAddrs h) hmap
    have hread : ∀ c ∈ pre, ∃ v, s.fetchWord c = .ok v := by
      simpa only [State.fetchWord_eq_ok_iff] using hpre
    exact execPopa_of_loadAll_error hpass (State.loadAll_of_error has hread (State.fetchWord_of_firstMissing hb))

/-! ## POPA after PUSHA -/

/-- POPA visits the words of PUSHA in the opposite order, wherever SP points. -/
theorem popAddrs_sub_eq_reverse (p : Word) : popAddrs (p - 28) = (pushAddrs p).reverse := by
  simp only [popAddrs, pushAddrs, List.reverse_cons, List.reverse_nil, List.nil_append, List.cons_append,
    List.cons.injEq, and_true, true_and]
  bv_omega

/-- The order of the addresses does not matter where all of them pass. -/
theorem firstFault_reverse_eq_none_iff (c : Config) (as : List Word) :
    firstFault c as.reverse = none ↔ firstFault c as = none := by
  simp only [firstFault_eq_none_iff, List.mem_reverse]

/-- The seven reads of POPA, from the seven words of PUSHA, give back the registers and the flags. -/
theorem loadAll_of_savedIn (hsp : t.sp = s.sp - 28) (hsaved : s.SavedIn t.mem) :
    t.loadAll = .ok { t with regs := s.regs, st := s.st } := by
  obtain ⟨hst, h6, h5, h4, h3, h2, h1⟩ := hsaved
  have hwords := popAddrs_sub_eq_reverse s.sp
  simp only [popAddrs, pushAddrs, List.reverse_cons, List.reverse_nil, List.nil_append, List.cons_append,
    List.cons.injEq, and_true, true_and] at hwords
  obtain ⟨e2, e3, e4, e5, e6, es⟩ := hwords
  rw [← hsp] at h1 e2 e3 e4 e5 e6 es
  rw [State.loadAll_of_holds h1 (e2 ▸ h2) (e3 ▸ h3) (e4 ▸ h4) (e5 ▸ h5) (e6 ▸ h6) (es ▸ hst), ofWord_toWord]
  rfl

/-- Settles O43: PUSHA's words pass POPA's checks, and are read back. -/
theorem popaRestoresWhatPushaSaved : Obligations.PopaRestoresWhatPushaSaved := by
  intro s t h
  obtain ⟨hpass, -⟩ := execPusha_eq_next h
  obtain ⟨hsaved, -, ht⟩ := execPusha_frame h
  have hsp : t.sp = s.sp - 28 := by rw [ht]
  have hconfig : t.config = s.config := by rw [ht]
  rw [← firstFault_reverse_eq_none_iff, ← popAddrs_sub_eq_reverse, ← hsp, ← hconfig] at hpass
  refine ⟨_, execPopa_of_loadAll hpass (loadAll_of_savedIn hsp hsaved), rfl, rfl, ?_, rfl⟩
  rw [State.advance_sp, State.setSp_sp, hsp]
  exact BitVec.sub_add_cancel s.sp 28

/-! ## Calls (R167, R168) -/

/-- Settles O44: each clause is one of a push of the return address, at the target Daddr for CALL, in Ra for SBRA. -/
theorem callResults : Obligations.CallResults := by
  intro s d n
  refine ⟨fun h => ⟨?done_call, ?done_sbra⟩, fun h => ⟨?misaligned_call, ?misaligned_sbra⟩,
    fun h hmap => ⟨?unmapped_call, ?unmapped_sbra⟩⟩
  case done_call => exact finishAt_push_frame d s.nextPc h
  case done_sbra => exact finishAt_push_frame (s.reg n) s.nextPc h
  case misaligned_call => exact finishAt_push_of_accessFault d s.nextPc (accessFault_sp_sub_of_misaligned h)
  case misaligned_sbra => exact finishAt_push_of_accessFault (s.reg n) s.nextPc (accessFault_sp_sub_of_misaligned h)
  case unmapped_call => exact finishAt_push_of_accessFault d s.nextPc (accessFault_sp_sub_of_unmapped h hmap)
  case unmapped_sbra => exact finishAt_push_of_accessFault (s.reg n) s.nextPc (accessFault_sp_sub_of_unmapped h hmap)

/-- A RET after a push that jumped pops what was pushed, and SP is back. -/
theorem execRet_of_finishAt_push {p v : Word} (h : finishAt p (s.push v) = .next t) :
    ∃ u, execRet t = .next u ∧ u.pc = v ∧ u.sp = s.sp ∧ u.regs = s.regs ∧ u.st = s.st := by
  obtain ⟨u, hu, rfl⟩ := finishAt_eq_next h
  obtain ⟨hpass, rfl⟩ := (State.push_eq_ok_iff s u v).1 hu
  have hacc := (accessFault_eq_none_iff_accessible s.config (s.sp - 4)).1 hpass
  exact ⟨_, execRet_of_holds hacc (holdsWord_storeWord s (s.sp - 4) v), rfl, BitVec.sub_add_cancel s.sp 4, rfl, rfl⟩

/-- Settles O45: CALL and SBRA push the same word, the following address, and differ in the target alone. -/
theorem callThenRetReturns : Obligations.CallThenRetReturns := by
  rintro s t i (⟨d, rfl⟩ | ⟨n, rfl⟩) h
  · exact execRet_of_finishAt_push (p := d) h
  · exact execRet_of_finishAt_push (p := s.reg n) h

end Sys2Proof.Machine
end

section
/-! PROOFS. Jumps, NOP and HALT (43_program_control.md): no jump looks at its target, the next fetch does (O47); the two
states that no step leaves until a Reset, a jump to itself and Halted, by one induction over runs (O46, O48). -/

namespace Sys2Proof.Machine

variable {s : State}

/-! ## States that the processor's step leaves as they are -/

/-- Whatever the host's list, the processor's step leaves the state, and a Confirm has no effect on it (R256). -/
structure State.Stays (s : State) : Prop where
  not_breakStopped : s.run ≠ .breakStopped
  processorStep : ∀ l, ({ s with hostEvents := l } : State).processorStep exec = .next { s with hostEvents := l }

theorem State.Stays.withHostEvents (h : s.Stays) (l : List HostEvent) : ({ s with hostEvents := l } : State).Stays :=
  ⟨h.not_breakStopped, h.processorStep⟩

theorem State.hostConfirm_of_not_breakStopped (h : s.run ≠ .breakStopped) : s.hostConfirm = s := by
  unfold State.hostConfirm
  split
  next hbreak => exact absurd hbreak h
  next => rfl

/-- A step that is no Reset consumes the host's entry, and that is all. -/
theorem State.Stays.step_eq (h : s.Stays) (hreset : ∀ v, HostEvent.reset v ∉ s.hostEvents) :
    step s = .next { s with hostEvents := s.hostEvents.tail } := by
  cases hl : s.hostEvents with
  | nil =>
    calc
      step s = s.processorStep exec := step_unattended hl
      _ = .next s := h.processorStep s.hostEvents
      _ = .next { s with hostEvents := [] } := by rw [← hl]
  | cons e rest =>
    cases e with
    | idle =>
      rw [step_idle hl]
      exact h.processorStep rest
    | confirm =>
      rw [step_confirm hl, State.hostConfirm_of_not_breakStopped (h.withHostEvents rest).not_breakStopped]
      rfl
    | reset v => exact absurd (by simp [hl]) (hreset v)

/-- So does a run of any length, its entries one after the other. -/
theorem State.Stays.run_eq (h : s.Stays) (hreset : ∀ v, HostEvent.reset v ∉ s.hostEvents) (k : Nat) :
    Host.Core.run Sys2Proof.core k s = .next { s with hostEvents := s.hostEvents.drop k } := by
  induction k generalizing s with
  | zero => rfl
  | succ k ih =>
    rw [← List.drop_tail]
    have htail := ih (h.withHostEvents s.hostEvents.tail) fun v hv => hreset v (List.mem_of_mem_tail hv)
    exact (run_succ_of_next k (h.step_eq hreset)).trans htail

/-- A jump to itself: the fetch does not depend on the host's list, and the jump loads PC with what it holds (R170). -/
theorem State.stays_of_fetch_jmp_self (hrun : s.run = .running) (hfetch : s.fetch = .ok (.jmp s.pc)) : s.Stays where
  not_breakStopped h := nomatch hrun.symm.trans h
  processorStep l := by
    rw [State.processorStep_of_running (s := { s with hostEvents := l }) exec hrun, State.fetch_withHostEvents, hfetch]
    rfl

theorem State.stays_of_halted (h : s.run = .halted) : s.Stays where
  not_breakStopped hbreak := nomatch h.symm.trans hbreak
  processorStep _ := State.processorStep_of_not_running _ fun hrun => nomatch h.symm.trans hrun

/-- Settles O46: the equations of the three meanings, and a jump to itself as a state that stays. -/
theorem jumpsAndNop : Obligations.JumpsAndNop := by
  intro s d n
  refine ⟨⟨encodeI32_eq_w0Of 0x49 d, rfl⟩, ⟨encodeN_eq_w0Of 0x4B, rfl⟩, ⟨encodeR_eq_w0Of 0x4A n, rfl⟩, ?loop⟩
  case loop =>
    intro w0 w1 k hrun hreset h0 h1 hw0 hw1 hdecode
    have hfetch := (State.fetch_eq_ok_iff s (.jmp s.pc)).2 ⟨h0, h1, w0, w1, hw0, hw1, hdecode⟩
    exact (State.stays_of_fetch_jmp_self hrun hfetch).run_eq hreset k

/-! ## Targets (R175) -/

theorem condJump_taken_or_not (cond : Cond) (d : Word) (s : State) :
    condJump cond d s = .next (s.jumped d) ∨ condJump cond d s = .next (s.jumped (s.pc + 8)) := by
  rw [condJump_eq]
  split
  · exact .inl rfl
  · exact .inr rfl

/-- A jump that uses no stack goes to its target, or is conditional and not taken; no target makes it fault. -/
theorem exec_of_jumpTarget {i : Instr} {d : Word} (h : s.jumpTarget i = some d) :
    exec i s = .next (s.jumped d) ∨ unconditional i = false ∧ exec i s = .next (s.jumped (s.pc + 8)) := by
  cases i with
  | jpz | jpe | jpnz | jpne | jpc | jpnc | jpo | jpno | jpp | jpn | jpbc | jpnbc | jpd | jpnd | jpb | jpa | jpbe | jpae
  | jpl | jpg | jpng | jple | jpnl | jpge =>
    obtain rfl := Option.some.inj h
    exact (condJump_taken_or_not _ _ s).imp_right fun hnot => ⟨rfl, hnot⟩
  | jmp | bra =>
    obtain rfl := Option.some.inj h
    exact .inl rfl
  | stsr n sr =>
    cases sr with
    | pc =>
      obtain rfl := Option.some.inj h
      exact .inl rfl
    | sp | st => cases h
  | _ => cases h

/-- A call completes at its target, whatever it is, where its push meets memory. -/
theorem finishAt_push_pc (p v : Word) (h : accessible s.config (s.sp - 4)) :
    ∃ t, finishAt p (s.push v) = .next t ∧ t.pc = p := by
  rw [State.push_of_accessible v h, finishAt_ok]
  exact ⟨_, rfl, rfl⟩

/-- Settles O47: the meanings of the jumps ask nothing of the target; check (1) of the fetch does (R244). -/
theorem badTargetsFaultAtTheNextFetch : Obligations.BadTargetsFaultAtTheNextFetch := by
  refine ⟨fun _ _ _ => exec_of_jumpTarget, fun s d n h => ?calls, fun s d h hv => ?ret,
    fun i s t u _ hrun hyield hmis => ?fetch⟩
  case calls => exact ⟨finishAt_push_pc d s.nextPc h, finishAt_push_pc (s.reg n) s.nextPc h⟩
  case ret => exact ⟨_, execRet_of_holds h hv, rfl⟩
  case fetch =>
    exact step_of_fetch_fault hrun hyield (State.fetch_of_accessFault (accessFault_of_misaligned t.config hmis))

/-! ## HALT (R173) -/

/-- Settles O48: the equation of HALT, Halted as a state that stays, and the Reset of `State.hostReset`. -/
theorem haltStopsUntilReset : Obligations.HaltStopsUntilReset :=
  ⟨fun _ m => ⟨encodeI32_eq_w0Of 0x4C m, rfl⟩, fun _ k hhalted hreset => (State.stays_of_halted hhalted).run_eq hreset k,
    fun _ _ _ _ hreset => ⟨_, step_reset hreset, rfl, rfl⟩⟩

end Sys2Proof.Machine
end

section
/-! PROOFS. Conditional jumps (44_conditional_branches.md): the table of R203 (O49) and its complements (O50); and what each
condition says of two numbers just compared (O51), where three facts about the flags of a difference carry the rest: ZF is
equality, CF the unsigned order, OF xor SF the signed order (R201). -/

namespace Sys2Proof.Machine

variable {s t : State}

/-! ## The table (R203) -/

/-- A jump is taken where what its condition amounts to holds. -/
theorem condJump_of_holds_iff {cond : Cond} {P : Prop} [Decidable P] (d : Word)
    (h : cond.holds s.config.jppJpnSense s.st = true ↔ P) :
    condJump cond d s = .next (s.jumped (if P then d else s.pc + 8)) := by
  rw [condJump_eq, if_congr h rfl rfl]

/-- `condJump_of_holds_iff` where the condition amounts to a negation. -/
theorem condJump_of_holds_iff_not {cond : Cond} {P : Prop} [Decidable P] (d : Word)
    (h : cond.holds s.config.jppJpnSense s.st = true ↔ ¬ P) :
    condJump cond d s = .next (s.jumped (if P then s.pc + 8 else d)) := by
  rw [condJump_of_holds_iff d h, ite_not]

/-- A jump is taken by the row of R203 that its condition equals. -/
theorem condJump_of_holds_eq {cond : Cond} {b : Bool} (d : Word) (h : cond.holds s.config.jppJpnSense s.st = b) :
    condJump cond d s = .next (s.jumped (if b then d else s.pc + 8)) := by
  rw [condJump_eq, h]

theorem holds_g_eq (sense : JppJpnSense) (f : Flags) : Cond.g.holds sense f = (f.of == f.sf) :=
  Bool.not_not (f.of == f.sf)

theorem holds_nl_eq (sense : JppJpnSense) (f : Flags) : Cond.nl.holds sense f = (f.zf || f.of == f.sf) :=
  congrArg (f.zf || ·) (holds_g_eq sense f)

/-- Settles O49: every jump is `condJump` on the condition of its row; the sense decides JPP and JPN. -/
theorem conditionalJumpTable : Obligations.ConditionalJumpTable := fun d s =>
  ⟨condJump_eq .z d s, condJump_eq .z d s, condJump_eq .nz d s, condJump_eq .nz d s, condJump_eq .c d s,
    condJump_eq .nc d s, condJump_eq .o d s, condJump_eq .no d s, condJump_eq .bc d s, condJump_eq .nbc d s,
    condJump_eq .d d s, condJump_eq .nd d s, condJump_eq .b d s, condJump_eq .a d s, condJump_eq .be d s,
    condJump_eq .ae d s, condJump_eq .l d s, condJump_of_holds_eq d (holds_g_eq _ s.st), condJump_eq .ng d s,
    condJump_eq .ng d s, condJump_of_holds_eq d (holds_nl_eq _ s.st), condJump_of_holds_eq d (holds_nl_eq _ s.st),
    fun tabulated => ⟨condJump_of_holds_eq (cond := .p) d (by rw [tabulated]; rfl),
      condJump_of_holds_eq (cond := .n) d (by rw [tabulated]; rfl)⟩,
    fun named => ⟨condJump_of_holds_eq (cond := .p) d (by rw [named]; rfl),
      condJump_of_holds_eq (cond := .n) d (by rw [named]; rfl)⟩⟩

/-! ## Complements (R203) -/

theorem holds_n_eq_not_p (sense : JppJpnSense) (f : Flags) : Cond.n.holds sense f = !Cond.p.holds sense f := by
  cases sense with
  | asTabulated => rfl
  | asNamed => exact (Bool.not_not f.sf).symm

theorem holds_ae_eq_not_b (sense : JppJpnSense) (f : Flags) : Cond.ae.holds sense f = !Cond.b.holds sense f := by
  simp only [Cond.holds, Bool.not_and, Bool.not_not]

theorem holds_be_eq_not_a (sense : JppJpnSense) (f : Flags) : Cond.be.holds sense f = !Cond.a.holds sense f := by
  simp only [Cond.holds, Bool.not_and, Bool.not_not]

theorem jpz_or_jpnz_taken (d : Word) (s : State) :
    exec (.jpz d) s = .next (s.jumped d) ∨ exec (.jpnz d) s = .next (s.jumped d) := by
  cases hz : s.st.zf with
  | true => exact .inl (condJump_of_holds_eq (cond := .z) (b := true) d hz)
  | false => exact .inr (condJump_of_holds_eq (cond := .nz) (b := true) d (congrArg (!·) hz))

/-- Settles O50. JPNG and JPG, and JPNL and JPL, are no complements, for JPNG and JPNL are taken wherever Z = 1. -/
theorem complementaryJumps : Obligations.ComplementaryJumps := by
  refine ⟨fun sense f => ⟨rfl, rfl, rfl, holds_n_eq_not_p sense f, rfl, rfl, rfl, holds_ae_eq_not_b sense f,
    holds_be_eq_not_a sense f, fun hz hos => ⟨?ng, ?g⟩, fun hz hos => ⟨?nl, ?l⟩⟩, jpz_or_jpnz_taken⟩
  case ng => rw [Cond.holds, hz, Bool.true_or]
  case g => rw [holds_g_eq, hos, beq_self_eq_true]
  case nl => rw [holds_nl_eq, hz, Bool.true_or]
  case l => exact bne_iff_ne.2 hos

/-! ## The flags of a difference (R201) -/

theorem zf_differenceFlags_iff (f : Flags) (A B : Word) : (differenceFlags f A B).zf = true ↔ A = B :=
  decide_eq_true_iff

theorem cf_differenceFlags_iff (f : Flags) (A B : Word) : (differenceFlags f A B).cf = true ↔ B.toNat ≤ A.toNat :=
  decide_eq_true_iff

/-- The sign of the wrapped difference is that of the difference exactly where the difference does not overflow. -/
theorem msb_sub_iff (A B : Word) :
    (A - B).msb = true ↔ (signedOk (A.toInt - B.toInt) = true ↔ A.toInt < B.toInt) := by
  have hA := A.toInt_lt
  have hA' := A.le_toInt
  have hB := B.toInt_lt
  have hB' := B.le_toInt
  rw [BitVec.msb_eq_toInt, BitVec.toInt_sub, signedOk, decide_eq_true_iff, decide_eq_true_iff, Int.bmod_def]
  omega

theorem of_xor_sf_differenceFlags_iff (f : Flags) (A B : Word) :
    ((differenceFlags f A B).of ^^ (differenceFlags f A B).sf) = true ↔ A.toInt < B.toInt := by
  by_cases hok : signedOk (A.toInt - B.toInt) = true
  · simp [differenceFlags, hok, msb_sub_iff]
  · simp [differenceFlags, hok, ← Bool.not_eq_true, msb_sub_iff]

/-! ## What each condition says of two numbers just compared (R181 to R201) -/

/-- The sentences "After a comparison of A with B: taken iff ..." (R198: JPG also on equality), and for the conditions that
have none their row of R203 on the difference; `df` is DF. -/
def Cond.Says (sense : JppJpnSense) (df : Bool) (A B : Word) : Cond → Prop
  | .z => A = B
  | .nz => A ≠ B
  | .c | .ae => B.toNat ≤ A.toNat
  | .nc | .b => A.toNat < B.toNat
  | .a => B.toNat < A.toNat
  | .be => A.toNat ≤ B.toNat
  | .l => A.toInt < B.toInt
  | .g | .nl => B.toInt ≤ A.toInt
  | .ng => A.toInt ≤ B.toInt
  | .o => ¬ signedOk (A.toInt - B.toInt)
  | .no => signedOk (A.toInt - B.toInt)
  | .bc => B.toNat % 16 ≤ A.toNat % 16
  | .nbc => A.toNat % 16 < B.toNat % 16
  | .d => df
  | .nd => ¬ df
  | .p =>
    match sense with
    | .asTabulated => (A - B).msb
    | .asNamed => ¬ (A - B).msb
  | .n =>
    match sense with
    | .asTabulated => ¬ (A - B).msb
    | .asNamed => (A - B).msb

/-- On the flags of a difference each condition tests what its jump's sentence says. -/
theorem holds_differenceFlags_iff (cond : Cond) (sense : JppJpnSense) (f : Flags) (A B : Word) :
    cond.holds sense (differenceFlags f A B) = true ↔ cond.Says sense f.df A B := by
  have hnat : A = B ↔ A.toNat = B.toNat := BitVec.toNat_inj.symm
  have hint : A = B ↔ A.toInt = B.toInt := BitVec.toInt_inj.symm
  cases cond with
  | z => exact zf_differenceFlags_iff f A B
  | c => exact cf_differenceFlags_iff f A B
  | l => exact of_xor_sf_differenceFlags_iff f A B
  | bc => exact decide_eq_true_iff
  | d => exact Iff.rfl
  | nc | b | a | be | ae =>
    simp only [Cond.holds, Cond.Says, Bool.and_eq_true, Bool.or_eq_true, Bool.not_eq_true', ← Bool.not_eq_true,
      zf_differenceFlags_iff, cf_differenceFlags_iff, hnat]
    omega
  | g | ng | nl =>
    simp only [Cond.holds, Cond.Says, Bool.or_eq_true, Bool.not_eq_true', ← Bool.not_eq_true, zf_differenceFlags_iff,
      of_xor_sf_differenceFlags_iff, hint]
    omega
  | nz | o | no | nbc | nd => simp [Cond.holds, Cond.Says, differenceFlags]
  | p | n => cases sense <;> simp [Cond.holds, Cond.Says, differenceFlags]

/-! ## The comparisons (R121) -/

/-- What CMP, SUB and DEC leave alike: the flags of A - B, and the parameters. -/
structure State.Compares (s t : State) (A B : Word) : Prop where
  st_eq : t.st = differenceFlags s.st A B
  config_eq : t.config = s.config

theorem compares_of_execCmp {x y : Reg} (h : execCmp x y s = .next t) : s.Compares t (s.reg x) (s.reg y) := by
  rw [execCmp_eq] at h
  obtain rfl := Host.Outcome.next.inj h
  exact ⟨rfl, rfl⟩

theorem compares_of_arith_subC {n : Reg} {A B : Word} (h : arith n (subC A B) s = .next t) : s.Compares t A B := by
  rw [arith_subC_eq] at h
  obtain rfl := Host.Outcome.next.inj h
  exact ⟨rfl, rfl⟩

theorem State.Compares.holds_iff {A B : Word} (h : s.Compares t A B) (cond : Cond) :
    cond.holds t.config.jppJpnSense t.st = true ↔ cond.Says s.config.jppJpnSense s.st.df A B := by
  rw [h.st_eq, h.config_eq, holds_differenceFlags_iff]

/-- A condition that says `P` of the numbers compared jumps by `P`. -/
theorem State.Compares.jump {A B d : Word} (h : s.Compares t A B) (cond : Cond) {P : Prop} [Decidable P]
    (hP : cond.Says s.config.jppJpnSense s.st.df A B ↔ P) :
    condJump cond d t = .next (t.jumped (if P then d else t.pc + 8)) :=
  condJump_of_holds_iff d ((h.holds_iff cond).trans hP)

/-- `State.Compares.jump` for a condition that says `¬ P`. -/
theorem State.Compares.jump_not {A B d : Word} (h : s.Compares t A B) (cond : Cond) {P : Prop} [Decidable P]
    (hP : cond.Says s.config.jppJpnSense s.st.df A B ↔ ¬ P) :
    condJump cond d t = .next (t.jumped (if P then t.pc + 8 else d)) :=
  condJump_of_holds_iff_not d ((h.holds_iff cond).trans hP)

/-- Settles O51: the three instructions leave the flags of A - B, on which each jump tests what its condition says. -/
theorem branchesAfterAComparison : Obligations.BranchesAfterAComparison := by
  intro s t A B d h
  have hcmp : s.Compares t A B := by
    obtain ⟨x, y, rfl, rfl, h | h⟩ | ⟨x, rfl, h⟩ := h
    · exact compares_of_execCmp h
    · exact compares_of_arith_subC (n := x) h
    · exact compares_of_arith_subC (n := x) h
  refine ⟨hcmp.holds_iff .z, hcmp.holds_iff .c, hcmp.holds_iff .l,
    hcmp.jump .z .rfl, hcmp.jump .nz .rfl, hcmp.jump .c .rfl, hcmp.jump .nc .rfl, hcmp.jump .b .rfl, hcmp.jump .a .rfl,
    hcmp.jump .be .rfl, hcmp.jump .ae .rfl, hcmp.jump .l .rfl, hcmp.jump .g .rfl, hcmp.jump .ng .rfl, hcmp.jump .nl .rfl,
    hcmp.jump .z .rfl, hcmp.jump .nz .rfl, hcmp.jump .ng .rfl, hcmp.jump .nl .rfl, hcmp.jump_not .o .rfl,
    hcmp.jump .no .rfl, hcmp.jump .bc .rfl, hcmp.jump .nbc .rfl, hcmp.jump .d .rfl, hcmp.jump_not .nd .rfl,
    fun tabulated => ⟨hcmp.jump .p (by rw [tabulated]; rfl), hcmp.jump_not .n (by rw [tabulated]; rfl)⟩,
    fun named => ⟨hcmp.jump_not .p (by rw [named]; rfl), hcmp.jump .n (by rw [named]; rfl)⟩⟩

end Sys2Proof.Machine
end

section
/-! PROOFS. Bit instructions (45_bit.md): each is one of four shapes over its second operand, so the Imm8 form and the
register form are two cases of one statement about a bit number (O52, O53); BIT and BZF as inverses (O54). -/

namespace Sys2Proof.Machine

variable {s : State} {k : NumOperand} {q : Nat}

/-! ## Bit numbers up to 31 (R211 to R218) -/

/-- The four shapes at a bit number in range, wherever the number comes from. -/
theorem bitShapes_of_le (n : Reg) (hq : s.bitNumber k = q) (h : q ≤ 31) :
    testBit n k s = .next { s with st := { s.st with zf := !(s.reg n).getLsbD q }, pc := s.pc + 8 } ∧
    (∃ r : Word, setBit n k s = .next (s.after n r s.st) ∧
      ∀ j, r.getLsbD j = if j = q then true else (s.reg n).getLsbD j) ∧
    (∃ r : Word, clearBit n k s = .next (s.after n r s.st) ∧
      ∀ j, r.getLsbD j = if j = q then false else (s.reg n).getLsbD j) ∧
    (∃ r : Word, copyInvertedZf n k s = .next (s.after n r s.st) ∧
      ∀ j, r.getLsbD j = if j = q then !s.st.zf else (s.reg n).getLsbD j) :=
  have hbits := getLsbD_withBit (s.reg n) h
  ⟨testBit_of_le n hq h, ⟨_, setBit_of_le n hq h, hbits true⟩, ⟨_, clearBit_of_le n hq h, hbits false⟩,
    ⟨_, copyInvertedZf_of_le n hq h, hbits (!s.st.zf)⟩⟩

/-- Settles O52: the four shapes, at the number of the Imm8 and at the number in Rs. -/
theorem bitResults : Obligations.BitResults := fun _ n a k =>
  ⟨bitShapes_of_le (k := .imm k) n rfl, bitShapes_of_le (k := .reg a) n rfl⟩

/-! ## Bit numbers above 31 (R210) -/

/-- The four shapes at a bit number out of range. -/
theorem bitShapes_of_gt (n : Reg) (hq : s.bitNumber k = q) (h : 31 < q) :
    testBit n k s = .fault (.bitIndexRange q) ∧ setBit n k s = .fault (.bitIndexRange q) ∧
    clearBit n k s = .fault (.bitIndexRange q) ∧ copyInvertedZf n k s = .fault (.bitIndexRange q) :=
  ⟨testBit_of_gt n hq h, setBit_of_gt n hq h, clearBit_of_gt n hq h, copyInvertedZf_of_gt n hq h⟩

/-- Settles O53: the four shapes, at the number of the Imm8 and at the number in Rs. -/
theorem bitNumbersAbove31Fault : Obligations.BitNumbersAbove31Fault := fun _ n a k =>
  ⟨bitShapes_of_gt (k := .imm k) n rfl, bitShapes_of_gt (k := .reg a) n rfl⟩

/-! ## BIT, then BZF (R217) -/

/-- The registers after a copy of the inverted ZF: one bit of Rn differs at most. -/
theorem copyInvertedZf_registers (n : Reg) (hq : s.bitNumber k = q) (h : q ≤ 31) :
    ∃ u, copyInvertedZf n k s = .next u ∧ (u.reg n).getLsbD q = !s.st.zf ∧
      (∀ j, j ≠ q → (u.reg n).getLsbD j = (s.reg n).getLsbD j) ∧ ∀ r, r ≠ n → u.reg r = s.reg r := by
  obtain ⟨-, -, -, v, hcopy, hv⟩ := bitShapes_of_le n hq h
  refine ⟨_, hcopy, ?_, fun j hj => ?_, fun r hr => Regs.get_set_of_ne s.regs v hr⟩
  · rw [State.reg_after_self, hv, if_pos rfl]
  · rw [State.reg_after_self, hv, if_neg hj]

/-- Settles O54: BIT leaves NOT bit in ZF and the registers alone, and BZF writes NOT ZF, which is the bit. -/
theorem bitThenBzfCopiesABit : Obligations.BitThenBzfCopiesABit := by
  intro s a b i j hi hj
  obtain ⟨u, hbzf, hcopied, hbits, hregs⟩ :=
    copyInvertedZf_registers (s := (s.setSt (s.st.bitTest ((s.reg a).getLsbD i.toNat))).advance) (k := .imm j) b rfl hj
  exact ⟨_, u, testBit_of_le a rfl hi, hbzf, hcopied.trans (Bool.not_not _), hbits, hregs⟩

end Sys2Proof.Machine
end

section
/-! PROOFS. Input and output (46_io.md): the write and the read of a port as one state each, and the read where the
environment has an answer prepared, which may be any word (O55). -/

namespace Sys2Proof.Machine

variable {s t : State} {v : Word} {rest : List Word}

/-! ## The port accesses (R220 to R222) -/

/-- OUT always completes: the event, and PC (R221). -/
theorem execOut_eq (n : Reg) (p : Word) (s : State) : execOut n p s = .next (s.portWrite p (s.reg n)).advance := rfl

/-- IN always completes: the read, its answer in Rn, and PC (R222). -/
theorem execIn_eq (n : Reg) (p : Word) (s : State) :
    execIn n p s = .next ((s.portRead p).setReg n (s.portAnswer p)).advance := rfl

/-! ## The environment's choice (R220) -/

/-- A prepared answer is the answer, whatever the port. -/
theorem State.portAnswer_of_prepared (p : Word) (h : s.portInputs = v :: rest) : s.portAnswer p = v := by
  simp only [State.portAnswer, h]

/-- An IN with an answer prepared takes it, and leaves it in Rn. -/
theorem execIn_of_prepared {n : Reg} {p : Word} (hv : s.portInputs = v :: rest) (h : execIn n p s = .next t) :
    t.reg n = v ∧ t.portInputs = rest ∧ t.st = s.st := by
  rw [execIn_eq, s.portAnswer_of_prepared p hv] at h
  obtain rfl := Host.Outcome.next.inj h
  refine ⟨?reg, ?inputs, ?flags⟩
  case reg => rw [State.advance_reg, State.reg_setReg, if_pos rfl]
  case inputs => rw [State.advance_portInputs, State.setReg_portInputs, State.portRead_portInputs, hv, List.tail_cons]
  case flags => rw [State.advance_st, State.setReg_st, State.portRead_st]

/-- Settles O55: the two accesses field by field, and the read of a prepared answer. -/
theorem portAccesses : Obligations.PortAccesses := fun s n p _ =>
  ⟨execOut_eq n p s, execIn_eq n p s, fun _ _ => execIn_of_prepared⟩

end Sys2Proof.Machine
end

section
/-! PROOFS. Exceptions (60_exceptions.md): the causes an instruction may stop for (O59), so a step always answers (O10); the run
state and the logs an instruction leaves (O17); what a fault leaves as it was, and the stops that only a Reset ends (O14); the
host's Reset and Confirm (O15). -/

namespace Sys2Proof.Machine

variable {s t : State} {i : Instr} {f : Fault} {c : Fault → Prop}

/-! ## The causes of R242 -/

/-- What an address alone can be at fault for (R55, R57). -/
inductive AddressFault : Fault → Prop where
  | misaligned (a : Word) : AddressFault (.misaligned a)
  | busError (a : Word) : AddressFault (.busError a)

/-- What a read can be at fault for: its address, or a byte that holds no value (R37). -/
inductive ReadFault : Fault → Prop where
  | address {f : Fault} (h : AddressFault f) : ReadFault f
  | unwritten (a : Word) : ReadFault (.unwritten a)

/-- A bit number above 31 (R210). -/
inductive BitNumberFault : Fault → Prop where
  | bitIndexRange {k : Nat} (h : 31 < k) : BitNumberFault (.bitIndexRange k)

/-- The causes that the table of R242 gives an instruction, when it executes in `s`. -/
def stopCauses (s : State) : Instr → Fault → Prop
  | .ld _ _ | .ldr _ _ | .pop _ | .popsta | .popa | .ret => ReadFault
  | .st _ _ | .str _ _ | .push _ | .pushsta | .pusha | .call _ | .sbra _ => AddressFault
  | .bit _ _ | .set _ _ | .clr _ _ | .bzf _ _ | .bitr _ _ | .setr _ _ | .clrr _ _ | .bzfr _ _ => BitNumberFault
  | .pragma _ => fun f => f = .refused s.pc
  | _ => fun _ => False

/-! ## The faults of the accesses -/

theorem addressFault_of_accessFault {cfg : Config} {a : Word} (h : accessFault cfg a = some f) : AddressFault f := by
  rcases accessFault_cases h with ⟨-, rfl⟩ | ⟨-, -, rfl⟩
  · exact .misaligned a
  · exact .busError a

theorem addressFault_of_firstFault {cfg : Config} {as : List Word} (h : firstFault cfg as = some f) : AddressFault f := by
  obtain ⟨a, -, ha⟩ := firstFault_eq_some h
  exact addressFault_of_accessFault ha

theorem State.readFault_of_memRead {a : Word} (h : s.memRead a = .error f) : ReadFault f := by
  rcases State.memRead_eq_error h with ha | ⟨-, b, -, rfl⟩
  · exact .address (addressFault_of_accessFault ha)
  · exact .unwritten _

theorem State.readFault_of_pop (h : s.pop = .error f) : ReadFault f :=
  State.readFault_of_memRead (State.pop_eq_error h)

theorem State.addressFault_of_push {v : Word} (h : s.push v = .error f) : AddressFault f :=
  addressFault_of_accessFault (State.push_eq_error h)

theorem State.readFault_of_loadAll (h : s.loadAll = .error f) : ReadFault f := by
  rcases State.loadAll_cases s with ⟨_, _, _, _, _, _, _, -, -, -, -, -, -, -, hs⟩ | ⟨b, hs⟩
  · cases hs.symm.trans h
  · obtain rfl := Except.error.inj (hs.symm.trans h)
    exact .unwritten b

/-! ## How a meaning ends: it completes, or it stops for one of the causes `c` -/

/-- The outcome is a next state, or a fault of the causes `c`; it is no refusal. -/
inductive EndsOnlyBy (c : Fault → Prop) : Host.Outcome State Fault Refusal → Prop where
  | next (t : State) : EndsOnlyBy c (.next t)
  | fault {f : Fault} (h : c f) : EndsOnlyBy c (.fault f)

theorem EndsOnlyBy.not_refused {r : Refusal} (h : EndsOnlyBy c (.refused r)) : False := nomatch h

theorem EndsOnlyBy.cause (h : EndsOnlyBy c (.fault f)) : c f := by
  cases h with
  | fault h => exact h

theorem finish_endsOnlyBy {r : Except Fault State} (hr : ∀ f, r = .error f → c f) : EndsOnlyBy c (finish r) := by
  cases r with
  | ok u => exact .next _
  | error f => exact .fault (hr f rfl)

theorem finishAt_endsOnlyBy {p : Word} {r : Except Fault State} (hr : ∀ f, r = .error f → c f) :
    EndsOnlyBy c (finishAt p r) := by
  cases r with
  | ok u => exact .next _
  | error f => exact .fault (hr f rfl)

/-! ## The ends of the operations that several instructions share -/

theorem condJump_endsOnlyBy (cond : Cond) (d : Word) (s : State) : EndsOnlyBy c (condJump cond d s) := by
  rw [condJump_eq]
  exact .next _

theorem load_endsOnlyBy (n : Reg) (m : MemOperand) (s : State) : EndsOnlyBy ReadFault (load n m s) := by
  cases h : s.memRead (s.effAddr m) with
  | ok v =>
    rw [load_of_read h]
    exact .next _
  | error f =>
    rw [load_of_error h]
    exact .fault (State.readFault_of_memRead h)

theorem store_endsOnlyBy (n : Reg) (m : MemOperand) (s : State) : EndsOnlyBy AddressFault (store n m s) :=
  finish_endsOnlyBy fun _ h => addressFault_of_accessFault (State.memWrite_eq_error h)

theorem finish_push_endsOnlyBy (s : State) (v : Word) : EndsOnlyBy AddressFault (finish (s.push v)) :=
  finish_endsOnlyBy fun _ => State.addressFault_of_push

theorem finishAt_push_endsOnlyBy (p : Word) (s : State) (v : Word) : EndsOnlyBy AddressFault (finishAt p (s.push v)) :=
  finishAt_endsOnlyBy fun _ => State.addressFault_of_push

theorem onBit_endsOnlyBy (k : NumOperand) (s : State) (body : Nat → State) :
    EndsOnlyBy BitNumberFault (onBit k s body) := by
  by_cases h : 31 < s.bitNumber k
  · rw [onBit_of_gt body rfl h]
    exact .fault (.bitIndexRange h)
  · rw [onBit_of_le body rfl (Nat.le_of_not_lt h)]
    exact .next _

theorem testBit_endsOnlyBy (n : Reg) (k : NumOperand) (s : State) : EndsOnlyBy BitNumberFault (testBit n k s) :=
  onBit_endsOnlyBy k s _

theorem setBit_endsOnlyBy (n : Reg) (k : NumOperand) (s : State) : EndsOnlyBy BitNumberFault (setBit n k s) :=
  onBit_endsOnlyBy k s _

theorem clearBit_endsOnlyBy (n : Reg) (k : NumOperand) (s : State) : EndsOnlyBy BitNumberFault (clearBit n k s) :=
  onBit_endsOnlyBy k s _

theorem copyInvertedZf_endsOnlyBy (n : Reg) (k : NumOperand) (s : State) :
    EndsOnlyBy BitNumberFault (copyInvertedZf n k s) :=
  onBit_endsOnlyBy k s _

/-- POP, POPSTA and RET share the pop, and each completes with what it reads. -/
theorem pops_endsOnlyBy (s : State) :
    (∀ n, EndsOnlyBy ReadFault (execPop n s)) ∧ EndsOnlyBy ReadFault (execPopsta s) ∧ EndsOnlyBy ReadFault (execRet s) := by
  simp only [execPop, execPopsta, execRet]
  cases hpop : s.pop with
  | ok p => exact ⟨fun _ => .next _, .next _, .next _⟩
  | error f =>
    have hf := State.readFault_of_pop hpop
    exact ⟨fun _ => .fault hf, .fault hf, .fault hf⟩

theorem execPusha_endsOnlyBy (s : State) : EndsOnlyBy AddressFault (execPusha s) := by
  unfold execPusha
  split
  next hfirst => exact .fault (addressFault_of_firstFault hfirst)
  next => exact .next _

theorem execPopa_endsOnlyBy (s : State) : EndsOnlyBy ReadFault (execPopa s) := by
  unfold execPopa
  split
  next hfirst => exact .fault (.address (addressFault_of_firstFault hfirst))
  next =>
    split
    next => exact .next _
    next hload => exact .fault (State.readFault_of_loadAll hload)

theorem execPragma_endsOnlyBy (m : Word) (s : State) : EndsOnlyBy (fun f => f = .refused s.pc) (execPragma m s) := by
  unfold execPragma
  split
  next => exact .fault rfl
  next => exact .next _

/-! ## The end of every instruction -/

/-- Every instruction completes or stops for a cause of its row of R242. -/
theorem exec_endsOnlyBy (i : Instr) (s : State) : EndsOnlyBy (stopCauses s i) (exec i s) := by
  obtain ⟨hpop, hpopsta, hret⟩ := pops_endsOnlyBy s
  cases i with
  | jpz | jpe | jpnz | jpne | jpc | jpnc | jpo | jpno | jpp | jpn | jpbc | jpnbc | jpd | jpnd | jpb | jpa | jpbe | jpae
  | jpl | jpg | jpng | jple | jpnl | jpge => exact condJump_endsOnlyBy _ _ s
  | bit | bitr => exact testBit_endsOnlyBy _ _ s
  | set | setr => exact setBit_endsOnlyBy _ _ s
  | clr | clrr => exact clearBit_endsOnlyBy _ _ s
  | bzf | bzfr => exact copyInvertedZf_endsOnlyBy _ _ s
  | ld | ldr => exact load_endsOnlyBy _ _ s
  | st | str => exact store_endsOnlyBy _ _ s
  | push | pushsta => exact finish_push_endsOnlyBy s _
  | call | sbra => exact finishAt_push_endsOnlyBy _ s _
  | pop n => exact hpop n
  | popsta => exact hpopsta
  | ret => exact hret
  | pusha => exact execPusha_endsOnlyBy s
  | popa => exact execPopa_endsOnlyBy s
  | pragma m => exact execPragma_endsOnlyBy m s
  | stsr n sr => cases sr <;> exact .next _
  | _ => exact .next _

theorem exec_ne_refused (i : Instr) (s : State) (r : Refusal) : exec i s ≠ .refused r :=
  fun h => (h ▸ exec_endsOnlyBy i s).not_refused

theorem stopCauses_of_exec (h : exec i s = .fault f) : stopCauses s i f :=
  (h ▸ exec_endsOnlyBy i s).cause

/-- Settles O59: the rows of `stopCauses`, read from the cause to the instructions. -/
theorem executionNeedsNoPrivilege : Obligations.ExecutionNeedsNoPrivilege := by
  refine ⟨exec_ne_refused, fun i s f h => ?_⟩
  have hcause := stopCauses_of_exec h
  cases i with
  | ld | ldr | pop | popsta | popa | ret =>
    cases hcause with
    | address haddr => cases haddr <;> simp
    | unwritten => simp
  | st | str | push | pushsta | pusha | call | sbra => cases hcause <;> simp
  | bit | set | clr | bzf | bitr | setr | clrr | bzfr =>
    cases hcause with
    | bitIndexRange hk => simp [hk]
  | pragma m =>
    obtain rfl := hcause
    exact ⟨rfl, m, rfl⟩
  | _ => exact hcause.elim

/-! ## A step always answers -/

theorem State.commit_answers {o : Host.Outcome State Fault Refusal} (h : EndsOnlyBy c o) :
    ∃ t, s.commit o = .next t := by
  cases h with
  | next t => exact ⟨t, rfl⟩
  | fault => exact ⟨_, rfl⟩

theorem State.processorStep_answers (s : State) : ∃ t, s.processorStep exec = .next t := by
  by_cases hrun : s.run = .running
  · rw [State.processorStep_of_running exec hrun]
    cases s.fetch with
    | ok i => exact State.commit_answers (exec_endsOnlyBy i s)
    | error f => exact ⟨_, rfl⟩
  · exact ⟨s, State.processorStep_of_not_running exec hrun⟩

/-- Settles O10, by what the host does at the step. -/
theorem stepAlwaysAnswersNext : Obligations.StepAlwaysAnswersNext := by
  intro s
  cases hl : s.hostEvents with
  | nil =>
    rw [step_unattended hl]
    exact State.processorStep_answers s
  | cons e rest =>
    cases e with
    | idle =>
      rw [step_idle hl]
      exact State.processorStep_answers _
    | confirm => exact ⟨_, step_confirm hl⟩
    | reset v => exact ⟨_, step_reset hl⟩

/-! ## The run state and the logs an instruction leaves (R220, R252, R256) -/

/-- From `s` to `t` the run state becomes `r`, the display log grows by `ds`, what is recorded of the ports by `ps`, and the
host's list stays. -/
structure Observed (r : RunState) (ds : List DisplayEvent) (ps : List PortEvent) (s t : State) : Prop where
  run : t.run = r
  display : t.display = s.display ++ ds
  portLog : t.portLog = s.portLog ++ ps
  portHistory : t.portHistory = s.portHistory ++ ps
  hostEvents : t.hostEvents = s.hostEvents

/-- From `s` to `t` nothing changes but registers, flags and memory. -/
def Quiet (s t : State) : Prop := t = { s with regs := t.regs, sp := t.sp, pc := t.pc, st := t.st, mem := t.mem }

theorem Quiet.observed (h : Quiet s t) : Observed s.run [] [] s t := by
  unfold Quiet at h
  rw [h]
  constructor <;> simp only [List.append_nil]

theorem finish_ok_quiet {u : State} (h : finish (.ok u) = .next t) (hu : Quiet s u) : Quiet s t := by
  obtain rfl := Host.Outcome.next.inj h
  unfold Quiet at hu
  rw [hu]
  rfl

theorem condJump_quiet {cond : Cond} {d : Word} (h : condJump cond d s = .next t) : Quiet s t := by
  rw [condJump_eq] at h
  obtain rfl := Host.Outcome.next.inj h
  rfl

theorem finishAt_ok_quiet {p : Word} (h : finishAt p (.ok s) = .next t) : Quiet s t := by
  obtain rfl := Host.Outcome.next.inj h
  rfl

theorem load_quiet {n : Reg} {m : MemOperand} (h : load n m s = .next t) : Quiet s t := by
  obtain ⟨v, -, rfl⟩ := load_eq_next h
  rfl

theorem store_quiet {n : Reg} {m : MemOperand} (h : store n m s = .next t) : Quiet s t := by
  obtain ⟨-, rfl⟩ := store_eq_next h
  rfl

/-- PUSH and PUSHSTA. -/
theorem finish_push_quiet {v : Word} (h : finish (s.push v) = .next t) : Quiet s t := by
  obtain ⟨u, hu, rfl⟩ := finish_eq_next h
  obtain ⟨-, rfl⟩ := (State.push_eq_ok_iff s u v).1 hu
  rfl

/-- CALL and SBRA. -/
theorem finishAt_push_quiet {v p : Word} (h : finishAt p (s.push v) = .next t) : Quiet s t := by
  obtain ⟨u, hu, rfl⟩ := finishAt_eq_next h
  obtain ⟨-, rfl⟩ := (State.push_eq_ok_iff s u v).1 hu
  rfl

/-- Every instruction that completes is held to `runAfter`, `displays` and `portEvents`. -/
theorem exec_observed (h : exec i s = .next t) : Observed (runAfter s i) (displays s i) (portEvents s i) s t := by
  cases i with
  | halt | checkpoint | chk | breakpoint | brk =>
    obtain rfl := Host.Outcome.next.inj h
    exact ⟨rfl, rfl, (List.append_nil _).symm, (List.append_nil _).symm, rfl⟩
  | out | inp =>
    obtain rfl := Host.Outcome.next.inj h
    exact ⟨rfl, (List.append_nil _).symm, rfl, rfl, rfl⟩
  | pragma =>
    obtain ⟨-, rfl⟩ := execPragma_eq_next h
    exact ⟨rfl, rfl, (List.append_nil _).symm, (List.append_nil _).symm, rfl⟩
  | add | sub | addc | subc | cpl | inc | dec | inv | and | or | xor | cmp
  | shl | shr | rotl | rotr | shlr | shrr | rotlr | rotrr | sra | srar | rtlx | rtrx
  | ldi | mov | ldsr | nop => exact (finish_ok_quiet (s := s) h rfl).observed
  | jpz | jpe | jpnz | jpne | jpc | jpnc | jpo | jpno | jpp | jpn | jpbc | jpnbc | jpd | jpnd | jpb | jpa | jpbe | jpae
  | jpl | jpg | jpng | jple | jpnl | jpge => exact (condJump_quiet h).observed
  | jmp | bra => exact (finishAt_ok_quiet h).observed
  | stsr n sr =>
    cases sr with
    | pc => exact (finishAt_ok_quiet h).observed
    | sp | st => exact (finish_ok_quiet (s := s) h rfl).observed
  | bit | bitr =>
    obtain ⟨-, rfl⟩ := testBit_eq_next h
    exact Quiet.observed rfl
  | set | setr =>
    obtain ⟨-, rfl⟩ := setBit_eq_next h
    exact Quiet.observed rfl
  | clr | clrr =>
    obtain ⟨-, rfl⟩ := clearBit_eq_next h
    exact Quiet.observed rfl
  | bzf | bzfr =>
    obtain ⟨-, rfl⟩ := copyInvertedZf_eq_next h
    exact Quiet.observed rfl
  | ld | ldr => exact (load_quiet h).observed
  | st | str => exact (store_quiet h).observed
  | push | pushsta => exact (finish_push_quiet h).observed
  | call | sbra => exact (finishAt_push_quiet h).observed
  | pop =>
    obtain ⟨v, -, rfl⟩ := execPop_eq_next h
    exact Quiet.observed rfl
  | popsta =>
    obtain ⟨v, -, rfl⟩ := execPopsta_eq_next h
    exact Quiet.observed rfl
  | ret =>
    obtain ⟨v, -, rfl⟩ := execRet_eq_next h
    exact Quiet.observed rfl
  | pusha =>
    obtain ⟨-, rfl⟩ := execPusha_eq_next h
    obtain ⟨m, hm⟩ : ∃ m, s.storeAll = { s with mem := m } := ⟨_, s.storeAll_eq⟩
    rw [hm]
    exact Quiet.observed rfl
  | popa =>
    obtain ⟨r, v, -, rfl⟩ := execPopa_loads h
    exact Quiet.observed rfl

/-- Settles O17: the fields of `exec_observed`. -/
theorem runStateAfterAnInstruction : Obligations.RunStateAfterAnInstruction := by
  intro i s t h
  obtain ⟨hrun, hdisplay, hlog, hhistory, hevents⟩ := exec_observed h
  exact ⟨hrun, hdisplay, hlog, hhistory, hevents⟩

/-- An instruction halts the machine, stops it at a breakpoint, or leaves the run state. -/
theorem runAfter_cases (s : State) (i : Instr) :
    (∃ m, i = .halt m ∧ runAfter s i = .halted) ∨ runAfter s i = .breakStopped ∨ runAfter s i = s.run := by
  cases i with
  | halt m => exact .inl ⟨m, rfl, rfl⟩
  | breakpoint | brk => exact .inr (.inl rfl)
  | _ => exact .inr (.inr rfl)

/-! ## Faults (R241, R256) -/

/-- An instruction that completes takes a Running machine to no Faulted state. -/
theorem exec_run_ne_faulted {p : Word} (h : exec i s = .next t) (hrun : s.run = .running) : t.run ≠ .faulted f p := by
  rw [(exec_observed h).run]
  rcases runAfter_cases s i with ⟨m, -, hr⟩ | hr | hr <;> simp [hr, hrun]

/-- A step that takes a Running machine to Faulted is the transition of R256 for a fault, of the fetch or of the instruction. -/
theorem step_faults {p : Word} (hrun : s.run = .running) (h : step s = .next t) (ht : t.run = .faulted f p) :
    t = ({ s with hostEvents := s.hostEvents.tail } : State).raise f ∧ p = s.pc := by
  obtain ⟨u, rfl, hc⟩ := step_cases h
  have raised : ∀ g, t = ({ s with hostEvents := s.hostEvents.tail } : State).raise g →
      t = ({ s with hostEvents := s.hostEvents.tail } : State).raise f ∧ p = s.pc := by
    rintro g rfl
    obtain ⟨rfl, rfl⟩ := RunState.faulted.inj ht
    exact ⟨rfl, rfl⟩
  rcases hc with ⟨v, -, rfl⟩ | ⟨-, rfl⟩ | ⟨-, ⟨hstopped, -⟩ | ⟨-, g, -, hg⟩ | ⟨-, i, -, hx | ⟨g, -, hg⟩⟩⟩
  · cases ht
  · rw [State.hostConfirm_of_not_breakStopped (by simp [hrun])] at ht
    cases hrun.symm.trans ht
  · exact absurd hrun hstopped
  · exact raised g hg
  · exact absurd ht (exec_run_ne_faulted hx hrun)
  · exact raised g hg

/-- In Halted and in Faulted a step that is no Reset consumes the host's entry, and that is all. -/
theorem step_of_ended (hrun : s.run ≠ .running) (hbreak : s.run ≠ .breakStopped)
    (hreset : ∀ v rest, s.hostEvents ≠ .reset v :: rest) (h : step s = .next t) :
    t = { s with hostEvents := s.hostEvents.tail } := by
  obtain ⟨u, rfl, hc⟩ := step_cases h
  rcases hc with ⟨v, he, -⟩ | ⟨-, rfl⟩ | ⟨-, ⟨-, rfl⟩ | ⟨hr, -⟩ | ⟨hr, -⟩⟩
  · exact absurd he (hreset v _)
  · exact State.hostConfirm_of_not_breakStopped hbreak
  · rfl
  · exact absurd hr hrun
  · exact absurd hr hrun

/-- Settles O14: `step_faults` names every field; Halted and Faulted are two of the run states of `step_of_ended`. -/
theorem faultsArePreciseAndFinal : Obligations.FaultsArePreciseAndFinal := by
  refine ⟨fun s t f p hrun h ht => ?precise, fun s t hended hreset h => ?lasting, fun s f p hrun => ?not_final⟩
  case precise =>
    obtain ⟨rfl, rfl⟩ := step_faults hrun h ht
    exact ⟨rfl, rfl⟩
  case lasting =>
    rcases hended with hr | ⟨f, p, hr⟩ <;> exact step_of_ended (by simp [hr]) (by simp [hr]) hreset h
  case not_final => simp [State.final, State.unfaulted, hrun]

/-! ## The host's actions (R255, R256, R270, R271) -/

theorem State.hostConfirm_of_breakStopped (h : s.run = .breakStopped) : s.hostConfirm = s.setRun .running := by
  simp only [State.hostConfirm, h]

/-- The flags of `RESET_VALUES` are those of a write of its six bits to ST. -/
theorem ofWord_setWidth (v : BitVec 6) :
    Flags.ofWord (v.setWidth 32) =
      ⟨v.getLsbD 5, v.getLsbD 4, v.getLsbD 3, v.getLsbD 2, v.getLsbD 1, v.getLsbD 0⟩ := by
  simp [Flags.ofWord]

/-- The environment is not reset, so neither is its answer (R271). -/
theorem State.portAnswer_hostReset (s : State) (v : ResetValues) (p : Word) :
    (s.hostReset v).portAnswer p = s.portAnswer p := rfl

/-- A stopped machine and a host that does nothing: only its idle entry goes. -/
theorem step_idle_of_not_running {rest : List HostEvent} (he : s.hostEvents = .idle :: rest) (hrun : s.run ≠ .running) :
    step s = .next { s with hostEvents := rest } := by
  rw [step_idle he]
  exact State.processorStep_of_not_running exec hrun

theorem step_confirm_of_breakStopped {rest : List HostEvent} (he : s.hostEvents = .confirm :: rest)
    (hrun : s.run = .breakStopped) : step s = .next { s with run := .running, hostEvents := rest } :=
  (step_confirm he).trans
    (congrArg _ (State.hostConfirm_of_breakStopped (s := { s with hostEvents := rest }) hrun))

/-- In every other run state a Confirm has no effect. -/
theorem step_confirm_of_not_breakStopped {rest : List HostEvent} (he : s.hostEvents = .confirm :: rest)
    (hrun : s.run ≠ .breakStopped) : step s = .next { s with hostEvents := rest } :=
  (step_confirm he).trans
    (congrArg _ (State.hostConfirm_of_not_breakStopped (s := { s with hostEvents := rest }) hrun))

/-- Settles O15: a lemma about the step for each action. -/
theorem hostActionsAndResets : Obligations.HostActionsAndResets := by
  intro s rest
  refine ⟨fun v he => ?reset, s.portAnswer_hostReset,
    fun he => ⟨step_confirm_of_breakStopped he, step_confirm_of_not_breakStopped he⟩, fun he hrun => ?waiting,
    step_idle_of_not_running⟩
  case reset =>
    rw [step_reset he, ofWord_setWidth]
    rfl
  case waiting => rw [step_unattended he, State.processorStep_of_not_running exec hrun]

end Sys2Proof.Machine
end

section
/-! PROOFS. Debugging (47_debug.md): the display of a checkpoint and of a breakpoint (O56) and of PRAGMA (O58); a wait at a
breakpoint as a run of idle entries, and the Confirm after it (O57). -/

namespace Sys2Proof.Machine

variable {s : State}

/-! ## What each displays (R230 to R232) -/

theorem checkpointAt_eq (m : Word) (s : State) :
    checkpointAt m s = .next { s with display := s.display ++ [.checkpoint (s.message m)], pc := s.pc + 8 } := rfl

theorem breakAt_eq (s : State) :
    breakAt s =
      .next { s with display := s.display ++ [.breakpoint s.pc], run := .breakStopped, pc := s.pc + 8 } := rfl

/-- Settles O56: the two mnemonics of each share one operation. -/
theorem checkpointAndBreakpoint : Obligations.CheckpointAndBreakpoint := fun s m =>
  ⟨checkpointAt_eq m s, checkpointAt_eq m s, breakAt_eq s, breakAt_eq s⟩

theorem execPragma_of_noEffect (m : Word) (h : s.config.pragma = .noEffect) :
    execPragma m s = .next { s with display := s.display ++ [.pragma (s.message m)], pc := s.pc + 8 } := by
  simp only [execPragma, h]
  rfl

theorem execPragma_of_refuse (m : Word) (h : s.config.pragma = .refuse) : execPragma m s = .fault (.refused s.pc) := by
  simp only [execPragma, h, finish_error]

/-- Settles O58: the two values of the parameter. -/
theorem pragmaInBothReadings : Obligations.PragmaInBothReadings := fun _ m =>
  ⟨execPragma_of_noEffect m, execPragma_of_refuse m⟩

/-! ## A wait at a breakpoint (R231, R256) -/

/-- Idle entries before a stopped machine go one by one, and the run goes on with what follows them. -/
theorem run_idle_of_not_running {j : Nat} {l : List HostEvent} (d : Nat) (hrun : s.run ≠ .running)
    (he : s.hostEvents = List.replicate j .idle ++ l) :
    Host.Core.run Sys2Proof.core (j + d) s = Host.Core.run Sys2Proof.core d { s with hostEvents := l } := by
  induction j generalizing s with
  | zero =>
    rw [List.replicate_zero, List.nil_append] at he
    rw [Nat.zero_add, ← he]
  | succ j ih =>
    rw [List.replicate_succ, List.cons_append] at he
    rw [Nat.succ_add, run_succ_of_next (j + d) (step_idle_of_not_running he hrun)]
    exact ih hrun rfl

/-- `j` of the `k` idle entries of a wait, and the rest of the list. -/
theorem replicate_idle_split {j k : Nat} (h : j ≤ k) (l : List HostEvent) :
    List.replicate k HostEvent.idle ++ l = List.replicate j .idle ++ (List.replicate (k - j) .idle ++ l) := by
  rw [← List.append_assoc, List.replicate_append_replicate, Nat.add_sub_of_le h]

/-- Settles O57: the wait by `run_idle_of_not_running`, with no step after it and with the Confirm. -/
theorem breakpointResumesAfterConfirm : Obligations.BreakpointResumesAfterConfirm := by
  intro s t k rest h he
  obtain rfl := Host.Outcome.next.inj ((breakAt_eq s).symm.trans h)
  refine ⟨fun j hj => ?wait, ?confirm⟩
  case wait => exact run_idle_of_not_running 0 nofun (he.trans (replicate_idle_split hj _))
  case confirm =>
    exact Eq.trans (run_idle_of_not_running 1 nofun he) (run_succ_of_next 0 (step_confirm_of_breakStopped rfl rfl))

end Sys2Proof.Machine
end

section
/-! PROOFS. Runs of a program (60_exceptions.md R257): a run that has ended goes no further, its last step executes a HALT, and
a run in a jump to itself does not end (O60). -/

namespace Sys2Proof.Machine

variable {s t u : State} {j k : Nat}

/-! ## Where a run begins and where it is when it has ended -/

/-- A boot state is what a Reset makes of it. -/
theorem boot_starts (c : Config) (v : ResetValues) : (State.boot c v).starts :=
  ⟨State.boot c v, v, rfl⟩

/-- What a Reset gives, whatever it resets (R270). -/
theorem State.starts.fields (h : s.starts) :
    s.run = .running ∧ s.pc = 0 ∧ s.mem = s.config.memInit ∧ s.display = [] ∧ s.portLog = [] := by
  obtain ⟨before, v, rfl⟩ := h
  exact ⟨rfl, rfl, rfl, rfl, rfl⟩

theorem State.final_iff (s : State) : s.final = true ↔ s.run = .halted := by
  rw [State.final, beq_iff_eq]

theorem goesOn_of_final (h : t.final = true) : t.goesOn = false := by
  rw [State.final_iff] at h
  simp only [State.goesOn, h]

theorem unfaulted_of_final (h : t.final = true) : t.unfaulted = true := by
  rw [State.final_iff] at h
  simp only [State.unfaulted, h]

theorem unfaulted_of_goesOn (h : s.goesOn = true) : s.unfaulted = true := by
  cases hr : s.run with
  | running | halted | breakStopped => simp only [State.unfaulted, hr]
  | faulted => simp only [State.goesOn, hr, Bool.false_eq_true] at h

/-! ## One end (R257) -/

/-- No run goes past its end. -/
theorem le_of_endsIn (h : endsIn k s t) (hu : runsTo j s u) : j ≤ k := by
  obtain ⟨-, ht, hfinal⟩ := h
  by_contra hlt
  obtain ⟨d, rfl⟩ := Nat.exists_eq_add_of_le (Nat.le_of_not_le hlt)
  obtain ⟨hd, -⟩ := runsTo_of_not_goesOn (goesOn_of_final hfinal) (runsTo_split ht hu)
  omega

/-- Where a run has an end, what is left of it after `j` steps. -/
theorem runsTo_end_of_endsIn (h : endsIn k s t) (hu : runsTo j s u) : runsTo (k - j) u t :=
  runsTo_split hu (by rw [Nat.add_sub_of_le (le_of_endsIn h hu)]; exact h.2.1)

theorem endsIn_unique (ht : endsIn k s t) (hu : endsIn j s u) : k = j ∧ t = u := by
  obtain rfl : k = j := Nat.le_antisymm (le_of_endsIn hu ht.2.1) (le_of_endsIn ht hu.2.1)
  have hrest := runsTo_end_of_endsIn ht hu.2.1
  rw [Nat.sub_self] at hrest
  exact ⟨rfl, Eq.symm hrest⟩

/-- Every state of a run that has an end is the end or one in which the run goes on. -/
theorem unfaulted_of_endsIn (h : endsIn k s t) (hu : runsTo j s u) : u.unfaulted = true := by
  have hrest := runsTo_end_of_endsIn h hu
  cases hd : k - j with
  | zero =>
    rw [hd] at hrest
    obtain rfl : u = t := hrest
    exact unfaulted_of_final h.2.2
  | succ d =>
    rw [hd] at hrest
    exact unfaulted_of_goesOn hrest.1

/-! ## The last step (R173, R257) -/

theorem execHalt_eq (m : Word) (s : State) :
    execHalt m s =
      .next { s with display := s.display ++ [.halt (s.message m)], run := .halted, pc := s.pc + 8 } := rfl

/-- Only HALT takes a Running machine to Halted. -/
theorem eq_halt_of_exec {i : Instr} (h : exec i s = .next t) (hrun : s.run = .running) (ht : t.run = .halted) :
    ∃ m, i = .halt m := by
  rw [(exec_observed h).run] at ht
  rcases runAfter_cases s i with ⟨m, hi, -⟩ | hr | hr
  · exact ⟨m, hi⟩
  · cases hr.symm.trans ht
  · cases hrun.symm.trans (hr.symm.trans ht)

/-- The state that `step_cases` lets the processor step from. -/
theorem State.yieldsTo_tail (h : s.hostEvents = [] ∨ s.hostEvents = .idle :: s.hostEvents.tail) :
    s.yieldsTo { s with hostEvents := s.hostEvents.tail } := by
  rcases h with he | he
  · exact .inl ⟨he, by rw [he, List.tail_nil, ← he]⟩
  · exact .inr ⟨_, he, rfl⟩

/-- A Confirm halts nothing. -/
theorem State.hostConfirm_run_ne_halted (h : s.run ≠ .halted) : s.hostConfirm.run ≠ .halted := by
  by_cases hb : s.run = .breakStopped
  · rw [State.hostConfirm_of_breakStopped hb]
    nofun
  · rwa [State.hostConfirm_of_not_breakStopped hb]

/-- A step of a run that leads to Halted executes a HALT. -/
theorem step_halts (hs : s.run ≠ .halted) (hreset : s.resetNext = false) (h : step s = .next t) (ht : t.run = .halted) :
    s.run = .running ∧ ∃ v m, s.yieldsTo v ∧ v.fetch = .ok (.halt m) ∧
      t = { v with display := v.display ++ [.halt (v.message m)], run := .halted, pc := v.pc + 8 } := by
  obtain ⟨v, rfl, hc⟩ := step_cases h
  rcases hc with ⟨w, he, -⟩ | ⟨-, rfl⟩ | ⟨he, ⟨-, rfl⟩ | ⟨-, g, -, rfl⟩ | ⟨hrun, i, hfetch, hx | ⟨g, -, rfl⟩⟩⟩
  · rw [State.resetNext, he] at hreset
    cases hreset
  · exact absurd ht (State.hostConfirm_run_ne_halted hs)
  · exact absurd ht hs
  · cases ht
  · obtain ⟨m, rfl⟩ := eq_halt_of_exec hx hrun ht
    exact ⟨hrun, _, m, State.yieldsTo_tail he, hfetch,
      (Host.Outcome.next.inj ((execHalt_eq m _).symm.trans hx)).symm⟩
  · cases ht

/-- The last step of a run that ends: the run begins in Running, so it takes one. -/
theorem last_step_of_endsIn (h : endsIn k s t) :
    ∃ (j : Nat) (u v : State) (m : Word), k = j + 1 ∧ runsTo j s u ∧ u.run = .running ∧ u.yieldsTo v ∧
      v.fetch = .ok (.halt m) ∧
      t = { v with display := v.display ++ [.halt (v.message m)], run := .halted, pc := v.pc + 8 } := by
  obtain ⟨hstarts, hruns, hfinal⟩ := h
  have hhalted := (State.final_iff t).1 hfinal
  cases k with
  | zero =>
    obtain rfl : s = t := hruns
    cases hstarts.fields.1.symm.trans hhalted
  | succ j =>
    obtain ⟨u, hu, hgo, hreset, hstep⟩ := (runsTo_succ_iff j s t).1 hruns
    have hu' : u.run ≠ .halted := fun hr => by
      rw [goesOn_of_final ((State.final_iff u).2 hr)] at hgo
      cases hgo
    obtain ⟨hrun, v, m, hyield, hfetch, ht⟩ := step_halts hu' hreset hstep hhalted
    exact ⟨j, u, v, m, rfl, hu, hrun, hyield, hfetch, ht⟩

/-! ## A run without an end (R170) -/

/-- A run that comes to a jump to itself stays there, in Running. -/
theorem not_endsIn_of_jmp_self (hu : runsTo j s u) (hrun : u.run = .running) (hfetch : u.fetch = .ok (.jmp u.pc))
    (hreset : ∀ v, HostEvent.reset v ∉ u.hostEvents) : ¬ endsIn k s t := by
  intro h
  have hstays := (State.stays_of_fetch_jmp_self hrun hfetch).run_eq hreset (k - j)
  obtain rfl := Host.Outcome.next.inj (hstays.symm.trans (run_of_runsTo (runsTo_end_of_endsIn h hu)))
  cases hrun.symm.trans ((State.final_iff _).1 h.2.2)

/-- Settles O60: a lemma for each clause. -/
theorem runsEndOnlyWhereHaltExecutes : Obligations.RunsEndOnlyWhereHaltExecutes :=
  ⟨fun _ => State.starts.fields, boot_starts, fun _ v _ hreset => ⟨_, step_reset hreset, _, v, rfl⟩,
    fun _ _ _ _ _ => endsIn_unique, fun _ _ _ _ _ h hu => ⟨le_of_endsIn h hu, unfaulted_of_endsIn h hu⟩,
    fun _ _ _ h => ⟨run_of_runsTo h.2.1, last_step_of_endsIn h⟩,
    fun _ _ _ hu hrun hfetch hreset _ _ => not_endsIn_of_jmp_self hu hrun hfetch hreset⟩

end Sys2Proof.Machine
end
